-- ==== Sys2Proof/Word.lean ====
section
/-! DEFINITION. The value types of LEDMIX (spec/00_scope.md R7, R8; spec/10_state.md R13, R19, R22). -/

namespace Sys2Proof

/-- A word of the host's register port and a command word: `CMD_W = 32` bits (R8, R25). -/
abbrev Word := BitVec 32

/-- An audio sample: a signed 16-bit two's complement value (R45). -/
abbrev Sample := BitVec 16

/-- A ShiftPattern: 16 bits (R42). -/
abbrev Pattern := BitVec 16

/-- A slot of a colour vector as stored: `SLOT_W = 8` bits, signed (R8, R13). -/
abbrev Slot := BitVec 8

/-- An operand byte of a command word (R46). -/
abbrev OperandByte := BitVec 8

/-- A colour vector of `NLED = 8` slots (R13). -/
abbrev Slots := Vector Slot 8

end Sys2Proof
end

