-- ==== Sys2Proof/Config.lean ====
section
/-! DEFINITION. The constants the spec fixes (spec/00_scope.md R7) and the model's free values. -/

namespace Sys2Proof.Config

/-- `CLEAR_PULSES` (R7): clock pulses of the clear sequence. -/
def clearPulses : Nat := 16

/-- `DATA_PULSES` (R7): clock pulses of the data sequence, one per pattern bit. -/
def dataPulses : Nat := 16

/-- `SLOTS_PER_SAMPLE` (R7): channel slots per logical sample. -/
def slotsPerSample : Nat := 2

/-- `PROGRESS_STEPS` (R7): the divisor of the progress cadence. -/
def progressSteps : Nat := 8

/-- Numerator of `ATT = 4/5` (R7). -/
def attNum : Int := 4

/-- Denominator of `ATT = 4/5` (R7). -/
def attDen : Int := 5

/-- `ON_CODE` (R7): the value ADVANCE writes. -/
def onCode : Slot := 1

/-- `IDX_W` (R8): the width of the index counters; `2 * SB_DEPTH < 2^IDX_W` is required. -/
def idxWidth : Nat := 32

/-- The reference value of the open parameter `SB_DEPTH` (R8). DESIGN CHOICE (log 1): the depth
`State.reset` carries. Unsafe for a statement that rests on it. -/
def sbDepthReference : Nat := 25000

/-- FREE VALUE (log 6): the draws of the spec ("any value", spec/93 U5, U7, U8). Nothing constrains it.
A draw of a narrower type takes its low bits. -/
opaque draw : Nat → Word

end Sys2Proof.Config
end

