-- ==== Sys2Proof/Syntax.lean ====
section
/-! DEFINITION. The eight commands of LEDMIX (spec/30_encoding.md R48, spec/opcode_table.json). -/

namespace Sys2Proof

/-- One constructor per row of the opcode table. The operands of SETONE are the signed numbers
`sext_8(A)` and `sext_8(B)` (R47); every other operand of the document's calls is implicit (R47). -/
inductive Instr where
  /-- `ENCODE`, OP 0x01 (R56). -/
  | encode
  /-- `TRANSMIT`, OP 0x02 (R59). -/
  | transmit
  /-- `SETALL`, OP 0x03 (R60). -/
  | setall
  /-- `SETONE ledIndex, color`, OP 0x04 (R61). -/
  | setone (ledIndex color : Int)
  /-- `RESETV`, OP 0x05 (R54). -/
  | resetv
  /-- `ADVANCE`, OP 0x06 (R55). -/
  | advance
  /-- `CAPTURE`, OP 0x07 (R66). -/
  | capture
  /-- `PLAYBACK echoEnabled`, OP 0x08 (R67). -/
  | playback (echoEnabled : Bool)
deriving DecidableEq, Repr

/-- The two operations of the stream sequencer STRU (R2). -/
def Instr.streaming : Instr → Bool
  | .encode => false
  | .transmit => false
  | .setall => false
  | .setone _ _ => false
  | .resetv => false
  | .advance => false
  | .capture => true
  | .playback _ => true

end Sys2Proof
end

