-- ==== Sys2Proof/WellFormed.lean ====
section
/-! DEFINITION. Which terms of `Instr` a command word can say (spec/30_encoding.md R47). -/

namespace Sys2Proof

/-- A signed operand byte: -128 .. 127 (R47). -/
def signedByte (v : Int) : Bool := decide (-128 ≤ v) && decide (v ≤ 127)

/-- The two operands of SETONE are signed operand bytes; the other commands have no bounded operand. -/
def Instr.wellFormed : Instr → Bool
  | .encode => true
  | .transmit => true
  | .setall => true
  | .setone ledIndex color => signedByte ledIndex && signedByte color
  | .resetv => true
  | .advance => true
  | .capture => true
  | .playback _ => true

end Sys2Proof
end

