-- ==== Sys2Proof/Decode.lean ====
section
/-! DEFINITION. Command words: decoding, encoding and the opcode table (spec/30_encoding.md R46 to R49).
A command is one whole 32-bit word of the register port; it has no bytes in memory and no byte order (R31, R39). -/

namespace Sys2Proof

/-- Why a word is no command (the cases of R49). -/
inductive DecodeRefusal where
  /-- `Z != 0`. -/
  | reservedTopByte
  /-- `OP` is 0x00 or in 0x09 .. 0xFF. -/
  | unknownOperation (op : OperandByte)
  /-- An operand bit that must be 0 is 1. -/
  | reservedOperandBits (op : OperandByte)
deriving DecidableEq, Repr

/-- Field `OP` of CMD32 (R46). -/
def fieldOp (w : Word) : OperandByte := w.extractLsb' 0 8

/-- Field `A` of CMD32 (R46). -/
def fieldA (w : Word) : OperandByte := w.extractLsb' 8 8

/-- Field `B` of CMD32 (R46). -/
def fieldB (w : Word) : OperandByte := w.extractLsb' 16 8

/-- Field `Z` of CMD32 (R46). -/
def fieldZ (w : Word) : OperandByte := w.extractLsb' 24 8

/-- `sext_8` of an operand byte (R10, R47). -/
def sext8 (v : OperandByte) : Int := v.toInt

/-- An operation without operands: `A` and `B` must be 0 (R47 (c)). -/
def withoutOperands (w : Word) (i : Instr) : Except DecodeRefusal Instr :=
  if fieldA w = 0 ∧ fieldB w = 0 then .ok i else .error (.reservedOperandBits (fieldOp w))

/-- PLAYBACK: `A[0]` is the echo bit, `A[7:1]` and `B` must be 0 (R47 (b)). -/
def decodePlayback (w : Word) : Except DecodeRefusal Instr :=
  if fieldA w >>> 1 = 0 ∧ fieldB w = 0 then .ok (.playback ((fieldA w).getLsbD 0))
  else .error (.reservedOperandBits (fieldOp w))

/-- The decoder: total on every 32-bit word (R48, R49). -/
def decode (w : Word) : Except DecodeRefusal Instr :=
  if fieldZ w ≠ 0 then .error .reservedTopByte
  else match (fieldOp w).toNat with
    | 1 => withoutOperands w .encode
    | 2 => withoutOperands w .transmit
    | 3 => withoutOperands w .setall
    | 4 => .ok (.setone (sext8 (fieldA w)) (sext8 (fieldB w)))
    | 5 => withoutOperands w .resetv
    | 6 => withoutOperands w .advance
    | 7 => withoutOperands w .capture
    | 8 => decodePlayback w
    | _ => .error (.unknownOperation (fieldOp w))

/-- A word of CMD32 with `Z = 0` (R46). -/
def commandWord (b a op : OperandByte) : Word := (0#8 ++ b ++ a ++ op).cast (by decide)

/-- The encoder, from the numbers of R48. -/
def encode : Instr → Word
  | .encode => commandWord 0 0 0x01
  | .transmit => commandWord 0 0 0x02
  | .setall => commandWord 0 0 0x03
  | .setone ledIndex color => commandWord (BitVec.ofInt 8 color) (BitVec.ofInt 8 ledIndex) 0x04
  | .resetv => commandWord 0 0 0x05
  | .advance => commandWord 0 0 0x06
  | .capture => commandWord 0 0 0x07
  | .playback echoEnabled => commandWord 0 (if echoEnabled then 1 else 0) 0x08

/-- The columns `mask` and `match` of the opcode table (R48): a word `w` is the row's operation if and
only if `w & mask = match`. -/
def opcodeMask : Instr → Word
  | .encode => 0xFFFFFFFF
  | .transmit => 0xFFFFFFFF
  | .setall => 0xFFFFFFFF
  | .setone _ _ => 0xFF0000FF
  | .resetv => 0xFFFFFFFF
  | .advance => 0xFFFFFFFF
  | .capture => 0xFFFFFFFF
  | .playback _ => 0xFFFFFEFF

/-- The column `match` of the opcode table (R48). -/
def opcodeMatch : Instr → Word
  | .encode => 0x00000001
  | .transmit => 0x00000002
  | .setall => 0x00000003
  | .setone _ _ => 0x00000004
  | .resetv => 0x00000005
  | .advance => 0x00000006
  | .capture => 0x00000007
  | .playback _ => 0x00000008

/-- The decoder on the low `nbits` bits of `w`, every higher bit 0 (the host's question). -/
def decodeTableWord (nbits w : Nat) : Option Instr :=
  let v := w % 2 ^ nbits
  if v < 2 ^ 32 then
    match decode (BitVec.ofNat 32 v) with
    | .ok i => some i
    | .error _ => none
  else none

end Sys2Proof
end

