-- ==== Sys2Proof/Machine/State.lean ====
section
/-! DEFINITION. The state of LEDMIX and of what it is wired to, as plain data (spec/10_state.md R12 to R24, R26). -/

namespace Sys2Proof.Machine

open Sys2Proof

/-- SB as a list of (sample index, word), indices strictly rising; an index that is not listed has not
been written since reset and reads as a draw (R22, R29). Words, not bytes: R31 forbids bytes (log 7). -/
abbrev Memory := List (Nat × Sample)

/-- The edge of a clock pulse on which LEDRX samples: the open parameter `RX_EDGE` (R8, R23). -/
inductive Edge where
  | assert
  | release
deriving DecidableEq, Repr

/-- The open parameters a model takes as arguments (R8, spec/92 D11, D17). No step changes them (log 1, log 2). -/
structure Params where
  sbDepth : Nat
  rxEdge  : Edge
deriving DecidableEq, Repr

/-- SEQ, the sequencer position (R14). `op` is `none` for IDLE and otherwise the executing command with
its latched operand fields (R53); `blk` and `k` are the loop block and the place in it of the next
micro-operation, which together are R14's `pos` (log 13); `len` is the latched LEN (R18). -/
structure Seq where
  op  : Option Instr
  blk : Nat
  k   : Nat
  len : Word
deriving DecidableEq, Repr

/-- `(IDLE, 0)` (R14, R26). -/
def Seq.idle : Seq := { op := none, blk := 0, k := 0, len := 0 }

/-- The hidden working registers (R20). -/
structure Hidden where
  tv  : Slots
  rxa : Sample
  rxb : Sample
  ma  : Sample
  mb  : Sample
  mp  : BitVec 18
  mq  : Sample
  my  : Sample
deriving DecidableEq, Repr

/-- The value `State.reset` carries for the hidden registers, which R26 leaves unspecified.
DESIGN CHOICE (log 3). -/
def Hidden.zero : Hidden :=
  { tv := Vector.replicate 8 0, rxa := 0, rxb := 0, ma := 0, mb := 0, mp := 0, mq := 0, my := 0 }

/-- CHAN, outside the block (R24): its two ready answers, the value the next `receiveSample()` returns,
and the oracle of the values after that (R12, log 10). -/
structure Chan where
  rxReady : Bool
  rxData  : Sample
  txReady : Bool
  rxNext  : List Sample
deriving DecidableEq, Repr

/-- What HOST may do through its two ports (R28). -/
inductive HostAccess where
  | regRead (n : Nat)
  | regWrite (n : Nat) (v : Word)
  | sbRead (j : Nat)
  | sbWrite (j : Nat) (v : Sample)
deriving DecidableEq, Repr

/-- What comes next, decided outside SEQ: the scheduling and the oracle of R12 as data (log 9). -/
inductive Input where
  /-- HOST makes one access. A write to CMD issues a command (R53); one of the six LED commands then runs
  to completion within the step, as R53 and D30 allow (log 8). -/
  | host (a : HostAccess)
  /-- HOST writes `w` to CMD, and SEQ performs an accepted command one micro-operation a step (R14, log 8). -/
  | hostStepped (w : Word)
  /-- HOST's directive WAIT (R51): while BUSY is 1, SEQ has the turn; it is over when BUSY is 0 (log 22). -/
  | hostWait
  /-- CHAN sets its three values (R24). -/
  | chan (rxReady : Bool) (rxData : Sample) (txReady : Bool)
  /-- RESET is asserted and released (R90). -/
  | reset
  /-- SEQ has the turn. -/
  | seq
deriving DecidableEq, Repr

/-- What the history records: pin-driver calls, channel calls, accesses to SB, what HOST read, and RESET
(R24, R36 (e), R58; log 11). -/
inductive Event where
  | dataSet (a : Bool)
  | clkSet (a : Bool)
  | rxTake (v : Sample)
  | txPut (v : Sample)
  | memRead (j : Nat) (v : Sample)
  | memWrite (j : Nat) (v : Sample)
  | regRead (n : Nat) (v : Word)
  | sbRead (j : Nat) (v : Sample)
  | sbWrite (j : Nat) (v : Sample)
  | reset
deriving DecidableEq, Repr

/-- The state (INVENTORY.md, ## State). -/
structure State where
  /-- CV (R13). -/
  cv     : Slots
  /-- SR (R19). -/
  sr     : Pattern
  /-- LEN (R18). -/
  len    : Word
  /-- STATUS.CFGERR (R17). -/
  cfgErr : Bool
  /-- STATUS.ILLCMD (R17). -/
  illCmd : Bool
  /-- SEQ (R14). -/
  seq    : Seq
  /-- The pin state CLK (R21). -/
  clk    : Bool
  /-- The pin state DATA (R21). -/
  data   : Bool
  /-- The hidden working registers (R20). -/
  hid    : Hidden
  /-- SB (R22). -/
  sb     : Memory
  /-- LEDRX.RX, outside the block (R23). -/
  ledrx  : Pattern
  /-- CHAN, outside the block (R24). -/
  chan   : Chan
  /-- The open parameters (R8). -/
  params : Params
  /-- What the agents outside SEQ do next (R12). -/
  inputs : List Input
  /-- The history, newest first (R24, R58). -/
  events : List Event
  /-- How many free values have been drawn (log 6). -/
  draws  : Nat
deriving DecidableEq, Repr

/-- The machine right after reset (R26). The values of `hid`, `ledrx`, `chan`, `params`, `inputs`, `events`
and `draws` are DESIGN CHOICES (log 1 to 6, 9, 11). -/
def State.reset : State :=
  { cv := Vector.replicate 8 0
    sr := 0
    len := 0
    cfgErr := false
    illCmd := false
    seq := Seq.idle
    clk := false
    data := false
    hid := Hidden.zero
    sb := []
    ledrx := 0
    chan := { rxReady := true, rxData := 0, txReady := true, rxNext := [] }
    params := { sbDepth := Config.sbDepthReference, rxEdge := .release }
    inputs := []
    events := []
    draws := 0 }

/-- Why the machine stops. Neither fault belongs to a state that a run from reset reaches (log 16). -/
inductive Fault where
  /-- SEQ accesses SB at an index that is not below SB_DEPTH (R29). Raised by `seqStep` in a state whose
  latched length breaks LenOk. Safe: the machine stops where the spec gives no such access. -/
  | seqIndexOutsideSb (j : Nat)
  /-- SEQ stands at a position that is none of the executing command (R14). Raised by `seqStep`. Safe. -/
  | seqOutsideProgram
deriving DecidableEq, Repr

/-- What the model gives no meaning. -/
inductive Refusal where
  /-- An instruction without a meaning yet. Raised by `exec`'s refused arms only; there is none. Safe. -/
  | notModelled (mnemonic : String)
  /-- HOST reads or writes a reserved register number: spec/93 U9 says refuse. Raised by the register port. Safe. -/
  | reservedRegister (n : Nat)
  /-- HOST reads or writes SB at an index that is not below SB_DEPTH: spec/93 U9 says refuse. Raised by the
  buffer port. Safe. -/
  | sbIndexOutside (j : Nat)
deriving DecidableEq, Repr

/-- One outcome of this machine. -/
abbrev Result := Host.Outcome State Fault Refusal

end Sys2Proof.Machine
end

