-- ==== Sys2Proof/Machine/Flags.lean ====
section
/-! DEFINITION. The bits of STATUS (spec/10_state.md R17). LEDMIX has no arithmetic flags (R15). -/

namespace Sys2Proof.Machine

open Sys2Proof

/-- `STATUS.BUSY = (SEQ.op != IDLE)` (R14). -/
def State.busy (s : State) : Bool := s.seq.op.isSome

/-- The word a read of STATUS returns: BUSY in bit 0, CFGERR in bit 1, ILLCMD in bit 2, the others 0 (R17). -/
def statusWord (s : State) : Word :=
  (BitVec.ofBool s.illCmd ++ BitVec.ofBool s.cfgErr ++ BitVec.ofBool s.busy).setWidth 32

/-- The two error bits of STATUS: the causes of a rejection (R76). -/
inductive RejectCause where
  /-- CFGERR: LEN breaks LenOk at the issue of CAPTURE or PLAYBACK (R80). -/
  | cfgErr
  /-- ILLCMD: the word written to CMD is no command (R81). -/
  | illCmd
deriving DecidableEq, Repr

end Sys2Proof.Machine
end

