-- ==== Sys2Proof/Machine/Operands.lean ====
section
/-! DEFINITION. Operand forms and derived functions: `clamp`, `tdiv`, `wrap16`, `u16` (spec/00_scope.md R11),
the colour codes and the layout of a ShiftPattern (spec/30_encoding.md R41, R42), the operands of SETONE
(R47, R61) and the precondition on lengths (spec/42_stream.md R64). -/

namespace Sys2Proof.Machine

open Sys2Proof

/-- `clamp` (R11). -/
def clamp (c : Int) : Int := if 0 ≤ c ∧ c < 4 then c else 0

/-- `tdiv` (R11): division truncating toward zero. -/
def tdiv (a b : Int) : Int := a.sign * b.sign * ((a.natAbs / b.natAbs : Nat) : Int)

/-- `wrap16` (R11). -/
def wrap16 (v : Int) : Int := (v + 32768) % 65536 - 32768

/-- `u16` (R11). -/
def u16 (v : Int) : Int := v % 65536

/-- The colours of a colour code (R41). -/
inductive Colour where
  | off
  | red
  | green
  | orange
deriving DecidableEq, Repr

/-- The 2-bit code of a colour (R41). -/
def Colour.code : Colour → BitVec 2
  | .off => 0
  | .red => 1
  | .green => 2
  | .orange => 3

/-- The colour a 2-bit code shows (R41). -/
def colourOf (c : BitVec 2) : Colour :=
  match c.toNat with
  | 0 => .off
  | 1 => .red
  | 2 => .green
  | _ => .orange

/-- The colour code a stored slot value is sent as: `clamp` on the value, not on its low bits (R42, R56). -/
def slotCode (v : Slot) : BitVec 2 := BitVec.ofInt 2 (clamp v.toInt)

/-- One step of the packer: `((SR << 2) | clamp(v)) mod 65536` (R56). -/
def packStep (p : Pattern) (v : Slot) : Pattern := (p <<< 2) ||| (slotCode v).setWidth 16

/-- The slot numbers of a colour vector, in increasing order. -/
def slotIndices : List (Fin 8) := [0, 1, 2, 3, 4, 5, 6, 7]

/-- The ShiftPattern of a vector, by R56's loop from slot 7 down to slot 0. -/
def packVector (v : Slots) : Pattern :=
  slotIndices.reverse.foldl (fun p k => packStep p v[k]) 0

/-- The 2-bit field of slot `k` of a pattern: `p[2k+1 : 2k]` (R42). With it, R57's test-only `decode`. -/
def patternSlot (p : Pattern) (k : Fin 8) : BitVec 2 := p.extractLsb' (2 * k.val) 2

/-- R57's test-only inverse of the packer: `decode(p)[k] = p[2k+1 : 2k]`. -/
def unpackPattern (p : Pattern) : Slots :=
  Vector.ofFn fun k => (patternSlot p k).setWidth 8

/-- ADVANCE's scan: the first slot equal to 0 becomes 1; without one the vector stays (R55). -/
def advanceFrom (v : Slots) : List (Fin 8) → Slots
  | [] => v
  | k :: rest => if v[k] = 0 then v.set k.val Config.onCode k.isLt else advanceFrom v rest

/-- `advanceNext(vector)` (R55). -/
def advanceVector (v : Slots) : Slots := advanceFrom v slotIndices

/-- Whether SETONE's operands are in range: `ledIndex` in [0,8) and `color` in [0,4) (R61). -/
def setoneInRange (ledIndex color : Int) : Bool :=
  decide (0 ≤ ledIndex) && decide (ledIndex < 8) && decide (0 ≤ color) && decide (color < 4)

/-- SETONE's conditional write to its temporary vector (R61). -/
def setoneWrite (ledIndex color : Int) (tv : Slots) : Slots :=
  if setoneInRange ledIndex color then
    if h : ledIndex.toNat < 8 then tv.set ledIndex.toNat (BitVec.ofInt 8 color) h else tv
  else tv

/-- The pattern SETONE sends, in R61's closed form. -/
def setonePattern (ledIndex color : Int) : Pattern :=
  if setoneInRange ledIndex color then BitVec.ofInt 16 color <<< (2 * ledIndex.toNat) else 0

/-- `LenOk(L)` with `SB_DEPTH` (R64). -/
def lenOk (len depth : Nat) : Bool :=
  decide (8 ≤ len) && decide (len % Config.progressSteps = 0) && decide (len ≤ depth)

/-- The pattern of the `m`-th progress picture, `(4^m - 1)/3` (R57 (e), R65). -/
def progressPattern (m : Nat) : Pattern := BitVec.ofNat 16 ((4 ^ m - 1) / 3)

end Sys2Proof.Machine
end

