-- ==== Sys2Proof/Machine/Mixer.lean ====
section
/-! DEFINITION. The echo mixer MIXU (spec/43_echo_mixer.md R70 to R74). -/

namespace Sys2Proof.Machine

open Sys2Proof

/-- `Att(x) = tdiv(4 * x, 5)` (R71). -/
def att (x : Int) : Int := tdiv (Config.attNum * x) Config.attDen

/-- `Mix(a, b) = wrap16(a + Att(b))` (R72). -/
def mix (a b : Int) : Int := wrap16 (a + att b)

/-- Stage 1: `MP <- 4 * MB`, 18 bits signed (R70). -/
def mixStage1 (mb : Sample) : BitVec 18 := BitVec.ofInt 18 (Config.attNum * mb.toInt)

/-- Stage 2: `MQ <- tdiv(MP, 5)` (R70). -/
def mixStage2 (mp : BitVec 18) : Sample := BitVec.ofInt 16 (tdiv mp.toInt Config.attDen)

/-- Stage 3: `MY <- wrap16(MA + MQ)` (R70). -/
def mixStage3 (ma mq : Sample) : Sample := BitVec.ofInt 16 (wrap16 (ma.toInt + mq.toInt))

/-- The three stages together: what a sample of the second half is sent as (R70). -/
def mixSample (ma mb : Sample) : Sample := mixStage3 ma (mixStage2 (mixStage1 mb))

/-- R74's fixed-point realisation of `Att`. Not used by any meaning; a statement says it is equal. -/
def attFixed (x : Int) : Int :=
  let q : Int := ((x.natAbs * 52429) / 2 ^ 16 : Nat)
  if 0 ≤ x then q else -q

/-- The index of the delayed sample: `s - LEN/2`, without a modulo (R73). -/
def delayTap (s len : Nat) : Nat := s - len / 2

end Sys2Proof.Machine
end

