-- ==== Sys2Proof/Machine/Ops.lean ====
section
/-! DEFINITION. The named operations over the state: field updates, SB, free values, pins, LEDRX, CHAN, and
the rejection of a command, which is all LEDMIX has in the place of an exception (spec/60_exceptions.md R84). -/

namespace Sys2Proof.Machine

open Sys2Proof

/-! ## Field updates -/

def State.setCv (s : State) (v : Slots) : State := { s with cv := v }
def State.setSr (s : State) (v : Pattern) : State := { s with sr := v }
def State.setLen (s : State) (v : Word) : State := { s with len := v }
def State.setErr (s : State) (cfg ill : Bool) : State := { s with cfgErr := cfg, illCmd := ill }
def State.setSeq (s : State) (q : Seq) : State := { s with seq := q }
def State.setClk (s : State) (a : Bool) : State := { s with clk := a }
def State.setData (s : State) (a : Bool) : State := { s with data := a }
def State.setHid (s : State) (h : Hidden) : State := { s with hid := h }
def State.setSb (s : State) (m : Memory) : State := { s with sb := m }
def State.setLedrx (s : State) (r : Pattern) : State := { s with ledrx := r }
def State.setChan (s : State) (c : Chan) : State := { s with chan := c }
def State.setInputs (s : State) (l : List Input) : State := { s with inputs := l }

/-- Record an event (log 11). -/
def State.emit (s : State) (e : Event) : State := { s with events := e :: s.events }

/-- Count `n` free values as drawn (log 6). -/
def State.bump (s : State) (n : Nat) : State := { s with draws := s.draws + n }

/-- The history in the order in which it happened. -/
def State.history (s : State) : List Event := s.events.reverse

/-! ## SB (R22, R29) -/

/-- The word written last at index `j`; `none` where nothing has been written since reset (R29). -/
def Memory.get : Memory → Nat → Option Sample
  | [], _ => none
  | (i, v) :: rest, j => if i = j then some v else Memory.get rest j

/-- Write a word, keeping the indices strictly rising. -/
def Memory.put : Memory → Nat → Sample → Memory
  | [], j, v => [(j, v)]
  | (i, x) :: rest, j, v =>
    if j < i then (j, v) :: (i, x) :: rest
    else if i = j then (j, v) :: rest
    else (i, x) :: Memory.put rest j v

/-- The canonical form: indices strictly rising. -/
def Memory.wf : Memory → Bool
  | [] => true
  | [_] => true
  | (i, _) :: (j, y) :: rest => decide (i < j) && Memory.wf ((j, y) :: rest)

/-- A free value of a sample (log 6). -/
def State.drawnSample (s : State) : Sample := (Config.draw s.draws).setWidth 16

/-- What a read of index `j` returns: the written word, or a draw (R29, R36 (b)). -/
def State.sbValue (s : State) (j : Nat) : Sample := (Memory.get s.sb j).getD s.drawnSample

/-- The state after a read of index `j`: a draw is drawn anew at every read (R29). -/
def State.sbTouch (s : State) (j : Nat) : State :=
  match Memory.get s.sb j with
  | some _ => s
  | none => s.bump 1

/-- `MemRead(j, 2)` of SEQ, handing the value to `f` (R29). -/
def seqLoad (s : State) (j : Nat) (f : Hidden → Sample → Hidden) : Result :=
  if j < s.params.sbDepth then
    .next (((s.sbTouch j).setHid (f s.hid (s.sbValue j))).emit (.memRead j (s.sbValue j)))
  else .fault (.seqIndexOutsideSb j)

/-- `MemWrite(j, 2, v)` of SEQ (R29). -/
def seqStore (s : State) (j : Nat) (v : Sample) : Result :=
  if j < s.params.sbDepth then .next ((s.setSb (Memory.put s.sb j v)).emit (.memWrite j v))
  else .fault (.seqIndexOutsideSb j)

/-! ## The pins and LEDRX (R21, R23, R58) -/

/-- LEDRX's shift: `RX <- ((RX << 1) | DATA) mod 65536` (R23). -/
def ledrxShift (rx : Pattern) (dataBit : Bool) : Pattern := (rx <<< 1) ||| (BitVec.ofBool dataBit).setWidth 16

/-- Whether the change of CLK from `old` to `new` is the edge on which LEDRX samples (R23, log 2). -/
def samplesOn (e : Edge) (old new : Bool) : Bool :=
  match e with
  | .assert => !old && new
  | .release => old && !new

/-- LEDRX after CLK has gone to `a`, DATA as it stands (R23). -/
def State.ledrxAfterClk (s : State) (a : Bool) : Pattern :=
  if samplesOn s.params.rxEdge s.clk a then ledrxShift s.ledrx s.data else s.ledrx

/-- `ClkSet(a)` (R58). -/
def clkSet (a : Bool) (s : State) : State := ((s.setLedrx (s.ledrxAfterClk a)).setClk a).emit (.clkSet a)

/-- `DataSet(a)` (R58). -/
def dataSet (a : Bool) (s : State) : State := (s.setData a).emit (.dataSet a)

/-! ## CHAN (R24) -/

/-- `RxTake()`: the value goes to `f`, and CHAN moves on to the next value of its oracle, or to a value
that is free where the oracle lists none (R12, R24, R33, log 10). -/
def rxTake (f : Hidden → Sample → Hidden) (s : State) : State :=
  let v := s.chan.rxData
  let t := (s.setHid (f s.hid v)).emit (.rxTake v)
  match s.chan.rxNext with
  | x :: rest => t.setChan { s.chan with rxData := x, rxNext := rest }
  | [] => (t.setChan { s.chan with rxData := s.drawnSample }).bump 1

/-- `TxPut(v)`: one sample is handed over (R24). -/
def txPut (v : Sample) (s : State) : State := s.emit (.txPut v)

/-- CHAN sets its three values (R24). -/
def chanSet (rxReady : Bool) (rxData : Sample) (txReady : Bool) (s : State) : State :=
  s.setChan { s.chan with rxReady := rxReady, rxData := rxData, txReady := txReady }

/-! ## Issue and rejection (R53, R84) -/

/-- The start of an issue: both error bits are cleared (R53). -/
def clearErrors (s : State) : State := s.setErr false false

/-- `reject(E)`: set the one STATUS bit and nothing else (R84). Called after `clearErrors`. -/
def reject (cause : RejectCause) (s : State) : State :=
  match cause with
  | .cfgErr => s.setErr true s.illCmd
  | .illCmd => s.setErr s.cfgErr true

/-- A write to CMD of a word that is no command (R53, R81). -/
def issueIllegal (s : State) : Result :=
  if s.busy then .next s else .next (reject .illCmd (clearErrors s))

/-- Acceptance: the operands and LEN are latched, BUSY becomes 1 and SEQ stands at position 0 (R53). -/
def accept (i : Instr) (s : State) : State :=
  (clearErrors s).setSeq { op := some i, blk := 0, k := 0, len := s.len }

/-- Completion: `SEQ <- (IDLE, 0)`, which makes BUSY 0 (R53). -/
def complete (s : State) : State := s.setSeq Seq.idle

/-! ## RESET (R90, R91) -/

/-- The hidden registers after RESET: unspecified, so free values `n` to `n + 14` (R90, log 12). -/
def Hidden.drawn (n : Nat) : Hidden :=
  { tv := Vector.ofFn fun k : Fin 8 => (Config.draw (n + k.val)).setWidth 8
    rxa := (Config.draw (n + 8)).setWidth 16
    rxb := (Config.draw (n + 9)).setWidth 16
    ma := (Config.draw (n + 10)).setWidth 16
    mb := (Config.draw (n + 11)).setWidth 16
    mp := (Config.draw (n + 12)).setWidth 18
    mq := (Config.draw (n + 13)).setWidth 16
    my := (Config.draw (n + 14)).setWidth 16 }

/-- RESET asserted and released: every state element inside the block takes R26's value, whatever the block
was doing; LEDRX and CHAN are not touched, but a pulse that CLK had begun ends (R90, R91 (a)). -/
def resetBlock (s : State) : State :=
  { s with
    cv := Vector.replicate 8 0
    sr := 0
    len := 0
    cfgErr := false
    illCmd := false
    seq := Seq.idle
    clk := false
    data := false
    hid := Hidden.drawn s.draws
    sb := []
    ledrx := s.ledrxAfterClk false
    events := .reset :: s.events
    draws := s.draws + 15 }

end Sys2Proof.Machine
end

