-- ==== Sys2Proof/Machine/Sequencer.lean ====
section
/-! DEFINITION. The sequencer SEQ: micro-operations, the list of them that makes each operation, and one
step of SEQ (spec/10_state.md R14, spec/40_led_vector.md R53, spec/42_stream.md R65 to R68). -/

namespace Sys2Proof.Machine

open Sys2Proof

/-- The micro-operations of LEDU (R54 to R61). None of them waits or fails. -/
inductive LedMicro where
  /-- `CV[k] <- 0` (R54). -/
  | cvClear (k : Fin 8)
  /-- ADVANCE's scan and its one slot write (R55, log 14). -/
  | cvAdvance
  /-- `SR <- 0` (R56). -/
  | srClear
  /-- `SR <- ((SR << 2) | clamp(CV[k])) mod 65536` (R56). -/
  | packCv (k : Fin 8)
  /-- `TV[k] <- 0` (R61). -/
  | tvClear (k : Fin 8)
  /-- SETONE's conditional `TV[ledIndex] <- color` (R61, log 14). -/
  | tvSet (ledIndex color : Int)
  /-- `SR <- ((SR << 2) | clamp(TV[k])) mod 65536` (R61). -/
  | packTv (k : Fin 8)
  /-- `DataSet(a)` (R58). -/
  | dataSet (a : Bool)
  /-- `DataSet(SR[15])` (R59). -/
  | dataSetSr
  /-- `ClkSet(a)` (R58). -/
  | clkSet (a : Bool)
  /-- `SR <- (SR << 1) mod 65536` (R59). -/
  | srShift
deriving DecidableEq, Repr

/-- What PLAYBACK hands over: the zero of an odd frame, MA, or MY (R67). -/
inductive TxSource where
  | zero
  | ma
  | my
deriving DecidableEq, Repr

/-- The micro-operations of SEQ: those of LEDU and those of STRU and MIXU (R65 to R67, R70). -/
inductive Micro where
  | led (m : LedMicro)
  /-- `RxWait()`. -/
  | rxWait
  /-- `RXA <- RxTake()`. -/
  | rxTakeA
  /-- `RXB <- RxTake()`. -/
  | rxTakeB
  /-- `MemWrite(i, 2, RXA)`. -/
  | storeA (i : Nat)
  /-- `TxWait()`. -/
  | txWait
  /-- `MA <- MemRead(j, 2)`. -/
  | loadMa (j : Nat)
  /-- `MB <- MemRead(j, 2)`. -/
  | loadMb (j : Nat)
  /-- `MP <- 4 * MB`. -/
  | mixMp
  /-- `MQ <- tdiv(MP, 5)`. -/
  | mixMq
  /-- `MY <- wrap16(MA + MQ)`. -/
  | mixMy
  /-- `TxPut(v)`. -/
  | txPut (src : TxSource)
deriving DecidableEq, Repr

/-! ## Effects -/

/-- The effect of one micro-operation of LEDU. -/
def ledMicro (m : LedMicro) (s : State) : State :=
  match m with
  | .cvClear k => s.setCv (s.cv.set k.val 0 k.isLt)
  | .cvAdvance => s.setCv (advanceVector s.cv)
  | .srClear => s.setSr 0
  | .packCv k => s.setSr (packStep s.sr s.cv[k])
  | .tvClear k => s.setHid { s.hid with tv := s.hid.tv.set k.val 0 k.isLt }
  | .tvSet ledIndex color => s.setHid { s.hid with tv := setoneWrite ledIndex color s.hid.tv }
  | .packTv k => s.setSr (packStep s.sr s.hid.tv[k])
  | .dataSet a => Sys2Proof.Machine.dataSet a s
  | .dataSetSr => Sys2Proof.Machine.dataSet (s.sr.getLsbD 15) s
  | .clkSet a => Sys2Proof.Machine.clkSet a s
  | .srShift => s.setSr (s.sr <<< 1)

/-- The micro-operations of LEDU one after another. -/
def runLed (ms : List LedMicro) (s : State) : State := ms.foldl (fun t m => ledMicro m t) s

/-- The value `TxPut` hands over. -/
def txValue (src : TxSource) (s : State) : Sample :=
  match src with
  | .zero => 0
  | .ma => s.hid.ma
  | .my => s.hid.my

/-- Whether SEQ can take the micro-operation: only the two waits can hold it (R68). -/
def Micro.enabled (m : Micro) (s : State) : Bool :=
  match m with
  | .led _ => true
  | .rxWait => s.chan.rxReady
  | .rxTakeA => true
  | .rxTakeB => true
  | .storeA _ => true
  | .txWait => s.chan.txReady
  | .loadMa _ => true
  | .loadMb _ => true
  | .mixMp => true
  | .mixMq => true
  | .mixMy => true
  | .txPut _ => true

/-- The effect of one micro-operation, the position apart. A passed wait has none (R68). -/
def micro (m : Micro) (s : State) : Result :=
  match m with
  | .led l => .next (ledMicro l s)
  | .rxWait => .next s
  | .rxTakeA => .next (rxTake (fun h v => { h with rxa := v }) s)
  | .rxTakeB => .next (rxTake (fun h v => { h with rxb := v }) s)
  | .storeA i => seqStore s i s.hid.rxa
  | .txWait => .next s
  | .loadMa j => seqLoad s j (fun h v => { h with ma := v })
  | .loadMb j => seqLoad s j (fun h v => { h with mb := v })
  | .mixMp => .next (s.setHid { s.hid with mp := mixStage1 s.hid.mb })
  | .mixMq => .next (s.setHid { s.hid with mq := mixStage2 s.hid.mp })
  | .mixMy => .next (s.setHid { s.hid with my := mixStage3 s.hid.ma s.hid.mq })
  | .txPut src => .next (Sys2Proof.Machine.txPut (txValue src s) s)

/-! ## The micro-operation lists -/

/-- RESETV: the eight slot writes (R54). -/
def resetvMicros : List LedMicro := slotIndices.map .cvClear

/-- ADVANCE (R55). -/
def advanceMicros : List LedMicro := [.cvAdvance]

/-- ENCODE: SR cleared, then slots 7 down to 0 packed (R56). -/
def encodeMicros : List LedMicro := .srClear :: slotIndices.reverse.map .packCv

/-- `ClkPulse()` (R58). -/
def pulseMicros : List LedMicro := [.clkSet true, .clkSet false]

/-- The clear sequence: the data line inactive, then 16 pulses (R59). -/
def clearMicros : List LedMicro := .dataSet false :: (List.replicate Config.clearPulses pulseMicros).flatten

/-- One bit of the data sequence (R59). -/
def dataBitMicros : List LedMicro := .dataSetSr :: (pulseMicros ++ [.srShift])

/-- TRANSMIT: the clear sequence, then 16 bits (R59). -/
def transmitMicros : List LedMicro :=
  clearMicros ++ (List.replicate Config.dataPulses dataBitMicros).flatten

/-- SETALL: ENCODE's micro-operations, then TRANSMIT's (R60). -/
def setallMicros : List LedMicro := encodeMicros ++ transmitMicros

/-- SETONE: TV cleared, the conditional write, TV packed, then TRANSMIT's micro-operations (R61). -/
def setoneMicros (ledIndex color : Int) : List LedMicro :=
  slotIndices.map .tvClear ++ (.tvSet ledIndex color :: .srClear :: slotIndices.reverse.map .packTv) ++ transmitMicros

/-- `ProgressInit()` (R65). -/
def progressInit : List LedMicro := resetvMicros ++ setallMicros

/-- `ProgressTick()` (R65). -/
def progressTick : List LedMicro := advanceMicros ++ setallMicros

/-- The tick of a loop iteration: due when `i` is a multiple of `period` (R66, R67). -/
def tickIfDue (i period : Nat) : List Micro := if i % period = 0 then progressTick.map .led else []

/-- Iteration `i` of CAPTURE's loop (R66). -/
def captureBody (len i : Nat) : List Micro :=
  [.rxWait, .rxTakeA, .rxWait, .rxTakeB, .storeA i] ++ tickIfDue i (len / Config.progressSteps)

/-- The echo of an even frame: the tap and the three stages of MIXU (R67, R70, R73). -/
def echoMicros (len s : Nat) : List Micro := [.loadMb (delayTap s len), .mixMp, .mixMq, .mixMy]

/-- Iteration `i` of PLAYBACK's loop up to `TxPut` (R67). -/
def playbackSend (echoEnabled : Bool) (len i : Nat) : List Micro :=
  if i % 2 = 1 then [.txPut .zero]
  else if echoEnabled && decide (len ≤ i) then .loadMa (i / 2) :: (echoMicros len (i / 2) ++ [.txPut .my])
  else [.loadMa (i / 2), .txPut .ma]

/-- Iteration `i` of PLAYBACK's loop (R67). -/
def playbackBody (echoEnabled : Bool) (len i : Nat) : List Micro :=
  playbackSend echoEnabled len i ++ tickIfDue i (Config.slotsPerSample * len / Config.progressSteps) ++ [.txWait]

/-- What a command's list begins with: the whole list of an LED command (R54 to R61), and `CLEAR_LEDS` of a
streaming command (R64, R65). None of it waits. -/
def ledMicros : Instr → List LedMicro
  | .encode => encodeMicros
  | .transmit => transmitMicros
  | .setall => setallMicros
  | .setone ledIndex color => setoneMicros ledIndex color
  | .resetv => resetvMicros
  | .advance => advanceMicros
  | .capture => progressInit
  | .playback _ => progressInit

/-- How many loop iterations a command has: R14's `N` for a streaming command, none for an LED command. -/
def loopCount (i : Instr) (len : Nat) : Nat :=
  match i with
  | .encode => 0
  | .transmit => 0
  | .setall => 0
  | .setone _ _ => 0
  | .resetv => 0
  | .advance => 0
  | .capture => len
  | .playback _ => Config.slotsPerSample * len

/-- Iteration `n` of a command's loop (R66, R67). -/
def loopBody (i : Instr) (len n : Nat) : List Micro :=
  match i with
  | .encode => []
  | .transmit => []
  | .setall => []
  | .setone _ _ => []
  | .resetv => []
  | .advance => []
  | .capture => captureBody len n
  | .playback echoEnabled => playbackBody echoEnabled len n

/-- The number of blocks of a command's list: the first, and one for each loop iteration. -/
def blockCount (i : Instr) (len : Nat) : Nat := 1 + loopCount i len

/-- Block `b` of a command's list: block 0 is what it begins with, block `n + 1` is `STREAMING(n)` (R14, R64). -/
def block (i : Instr) (len b : Nat) : List Micro :=
  if b = 0 then (ledMicros i).map .led else loopBody i len (b - 1)

/-- R14's micro-operation list of a command as one list. -/
def microList (i : Instr) (len : Nat) : List Micro := (List.range (blockCount i len)).flatMap (block i len)

/-- R14's `pos`: the index in `microList` of the place `k` of block `b` (log 13). -/
def flatPos (i : Instr) (len b k : Nat) : Nat := ((List.range b).flatMap (block i len)).length + k

/-! ## One step of SEQ -/

/-- The position after the micro-operation at position `q`: the next place of the block, the next block,
or the end of the list, where SEQ returns to `(IDLE, 0)` and BUSY becomes 0 (R14, R53). -/
def Seq.advance (i : Instr) (q : Seq) : Seq :=
  if q.k + 1 < (block i q.len.toNat q.blk).length then { q with k := q.k + 1 }
  else if q.blk + 1 < blockCount i q.len.toNat then { q with blk := q.blk + 1, k := 0 }
  else Seq.idle

/-- The micro-operation SEQ takes next; `none` when SEQ is idle. -/
def State.nextMicro (s : State) : Option Micro :=
  match s.seq.op with
  | none => none
  | some i => (block i s.seq.len.toNat s.seq.blk)[s.seq.k]?

/-- Take micro-operation `m` of the executing command `i`, and move on. -/
def takeMicro (i : Instr) (m : Micro) (s : State) : Result :=
  match micro m s with
  | .next t => .next (t.setSeq (Seq.advance i s.seq))
  | .fault f => .fault f
  | .refused r => .refused r

/-- SEQ has the turn: one micro-operation. An idle block does nothing (R89); at a wait whose flag is false
SEQ stays where it is and nothing else changes (R68, R78). -/
def seqStep (s : State) : Result :=
  match s.seq.op with
  | none => .next s
  | some i =>
    match s.nextMicro with
    | none => .fault .seqOutsideProgram
    | some m => if m.enabled s then takeMicro i m s else .next s

/-! ## Issue (R53) -/

/-- The issue of an LED command as one step: nothing while BUSY; otherwise acceptance, every
micro-operation in order, completion (R53, log 8). -/
def issueLed (i : Instr) (s : State) : Result :=
  if s.busy then .next s else .next (complete (runLed (ledMicros i) (accept i s)))

/-- The issue of a streaming command: nothing while BUSY; rejected with CFGERR when LEN breaks LenOk;
otherwise accepted, and SEQ performs it from position 0 on, one micro-operation a step (R53, R64, R80). -/
def issueStream (i : Instr) (s : State) : Result :=
  if s.busy then .next s
  else if lenOk s.len.toNat s.params.sbDepth then .next (accept i s)
  else .next (reject .cfgErr (clearErrors s))

/-- The issue of any command with every micro-operation a step of its own (log 8). -/
def issueStepped (i : Instr) (s : State) : Result :=
  if i.streaming then issueStream i s
  else if s.busy then .next s else .next (accept i s)

end Sys2Proof.Machine
end

