-- ==== Sys2Proof/Machine/LedLink.lean ====
section
/-! DEFINITION. TRANSMIT, SETALL and SETONE (spec/41_led_link.md R59 to R61), and what an observer of the
link sees: frames, levels, the wire waveform and the LEDs (R21, R23, R43, R58, R63). -/

namespace Sys2Proof.Machine

open Sys2Proof

/-- TRANSMIT: one frame that carries SR; SR ends as 0 (R59). -/
def execTransmit (s : State) : Result := issueLed .transmit s

/-- SETALL: `transmit(encode(CV))` (R60). -/
def execSetall (s : State) : Result := issueLed .setall s

/-- SETONE: one frame with at most the one slot `ledIndex` lit; CV neither read nor written (R61). -/
def execSetone (ledIndex color : Int) (s : State) : Result := issueLed (.setone ledIndex color) s

/-! ## Observation -/

/-- The pin-driver calls of one clock pulse (R58). -/
def pulseEvents : List Event := [.clkSet true, .clkSet false]

/-- The pin-driver calls of one data bit (R59). -/
def bitEvents (b : Bool) : List Event := .dataSet b :: pulseEvents

/-- The bits of a pattern in the order of the link: bit 15 first (R43). -/
def patternBits (p : Pattern) : List Bool := (List.range 16).map fun n => p.getLsbD (15 - n)

/-- The pin-driver calls of one frame that carries `p`, in order (R43, R59). -/
def frameEvents (p : Pattern) : List Event :=
  .dataSet false :: (List.replicate Config.clearPulses pulseEvents).flatten ++ (patternBits p).flatMap bitEvents

/-- Whether an event is a pin-driver call. -/
def Event.isPinCall : Event → Bool
  | .dataSet _ => true
  | .clkSet _ => true
  | .rxTake _ => false
  | .txPut _ => false
  | .memRead _ _ => false
  | .memWrite _ _ => false
  | .regRead _ _ => false
  | .sbRead _ _ => false
  | .sbWrite _ _ => false
  | .reset => false

/-- The pins `(CLK, DATA)` after an event. -/
def pinsAfter (pins : Bool × Bool) : Event → Bool × Bool
  | .dataSet a => (pins.1, a)
  | .clkSet a => (a, pins.2)
  | .rxTake _ => pins
  | .txPut _ => pins
  | .memRead _ _ => pins
  | .memWrite _ _ => pins
  | .regRead _ _ => pins
  | .sbRead _ _ => pins
  | .sbWrite _ _ => pins
  | .reset => (false, false)

/-- The wire waveform: the sequence of changes of the pair `(CLK, DATA)` (R58). -/
def waveform (pins : Bool × Bool) : List Event → List (Bool × Bool)
  | [] => []
  | e :: rest =>
    let after := pinsAfter pins e
    if after = pins then waveform pins rest else after :: waveform after rest

/-- The value of DATA at each assertion of CLK: what the receiver is given, pulse by pulse (R43). -/
def sampledData (pins : Bool × Bool) : List Event → List Bool
  | [] => []
  | e :: rest =>
    let after := pinsAfter pins e
    if !pins.1 && after.1 then after.2 :: sampledData after rest else sampledData after rest

/-- Whether DATA changes only while CLK is 0 all along the events (R27 (b), R62 (a)); RESET, which forces
both pins at once, is let pass (R91 (a)). -/
def glitchFree (pins : Bool × Bool) : List Event → Bool
  | [] => true
  | e :: rest =>
    let after := pinsAfter pins e
    (decide (e = .reset) || decide (after.2 = pins.2) || (!pins.1 && !after.1)) && glitchFree after rest

/-- The pins after a history that begins with both released (R21, R26). -/
def pinsOf (h : List Event) : Bool × Bool := h.foldl pinsAfter (false, false)

/-- How many clock pulses were begun since the last RESET of a history, or since its beginning (R27 (c)). -/
def pulsesSinceReset (h : List Event) : Nat :=
  h.foldl (fun n e => if e = .reset then 0 else if e = .clkSet true then n + 1 else n) 0

/-- The level of a line. -/
inductive Level where
  | low
  | high
deriving DecidableEq, Repr

/-- The level of the clock line or the data line for its logical bit: both are active low (R21, D10). -/
def lineLevel (active : Bool) : Level := if active then .low else .high

/-- The colour physical LED `k + 1` shows (R23, R41). -/
def ledColour (s : State) (k : Fin 8) : Colour := colourOf (patternSlot s.ledrx k)

end Sys2Proof.Machine
end

