-- ==== Sys2Proof/Machine/LedVector.lean ====
section
/-! DEFINITION. RESETV, ADVANCE and ENCODE (spec/40_led_vector.md R54 to R56). -/

namespace Sys2Proof.Machine

open Sys2Proof

/-- ENCODE: `SR` becomes the ShiftPattern of CV; pins and CV untouched (R56). -/
def execEncode (s : State) : Result := issueLed .encode s

/-- RESETV: every slot of CV becomes 0 (R54). -/
def execResetv (s : State) : Result := issueLed .resetv s

/-- ADVANCE: the first slot equal to 0 becomes 1; without one CV is unchanged (R55). -/
def execAdvance (s : State) : Result := issueLed .advance s

end Sys2Proof.Machine
end

