-- ==== Sys2Proof/Machine/Stream.lean ====
section
/-! DEFINITION. CAPTURE and PLAYBACK (spec/42_stream.md R64 to R69). Their issue is one step; SEQ then performs
their micro-operation lists, `block .capture` and `block (.playback e)`, one micro-operation a step, because a
wait may never pass (R53, R68). -/

namespace Sys2Proof.Machine

open Sys2Proof

/-- CAPTURE: issue (R53, R64, R66). -/
def execCapture (s : State) : Result := issueStream .capture s

/-- PLAYBACK: issue, with the echo enable latched (R53, R64, R67, R75). -/
def execPlayback (echoEnabled : Bool) (s : State) : Result := issueStream (.playback echoEnabled) s

/-! ## Observation -/

/-- The samples handed to CHAN, in order (R44). -/
def txSamples : List Event → List Sample
  | [] => []
  | .txPut v :: rest => v :: txSamples rest
  | _ :: rest => txSamples rest

/-- The sub-samples taken from CHAN, in order (R44). -/
def rxSamples : List Event → List Sample
  | [] => []
  | .rxTake v :: rest => v :: rxSamples rest
  | _ :: rest => rxSamples rest

/-- What frame `i` of PLAYBACK carries for a buffer with the words `buf` (R44, R67). -/
def playbackSample (echoEnabled : Bool) (len : Nat) (buf : Nat → Sample) (i : Nat) : Sample :=
  if i % 2 = 1 then 0
  else if echoEnabled && decide (len ≤ i) then mixSample (buf (i / 2)) (buf (i / 2 - len / 2))
  else buf (i / 2)

/-- The frame of a progress tick that is due in iteration `i`, or nothing (R65, R66, R67). -/
def tickEvents (i period : Nat) : List Event :=
  if i % period = 0 then frameEvents (progressPattern (i / period + 1)) else []

/-- The whole event sequence of a completed CAPTURE of `len` pairs `(a i, b i)` (R66). -/
def captureEvents (len : Nat) (a b : Nat → Sample) : List Event :=
  frameEvents 0 ++ (List.range len).flatMap fun i =>
    [.rxTake (a i), .rxTake (b i), .memWrite i (a i)] ++ tickEvents i (len / 8)

/-- The SB reads of frame `i` of PLAYBACK (R30, R67). -/
def playbackReads (echoEnabled : Bool) (len : Nat) (buf : Nat → Sample) (i : Nat) : List Event :=
  if i % 2 = 1 then []
  else if echoEnabled && decide (len ≤ i) then
    [.memRead (i / 2) (buf (i / 2)), .memRead (i / 2 - len / 2) (buf (i / 2 - len / 2))]
  else [.memRead (i / 2) (buf (i / 2))]

/-- The whole event sequence of a completed PLAYBACK of a buffer with the words `buf` (R67). -/
def playbackEvents (echoEnabled : Bool) (len : Nat) (buf : Nat → Sample) : List Event :=
  frameEvents 0 ++ (List.range (2 * len)).flatMap fun i =>
    playbackReads echoEnabled len buf i ++ [.txPut (playbackSample echoEnabled len buf i)] ++ tickEvents i (2 * len / 8)

end Sys2Proof.Machine
end

