-- ==== Sys2Proof/Machine/Dispatch.lean ====
section
/-! DEFINITION. One arm per command (spec/30_encoding.md R48). -/

namespace Sys2Proof.Machine

open Sys2Proof

/-- The handling of a host write to CMD of a word that decodes to `i` (spec/40_led_vector.md R53). -/
def exec (i : Instr) (s : State) : Host.Outcome State Fault Refusal :=
  match i with
  | .encode => Sys2Proof.Machine.execEncode s
  | .transmit => Sys2Proof.Machine.execTransmit s
  | .setall => Sys2Proof.Machine.execSetall s
  | .setone ledIndex color => Sys2Proof.Machine.execSetone ledIndex color s
  | .resetv => Sys2Proof.Machine.execResetv s
  | .advance => Sys2Proof.Machine.execAdvance s
  | .capture => Sys2Proof.Machine.execCapture s
  | .playback echoEnabled => Sys2Proof.Machine.execPlayback echoEnabled s

end Sys2Proof.Machine
end

