-- ==== Sys2Proof/Machine/HostPort.lean ====
section
/-! DEFINITION. The register port and the buffer port (spec/10_state.md R25; spec/20_memory.md R28, R29, R33, R37). -/

namespace Sys2Proof.Machine

open Sys2Proof

/-- The registers of the REG space (R25). -/
inductive RegName where
  | cmd
  | status
  | len
  | sr
  | cv (k : Fin 8)
deriving DecidableEq, Repr

/-- The register of a register number; `none` for a reserved one (R25). -/
def regOf (n : Nat) : Option RegName :=
  if n = 0 then some .cmd
  else if n = 1 then some .status
  else if n = 2 then some .len
  else if n = 3 then some .sr
  else if h : 8 ≤ n ∧ n < 16 then some (.cv ⟨n - 8, by omega⟩)
  else none

/-- The number of a register (R25). -/
def RegName.number : RegName → Nat
  | .cmd => 0
  | .status => 1
  | .len => 2
  | .sr => 3
  | .cv k => 8 + k.val

/-- What a read of a register returns while BUSY is 0, and of CMD and STATUS always (R16, R17, R25). -/
def regValue (s : State) : RegName → Word
  | .cmd => 0
  | .status => statusWord s
  | .len => s.len
  | .sr => s.sr.setWidth 32
  | .cv k => s.cv[k].signExtend 32

/-- A free value of the register's type, extended as the table of R25 says (R37, log 6, log 23). -/
def regDrawn (s : State) : RegName → Word
  | .cmd => 0
  | .status => statusWord s
  | .len => Config.draw s.draws
  | .sr => ((Config.draw s.draws).setWidth 16).setWidth 32
  | .cv _ => ((Config.draw s.draws).setWidth 8).signExtend 32

/-- Whether a read of the register while BUSY is 1 returns an unspecified value (R37). -/
def RegName.hiddenWhileBusy : RegName → Bool
  | .cmd => false
  | .status => false
  | .len => true
  | .sr => true
  | .cv _ => true

/-- `RegRead(n)`; a read has no side effect (R33), but its value is part of the history (log 11). -/
def regRead (n : Nat) (s : State) : Result :=
  match regOf n with
  | none => .refused (.reservedRegister n)
  | some r =>
    if s.busy && r.hiddenWhileBusy then .next ((s.emit (.regRead n (regDrawn s r))).bump 1)
    else .next (s.emit (.regRead n (regValue s r)))

/-- `RegWrite(n, v)` of a register that is not CMD (CMD's is `commandWrite`): ignored while BUSY is 1,
ignored by STATUS, and otherwise the low bits of the word (R17, R25, R37). -/
def regStore (r : RegName) (v : Word) (s : State) : State :=
  if s.busy then s
  else match r with
    | .cmd => s
    | .status => s
    | .len => s.setLen v
    | .sr => s.setSr (v.setWidth 16)
    | .cv k => s.setCv (s.cv.set k.val (v.setWidth 8) k.isLt)

/-- `RegWrite(n, v)` for `n` other than 0. -/
def regWrite (n : Nat) (v : Word) (s : State) : Result :=
  match regOf n with
  | none => .refused (.reservedRegister n)
  | some r => .next (regStore r v s)

/-- `SbRead(j)`: the word, a draw where none was written, a draw while BUSY is 1 (R29, R37). -/
def sbRead (j : Nat) (s : State) : Result :=
  if s.params.sbDepth ≤ j then .refused (.sbIndexOutside j)
  else if s.busy then .next ((s.emit (.sbRead j s.drawnSample)).bump 1)
  else .next ((s.sbTouch j).emit (.sbRead j (s.sbValue j)))

/-- `SbWrite(j, v)`: ignored while BUSY is 1 (R29, R37). -/
def sbWrite (j : Nat) (v : Sample) (s : State) : Result :=
  if s.params.sbDepth ≤ j then .refused (.sbIndexOutside j)
  else if s.busy then .next s
  else .next ((s.setSb (Memory.put s.sb j v)).emit (.sbWrite j v))

/-- One access of HOST, a write to CMD apart. -/
def hostAccess (a : HostAccess) (s : State) : Result :=
  match a with
  | .regRead n => regRead n s
  | .regWrite n v => regWrite n v s
  | .sbRead j => sbRead j s
  | .sbWrite j v => sbWrite j v s

/-- The word of an access that is a write to CMD (R16). -/
def HostAccess.commandWord : HostAccess → Option Word
  | .regRead _ => none
  | .regWrite n v => if n = 0 then some v else none
  | .sbRead _ => none
  | .sbWrite _ _ => none

/-- A write to CMD after which an accepted command is stepped (R53, log 8). -/
def commandStepped (w : Word) (s : State) : Result :=
  match decode w with
  | .ok i => issueStepped i s
  | .error _ => issueIllegal s

end Sys2Proof.Machine
end

