-- ==== Sys2Proof/Machine/Step.lean ====
section
/-! DEFINITION. One step of the whole machine: the head of `inputs` says which agent moves; without one SEQ
has the turn (spec/10_state.md R12, log 9). LEDMIX fetches no instructions (spec/20_memory.md R39): a command is
the word HOST writes to CMD. -/

namespace Sys2Proof.Machine

open Sys2Proof

/-- A host write of `w` to CMD (R16, R53). -/
def commandWrite (w : Word) (s : State) : Host.Outcome State Fault Refusal :=
  match decode w with
  | .ok i => exec i s
  | .error _ => issueIllegal s

/-- An access of HOST. -/
def hostTurn (a : HostAccess) (s : State) : Host.Outcome State Fault Refusal :=
  match a.commandWord with
  | some w => commandWrite w s
  | none => hostAccess a s

/-- The step. -/
def step (s : State) : Host.Outcome State Fault Refusal :=
  match s.inputs with
  | [] => seqStep s
  | .seq :: rest => seqStep (s.setInputs rest)
  | .host a :: rest => hostTurn a (s.setInputs rest)
  | .hostStepped w :: rest => commandStepped w (s.setInputs rest)
  | .hostWait :: rest => if s.busy then seqStep s else .next (s.setInputs rest)
  | .chan rxReady rxData txReady :: rest => .next (chanSet rxReady rxData txReady (s.setInputs rest))
  | .reset :: rest => .next (resetBlock (s.setInputs rest))

/-- The state whose very next step is HOST's write of the word `w` to CMD: the low `nbits` bits of `w`, every
higher bit 0, and SEQ idle, since only an idle block takes a command (R16, R37, log 18). -/
def State.withFetchWord (s : State) (nbits w : Nat) : State :=
  (s.setSeq Seq.idle).setInputs (.host (.regWrite 0 (BitVec.ofNat 32 (w % 2 ^ nbits))) :: s.inputs)

end Sys2Proof.Machine
end

