-- ==== Sys2Proof/Machine/HostScript.lean ====
section
/-! DEFINITION. The host's line syntax and pseudo-instructions (spec/30_encoding.md R51, R52) as data that expands
into what HOST does. -/

namespace Sys2Proof.Machine

open Sys2Proof

/-- The registers a `WR` line may name (R51); `CMD` issues the raw word. -/
inductive WrReg where
  | len
  | sr
  | cv (k : Fin 8)
  | cmd
deriving DecidableEq, Repr

/-- The registers an `RD` line may name (R51). -/
inductive RdReg where
  | status
  | len
  | sr
  | cv (k : Fin 8)
deriving DecidableEq, Repr

/-- The register a `WR` line writes. -/
def WrReg.regName : WrReg → RegName
  | .len => .len
  | .sr => .sr
  | .cv k => .cv k
  | .cmd => .cmd

/-- The register an `RD` line reads. -/
def RdReg.regName : RdReg → RegName
  | .status => .status
  | .len => .len
  | .sr => .sr
  | .cv k => .cv k

/-- One line (R51). -/
inductive Line where
  | command (i : Instr)
  | wr (r : WrReg) (v : Word)
  | rd (r : RdReg)
  | sbw (j : Nat) (v : Sample)
  | sbr (j : Nat)
  | wait
deriving DecidableEq, Repr

/-- What HOST does for a line; a command line is followed by WAIT (R51). DESIGN CHOICE (log 28): `WR CMD, w` is the write
alone, with no WAIT after it, since R51 lists it among the host directives and says only that it issues `w`. -/
def Line.inputs : Line → List Input
  | .command i => [.host (.regWrite 0 (encode i)), .hostWait]
  | .wr r v => [.host (.regWrite r.regName.number v)]
  | .rd r => [.host (.regRead r.regName.number)]
  | .sbw j v => [.host (.sbWrite j v)]
  | .sbr j => [.host (.sbRead j)]
  | .wait => [.hostWait]

/-- The pseudo-instructions (R52). -/
inductive Pseudo where
  | clearLeds
  | nextLed
  | transmitI (p : Pattern)
  | setVec (v : Slots)
  | setAllV (v : Slots)
deriving DecidableEq, Repr

/-- The `WR` lines of SETVEC (R52). -/
def setVecLines (v : Slots) : List Line := slotIndices.map fun k => .wr (.cv k) (v[k].signExtend 32)

/-- The exact expansion of a pseudo-instruction (R52). -/
def Pseudo.lines : Pseudo → List Line
  | .clearLeds => [.command .resetv, .command .setall]
  | .nextLed => [.command .advance, .command .setall]
  | .transmitI p => [.wr .sr (p.setWidth 32), .command .transmit]
  | .setVec v => setVecLines v
  | .setAllV v => setVecLines v ++ [.command .setall]

/-- What HOST does for a program of lines. -/
def scriptInputs (p : List Line) : List Input := p.flatMap Line.inputs

end Sys2Proof.Machine
end

