-- ==== Sys2Proof/Safety.lean ====
section
/-! DEFINITION. What the statements call a sound state and an idle block (spec/10_state.md R14, R17, R22, R27). -/

namespace Sys2Proof.Machine

open Sys2Proof

/-- The block is idle: `SEQ = (IDLE, 0)`, so BUSY is 0 (R14). -/
def State.isIdle (s : State) : Prop := s.seq = Seq.idle

/-- `2 * SB_DEPTH < 2^IDX_W`, which the parameter must satisfy (R8). -/
def State.paramsSound (s : State) : Prop := 2 * s.params.sbDepth < 2 ^ Config.idxWidth

/-- SB is in its canonical form and holds no word at an index that does not exist (R22). -/
def State.sbSound (s : State) : Prop :=
  Memory.wf s.sb = true ∧ ∀ j v, Memory.get s.sb j = some v → j < s.params.sbDepth

/-- CFGERR and ILLCMD are never both 1, and neither is 1 while BUSY is 1 (R27 (d)). -/
def State.statusSound (s : State) : Prop :=
  ¬(s.cfgErr = true ∧ s.illCmd = true) ∧ (s.busy = true → s.cfgErr = false ∧ s.illCmd = false)

/-- SEQ is `(IDLE, 0)`, or stands at a micro-operation of the list of a command that a word can say, with a
latched length that satisfies LenOk when the command is a streaming one (R14, R53, R64). -/
def State.seqSound (s : State) : Prop :=
  match s.seq.op with
  | none => s.seq = Seq.idle
  | some i =>
    i.wellFormed = true
      ∧ (i.streaming = true → lenOk s.seq.len.toNat s.params.sbDepth = true)
      ∧ s.seq.blk < blockCount i s.seq.len.toNat
      ∧ s.seq.k < (block i s.seq.len.toNat s.seq.blk).length

/-- The micro-operations of the present block that SEQ has already taken; none when it is idle. -/
def State.takenMicros (s : State) : List Micro :=
  match s.seq.op with
  | none => []
  | some i => (block i s.seq.len.toNat s.seq.blk).take s.seq.k

/-- CLK is 1 exactly between the two halves of a pulse; in particular it is 0 while BUSY is 0 (R27 (a)). -/
def State.clkSound (s : State) : Prop := s.clk = true ↔ s.takenMicros.getLast? = some (.led (.clkSet true))

/-- The invariant of the machine. -/
def State.Inv (s : State) : Prop :=
  s.paramsSound ∧ s.sbSound ∧ s.statusSound ∧ s.seqSound ∧ s.clkSound

/-- The clock pulses a list of micro-operations begins. -/
def pulsesIn (ms : List Micro) : Nat := ms.count (.led (.clkSet true))

/-- The pins are what the last pin-driver calls (or RESET) made them (R21). -/
def State.pinsRecorded (s : State) : Prop := pinsOf s.history = (s.clk, s.data)

/-- The clock pulses begun since reset are, modulo 32, those of the present block; a multiple of 32 while BUSY
is 0 (R27 (c)). -/
def State.pulsesSound (s : State) : Prop := pulsesSinceReset s.history % 32 = pulsesIn s.takenMicros % 32

/-- The first `m` slots are 1 and the others 0: what "left-to-right with no gaps" leaves (R27 (e), R57). -/
def progressVector (m : Nat) : Slots := Vector.ofFn fun k : Fin 8 => if k.val < m then 1 else 0

/-- All eight slots 1 (R69 (a)). -/
def allOn : Slots := Vector.replicate 8 1

/-- `n` steps, stopping at the first fault or refusal. -/
def run : Nat → State → Result
  | 0, s => .next s
  | n + 1, s =>
    match step s with
    | .next t => run n t
    | .fault f => .fault f
    | .refused r => .refused r

/-- Commands issued one after another, each when the one before it is done (R36 (d)). -/
def runCommands : List Instr → State → Result
  | [], s => .next s
  | i :: rest, s =>
    match exec i s with
    | .next t => runCommands rest t
    | .fault f => .fault f
    | .refused r => .refused r

end Sys2Proof.Machine
end

