-- ==== Sys2Proof/Certificates/Slice0/Obligations.lean ====
section
/-! DEFINITION. The statements for the provers. Each docstring names the rule of spec/ it formalises. Values that
`Config.draw` supplies are free: no statement rests on one of them. -/

open Sys2Proof Sys2Proof.Machine

/-! ## Command words -/

/-- Words written out from R48's and R51's numbers decode to the commands they stand for. -/
def Obligations.WordsOfTheSpecDecode : Prop :=
  decode 0x00000001 = .ok .encode ∧ decode 0x00000002 = .ok .transmit ∧ decode 0x00000003 = .ok .setall ∧
  decode 0x00010204 = .ok (.setone 2 1) ∧ decode 0x0003FF04 = .ok (.setone (-1) 3) ∧
  decode 0x00808004 = .ok (.setone (-128) (-128)) ∧ decode 0x00000005 = .ok .resetv ∧
  decode 0x00000006 = .ok .advance ∧ decode 0x00000007 = .ok .capture ∧
  decode 0x00000008 = .ok (.playback false) ∧ decode 0x00000108 = .ok (.playback true)

/-- R48: `(w & mask) == match` decides which operation a word is, and the masks are disjoint
(the spec's own inference). -/
def Obligations.MaskAndMatchSelectTheOperation : Prop :=
  (∀ (w : Word) (i : Instr), decode w = .ok i → w &&& opcodeMask i = opcodeMatch i) ∧
  (∀ (w : Word) (i : Instr), w &&& opcodeMask i = opcodeMatch i →
    ∃ j, decode w = .ok j ∧ opcodeMask j = opcodeMask i ∧ opcodeMatch j = opcodeMatch i) ∧
  (∀ (w : Word) (i j : Instr), w &&& opcodeMask i = opcodeMatch i → w &&& opcodeMask j = opcodeMatch j →
    opcodeMatch i = opcodeMatch j)

/-- R47 (a), (b): the operands are the sign-extended bytes A and B, and bit 8 of the word. -/
def Obligations.OperandFieldsAreAssembled : Prop :=
  (∀ (w : Word) (ledIndex color : Int), decode w = .ok (.setone ledIndex color) →
    ledIndex = (w.extractLsb' 8 8).toInt ∧ color = (w.extractLsb' 16 8).toInt) ∧
  (∀ (w : Word) (e : Bool), decode w = .ok (.playback e) → e = w.getLsbD 8)

/-- Decoding the encoding of any well-formed command gives it back: no operand bit is lost. -/
def Obligations.DecodeOfEncodeIsIdentity : Prop :=
  ∀ i : Instr, i.wellFormed = true → decode (encode i) = .ok i

/-- Each word has one meaning: a word that decodes is the encoding of what it decodes to, which is well formed. -/
def Obligations.EncodeOfDecodeIsIdentity : Prop :=
  ∀ (w : Word) (i : Instr), decode w = .ok i → encode i = w ∧ i.wellFormed = true

/-- R49: which words are illegal, and that an illegal word written to CMD while the block is idle is rejected, in
either form of the write (log 8), where U6 of spec/93 would also allow a refusal (log 19). -/
def Obligations.IllegalWordsAreListedAndRejected : Prop :=
  (∀ w : Word, (¬ ∃ i, decode w = .ok i) ↔
    (w.extractLsb' 24 8 ≠ 0 ∨ w.extractLsb' 0 8 = 0 ∨ 9 ≤ (w.extractLsb' 0 8).toNat ∨
      ((w.extractLsb' 0 8).toNat ∈ [1, 2, 3, 5, 6, 7] ∧ (w.extractLsb' 8 8 ≠ 0 ∨ w.extractLsb' 16 8 ≠ 0)) ∨
      ((w.extractLsb' 0 8).toNat = 8 ∧ (w.extractLsb' 9 7 ≠ 0 ∨ w.extractLsb' 16 8 ≠ 0)))) ∧
  (∀ (s : State) (w : Word) (rest : List Input), s.busy = false → (¬ ∃ i, decode w = .ok i) →
    (s.inputs = .host (.regWrite 0 w) :: rest ∨ s.inputs = .hostStepped w :: rest) →
    step s = .next { s with inputs := rest, cfgErr := false, illCmd := true })

/-! ## Issue -/

/-- A host write to CMD of a word that decodes to `i` is a step that runs `i`; the step itself only takes the
write off the list of inputs (R16, R53). In the stepped form (log 8) the step issues `i`: for a streaming command that
is `exec i`, and an idle block accepts an LED command with SEQ at its first micro-operation. When SEQ has the turn, by
an input or because no input is listed, the step is SEQ's (log 9). -/
def Obligations.StepRunsTheDecodedCommand : Prop :=
  (∀ (s : State) (w : Word) (i : Instr) (rest : List Input), decode w = .ok i →
    (s.inputs = .host (.regWrite 0 w) :: rest → step s = exec i { s with inputs := rest }) ∧
    (s.inputs = .hostStepped w :: rest → step s = issueStepped i { s with inputs := rest })) ∧
  (∀ (s : State) (i : Instr), i.streaming = true → issueStepped i s = exec i s) ∧
  (∀ (s : State) (i : Instr), i.streaming = false → s.busy = false →
    issueStepped i s = .next { s with
      cfgErr := false, illCmd := false, seq := { op := some i, blk := 0, k := 0, len := s.len } }) ∧
  (∀ (s : State) (rest : List Input),
    (s.inputs = .seq :: rest → step s = seqStep { s with inputs := rest }) ∧
    (s.inputs = [] → step s = seqStep s))

/-- `withFetchWord` makes the very next step run the word's command, in the same state with SEQ idle (log 18). -/
def Obligations.FetchWordIsRunNext : Prop :=
  ∀ (s : State) (nbits w : Nat) (i : Instr), decodeTableWord nbits w = some i →
    step (s.withFetchWord nbits w) = exec i { s with seq := Seq.idle }

/-- R16: CMD reads as 0, and a command written while BUSY is 1 changes nothing, legal or not, stepped or not. -/
def Obligations.BusyBlockIgnoresCommands : Prop :=
  (∀ (s : State) (w : Word) (rest : List Input), s.busy = true →
    (s.inputs = .host (.regWrite 0 w) :: rest ∨ s.inputs = .hostStepped w :: rest) →
    step s = .next { s with inputs := rest }) ∧
  (∀ (s : State) (rest : List Input), s.inputs = .host (.regRead 0) :: rest →
    step s = .next { s with inputs := rest, events := .regRead 0 0 :: s.events })

/-- R80, R84: CAPTURE or PLAYBACK issued to an idle block whose LEN breaks LenOk sets CFGERR and changes nothing
else; the other error bit is cleared by the write itself. -/
def Obligations.BadLengthIsRejected : Prop :=
  ∀ (s : State) (i : Instr), i.streaming = true → s.busy = false →
    (s.len.toNat < 8 ∨ s.len.toNat % 8 ≠ 0 ∨ s.params.sbDepth < s.len.toNat) →
    exec i s = .next { s with cfgErr := true, illCmd := false }

/-- R83: an illegal word gives ILLCMD whatever LEN holds; only a legal streaming word has LEN examined; no write to
CMD leaves both error bits set. -/
def Obligations.IllegalWordComesBeforeBadLength : Prop :=
  ∀ (s t : State) (w : Word) (rest : List Input), s.busy = false → s.inputs = .host (.regWrite 0 w) :: rest →
    step s = .next t →
    (t.illCmd = true ↔ ¬ ∃ i, decode w = .ok i) ∧
    (t.cfgErr = true ↔ ∃ i, decode w = .ok i ∧ i.streaming = true ∧ lenOk s.len.toNat s.params.sbDepth = false) ∧
    ¬(t.cfgErr = true ∧ t.illCmd = true)

/-- R76: no command stops the machine; `exec` answers a next state for every command in every state. -/
def Obligations.EveryCommandAnswersANextState : Prop :=
  ∀ (i : Instr) (s : State), ∃ t, exec i s = .next t

/-- From a sound state a step never faults, and it is refused only for a host access to a reserved register number
or to an SB index that does not exist; from any state every such access is refused (U9 of spec/93; busy or not, log 15). -/
def Obligations.SoundStatesStopOnlyAtReservedHostAccesses : Prop :=
  (∀ s : State, s.Inv →
    (∀ f, step s ≠ .fault f) ∧
    (∀ r, step s = .refused r → ∃ a rest, s.inputs = .host a :: rest ∧
      ((∃ n v, (a = .regRead n ∨ a = .regWrite n v) ∧ (4 ≤ n ∧ n ≤ 7 ∨ 16 ≤ n) ∧ r = .reservedRegister n) ∨
        (∃ j v, (a = .sbRead j ∨ a = .sbWrite j v) ∧ s.params.sbDepth ≤ j ∧ r = .sbIndexOutside j)))) ∧
  (∀ (s : State) (n : Nat) (v : Word) (rest : List Input), (4 ≤ n ∧ n ≤ 7 ∨ 16 ≤ n) →
    (s.inputs = .host (.regRead n) :: rest ∨ s.inputs = .host (.regWrite n v) :: rest) →
    step s = .refused (.reservedRegister n)) ∧
  (∀ (s : State) (j : Nat) (v : Sample) (rest : List Input), s.params.sbDepth ≤ j →
    (s.inputs = .host (.sbRead j) :: rest ∨ s.inputs = .host (.sbWrite j v) :: rest) →
    step s = .refused (.sbIndexOutside j))

/-! ## The vector commands -/

/-- R54: RESETV sets every slot to 0 and changes nothing else; twice is the same as once. -/
def Obligations.ResetvClearsEverySlot : Prop :=
  ∀ s : State, s.isIdle →
    exec .resetv s = .next { s with cv := Vector.replicate 8 0, cfgErr := false, illCmd := false } ∧
    ∀ t, exec .resetv s = .next t → exec .resetv t = .next t

/-- R55: ADVANCE sets the first slot that equals 0, compared as stored, to 1; without one the vector is unchanged;
nothing else changes. -/
def Obligations.AdvanceLightsTheFirstOffSlot : Prop :=
  ∀ s : State, s.isIdle →
    (∀ k : Fin 8, s.cv[k] = 0 → (∀ j : Fin 8, j < k → s.cv[j] ≠ 0) →
      exec .advance s = .next { s with cv := s.cv.set k.val 1 k.isLt, cfgErr := false, illCmd := false }) ∧
    ((∀ k : Fin 8, s.cv[k] ≠ 0) → exec .advance s = .next { s with cfgErr := false, illCmd := false })

/-- R56, R57 (a): ENCODE leaves the sum of `clamp(CV[k]) * 4^k` in SR and changes nothing else. -/
def Obligations.EncodeLoadsTheClampedSum : Prop :=
  ∀ s : State, s.isIdle →
    exec .encode s = .next { s with
      sr := BitVec.ofInt 16 (∑ k : Fin 8, clamp s.cv[k].toInt * 4 ^ k.val), cfgErr := false, illCmd := false }

/-- R42: the field of slot `k` is `clamp(vector[k])`, the pattern is the sum, and every 16-bit value is the pattern
of exactly one vector with all slots in 0..3. -/
def Obligations.ShiftPatternIsTheClampedVector : Prop :=
  (∀ (v : Slots) (k : Fin 8), ((patternSlot (packVector v) k).toNat : Int) = clamp v[k].toInt) ∧
  (∀ v : Slots, ((packVector v).toNat : Int) = ∑ k : Fin 8, clamp v[k].toInt * 4 ^ k.val) ∧
  (∀ p : Pattern, ∃ v : Slots, ((∀ k : Fin 8, 0 ≤ v[k].toInt ∧ v[k].toInt < 4) ∧ packVector v = p) ∧
    ∀ u : Slots, (∀ k : Fin 8, 0 ≤ u[k].toInt ∧ u[k].toInt < 4) → packVector u = p → u = v)

/-- R57 (b): the test-only inverse gives back the clamped vector, and packing it gives back the pattern. -/
def Obligations.UnpackInvertsThePacker : Prop :=
  (∀ (v : Slots) (k : Fin 8), (unpackPattern (packVector v))[k].toInt = clamp v[k].toInt) ∧
  (∀ p : Pattern, packVector (unpackPattern p) = p)

/-- R57 (c), (d), (e): RESETV and then `n` ADVANCEs light exactly the first `min n 8` slots, and ENCODE then gives
`(4^min(n,8) - 1)/3`. -/
def Obligations.ProgressFillsLeftToRight : Prop :=
  ∀ (s : State) (n : Nat), s.isIdle →
    runCommands (.resetv :: List.replicate n .advance) s =
      .next { s with cv := progressVector (min n 8), cfgErr := false, illCmd := false } ∧
    runCommands (.resetv :: (List.replicate n .advance ++ [.encode])) s =
      .next { s with cv := progressVector (min n 8), sr := BitVec.ofNat 16 ((4 ^ min n 8 - 1) / 3),
                     cfgErr := false, illCmd := false }

/-- R27 (e): after RESETV followed by any ADVANCE, SETALL, SETONE, ENCODE and TRANSMIT commands the slots of CV are
1 up to some place and 0 from there on. -/
def Obligations.LedCommandsNeverLeaveAGap : Prop :=
  ∀ (s t : State) (cs : List Instr), s.isIdle → (∀ c ∈ cs, c.streaming = false ∧ c ≠ .resetv) →
    runCommands (.resetv :: cs) s = .next t → ∃ m, m ≤ 8 ∧ t.cv = progressVector m

/-! ## The link -/

/-- R59: TRANSMIT makes the 81 pin-driver calls of one frame in order, leaves SR 0, CLK 0 and DATA at bit 0 of the
pattern, and changes nothing else of the block. The reference receiver then holds the pattern (R63).
The state after is the spec's own inference from the call list. -/
def Obligations.TransmitSendsOneFrame : Prop :=
  (∀ s : State, s.isIdle → s.clk = false →
    exec .transmit s = .next { s with
      sr := 0, data := s.sr.getLsbD 0, ledrx := s.sr, cfgErr := false, illCmd := false
      events := (Event.dataSet false :: (List.replicate 16 [Event.clkSet true, Event.clkSet false]).flatten ++
        (List.range 16).flatMap fun n =>
          [Event.dataSet (s.sr.getLsbD (15 - n)), Event.clkSet true, Event.clkSet false]).reverse ++ s.events }) ∧
  (∀ p : Pattern, (frameEvents p).length = 81 ∧ (frameEvents p).count (.clkSet true) = 32 ∧
    (frameEvents p).count (.clkSet false) = 32 ∧
    (frameEvents p).count (.dataSet true) + (frameEvents p).count (.dataSet false) = 17)

/-- R43: a frame is 32 pulses; DATA is 0 in the first sixteen and bit `31 - n` of the pattern in pulse `n` of the
others, whatever DATA was before. -/
def Obligations.FrameCarriesThePatternMsbFirst : Prop :=
  ∀ (p : Pattern) (d : Bool), (sampledData (false, d) (frameEvents p)).length = 32 ∧
    (∀ n, n < 16 → (sampledData (false, d) (frameEvents p))[n]? = some false) ∧
    (∀ n, 16 ≤ n → n < 32 → (sampledData (false, d) (frameEvents p))[n]? = some (p.getLsbD (31 - n)))

/-- R60: SETALL sends the frame of the packed CV; SR ends as 0, DATA is 1 exactly when CV[0] is 1 or 3, CV stays. -/
def Obligations.SetallSendsTheVector : Prop :=
  ∀ s : State, s.isIdle → s.clk = false →
    ∃ p : Pattern, p = BitVec.ofInt 16 (∑ k : Fin 8, clamp s.cv[k].toInt * 4 ^ k.val) ∧
      exec .setall s = .next { s with
        sr := 0, data := decide (s.cv[0] = 1 ∨ s.cv[0] = 3), ledrx := p, cfgErr := false, illCmd := false
        events := (frameEvents p).reverse ++ s.events }

/-- R60, R52: SETALL and the sequence ENCODE, TRANSMIT have the same effect on every piece of state. -/
def Obligations.SetallEqualsEncodeThenTransmit : Prop :=
  ∀ s : State, s.isIdle → exec .setall s = runCommands [.encode, .transmit] s

/-- R61: SETONE sends `color << (2 * ledIndex)` when both operands are in range and 0 otherwise; the temporary
vector holds the colour in that one slot; CV is not written; SR ends as 0. The closed form
is the spec's own inference. -/
def Obligations.SetoneSendsOneSlotOrNone : Prop :=
  ∀ (s : State) (ledIndex color : Int), s.isIdle → s.clk = false →
    ∃ (p : Pattern) (tv : Slots),
      p = (if 0 ≤ ledIndex ∧ ledIndex < 8 ∧ 0 ≤ color ∧ color < 4
            then BitVec.ofInt 16 (color * 4 ^ ledIndex.toNat) else 0) ∧
      (∀ k : Fin 8, tv[k] = if 0 ≤ ledIndex ∧ ledIndex = k.val ∧ 0 ≤ color ∧ color < 4
            then BitVec.ofInt 8 color else 0) ∧
      exec (.setone ledIndex color) s = .next { s with
        hid := { s.hid with tv := tv }, sr := 0, data := p.getLsbD 0, ledrx := p, cfgErr := false, illCmd := false
        events := (frameEvents p).reverse ++ s.events }

/-- R61 (d), R63: after SETONE with operands in range the one LED shows the colour and every other LED is off,
whatever the LEDs showed before; after SETALL LED `k + 1` shows the clamped slot `k`. -/
def Obligations.LedsShowTheVectorSent : Prop :=
  (∀ s : State, s.isIdle → s.clk = false → ∃ t, exec .setall s = .next t ∧
    ∀ k : Fin 8, ledColour t k = colourOf (BitVec.ofInt 2 (clamp s.cv[k].toInt))) ∧
  (∀ (s : State) (n : Fin 8) (c : Colour), s.isIdle → s.clk = false →
    ∃ t, exec (.setone n.val c.code.toNat) s = .next t ∧
      ∀ k : Fin 8, ledColour t k = if k = n then c else .off)

/-- R63: through the clear sequence the old picture moves out, then the pattern moves in, bit by bit. The moments are
steps of a TRANSMIT performed one micro-operation a step (log 8): two steps a clear pulse, four a data bit; at the end the
LEDs show the pattern. -/
def Obligations.ReceiverShowsThePartialPictures : Prop :=
  ∀ s : State, s.isIdle → s.clk = false → s.inputs = [] →
    ∃ u, issueStepped .transmit s = .next u ∧
      (∀ n, n < 16 → ∃ t, run (1 + 2 * (n + 1)) u = .next t ∧ t.ledrx = s.ledrx <<< (n + 1)) ∧
      (∀ m, 1 ≤ m → m ≤ 16 → ∃ t, run (33 + 4 * m) u = .next t ∧ t.ledrx = s.sr >>> (16 - m)) ∧
      ∃ t, run 97 u = .next t ∧ t.isIdle ∧ ∀ k : Fin 8, ledColour t k = colourOf (patternSlot s.sr k)

/-- R62 (b): which edge the receiver samples on cannot be seen after a command: the results for the two edges agree
in everything but the parameter. -/
def Obligations.SamplingEdgeIsUnobservable : Prop :=
  ∀ (i : Instr) (s : State) (e : Edge), s.clk = false →
    ∃ t u, exec i s = .next t ∧ exec i { s with params := { s.params with rxEdge := e } } = .next u ∧
      u = { t with params := { t.params with rxEdge := e } }

/-- R62 (a), (c), (d), (e): the calls of an LED command that drives the link change DATA only while CLK is 0,
make exactly 32 pulses with DATA 0 in the first 16, and start and end with CLK 0, for every operand value. -/
def Obligations.EveryLinkCommandIsAGlitchFreeFrame : Prop :=
  ∀ (s t : State) (i : Instr), s.isIdle → s.clk = false →
    (i = .transmit ∨ i = .setall ∨ ∃ a b, i = .setone a b) → exec i s = .next t →
    t.clk = false ∧
      ∃ calls : List Event, t.history = s.history ++ calls ∧ calls.all Event.isPinCall = true ∧
        glitchFree (s.clk, s.data) calls = true ∧
        calls.foldl pinsAfter (s.clk, s.data) = (t.clk, t.data) ∧
        calls.count (.clkSet true) = 32 ∧
        (sampledData (s.clk, s.data) calls).length = 32 ∧
        (sampledData (s.clk, s.data) calls).take 16 = List.replicate 16 false

/-! ## The echo mixer -/

/-- R71: `Att(x)` is `4x/5` truncated toward zero; its range, symmetry, zeros and exact values
(the spec's own inferences). -/
def Obligations.AttenuationTruncatesTowardZero : Prop :=
  (∀ x : Int, (0 ≤ x → 5 * att x ≤ 4 * x ∧ 4 * x < 5 * att x + 5) ∧
    (x ≤ 0 → 4 * x ≤ 5 * att x ∧ 5 * att x < 4 * x + 5)) ∧
  (∀ x : Sample, -26214 ≤ att x.toInt ∧ att x.toInt ≤ 26213) ∧
  att (-32768) = -26214 ∧ att 32767 = 26213 ∧
  (∀ x : Int, att (-x) = -att x) ∧
  (∀ x : Int, att x = 0 ↔ x = -1 ∨ x = 0 ∨ x = 1) ∧
  (∀ x : Int, (att x).natAbs ≤ x.natAbs) ∧
  (∀ k : Int, att (5 * k) = 4 * k)

/-- R70: the three stages, at the widths R20 gives them, lose no bit before the add, and give `Mix`. -/
def Obligations.MixerStagesComputeMix : Prop :=
  ∀ a b : Sample, (mixStage1 b).toInt = 4 * b.toInt ∧ (mixStage2 (mixStage1 b)).toInt = att b.toInt ∧
    (mixSample a b).toInt = mix a.toInt b.toInt

/-- R72: the range of the sum; `Mix` is the sum when it fits 16 bits and the sum plus or minus 65536 when it does
not; overflow needs two addends of one sign, and cannot happen with `|b| <= 1`. -/
def Obligations.MixWrapsSilently : Prop :=
  ∀ a b : Sample,
    (-58982 ≤ a.toInt + att b.toInt ∧ a.toInt + att b.toInt ≤ 58980) ∧
    (b.toInt.natAbs ≤ 1 → mix a.toInt b.toInt = a.toInt) ∧
    (-32768 ≤ a.toInt + att b.toInt → a.toInt + att b.toInt ≤ 32767 → mix a.toInt b.toInt = a.toInt + att b.toInt) ∧
    (32767 < a.toInt + att b.toInt →
      mix a.toInt b.toInt = a.toInt + att b.toInt - 65536 ∧ 0 < a.toInt ∧ 0 < att b.toInt) ∧
    (a.toInt + att b.toInt < -32768 →
      mix a.toInt b.toInt = a.toInt + att b.toInt + 65536 ∧ a.toInt < 0 ∧ att b.toInt < 0) ∧
    (mixSample a b = a + BitVec.ofInt 16 (att b.toInt))

/-- R73: under LenOk the tap of every echo frame is the sample LEN/2 earlier, inside the first half. -/
def Obligations.DelayTapStaysInTheFirstHalf : Prop :=
  ∀ len depth i : Nat, lenOk len depth = true → len ≤ i → i < 2 * len → i % 2 = 0 →
    len / 2 ≤ i / 2 ∧ i / 2 ≤ len - 1 ∧ delayTap (i / 2) len + len / 2 = i / 2 ∧ delayTap (i / 2) len ≤ len / 2 - 1

/-- R74: the fixed-point realisation with the constant 52429 computes `Att` for every sample. -/
def Obligations.FixedPointRealisationIsExact : Prop :=
  ∀ x : Sample, attFixed x.toInt = att x.toInt

/-! ## Streaming -/

/-- R64: LenOk, and the consequences the other rules use. -/
def Obligations.LenOkConsequences : Prop :=
  ∀ len depth : Nat, (lenOk len depth = true ↔ 8 ≤ len ∧ len % 8 = 0 ∧ len ≤ depth) ∧
    (lenOk len depth = true → 1 ≤ len / 8 ∧ 2 * len / 8 = len / 4 ∧ 2 * len / 8 = 2 * (len / 8) ∧ len % 2 = 0 ∧
      len / 2 = 4 * (len / 8) ∧ (len / 4) % 2 = 0)

/-- R53: a streaming command with a legal length is accepted by an idle block: LEN and the operands are latched, BUSY
becomes 1, both error bits become 0, SEQ stands at its first micro-operation, and nothing else changes. -/
def Obligations.StreamingCommandIsAccepted : Prop :=
  ∀ (s : State) (i : Instr), i.streaming = true → s.isIdle → lenOk s.len.toNat s.params.sbDepth = true →
    ∃ t, exec i s = .next t ∧ t.busy = true ∧
      t = { s with cfgErr := false, illCmd := false, seq := { op := some i, blk := 0, k := 0, len := s.len } }

/-- R66, R69: CAPTURE with a channel that is always ready runs from issue to completion. The `n`-th value taken is
`x n`, the channel's own where it lists one; SB receives the first of each pair; the calls, the stores and the
frames stand in the order of R66; CV is all 1, SR 0, CLK 0, DATA 1, the receiver 0x5555, STATUS 0. It rests on log 10
(no take changes a ready flag) and leaves every other channel and schedule out. -/
def Obligations.CaptureStoresTheFirstOfEachPair : Prop :=
  ∀ s : State, s.isIdle → s.clk = false → s.inputs = [] → s.chan.rxReady = true →
    lenOk s.len.toNat s.params.sbDepth = true →
    ∃ (u t : State) (x : Nat → Sample), exec .capture s = .next u ∧
      run (microList .capture s.len.toNat).length u = .next t ∧
      (∀ n v, (s.chan.rxData :: s.chan.rxNext)[n]? = some v → x n = v) ∧
      (∀ i, i < s.len.toNat → Memory.get t.sb i = some (x (2 * i))) ∧
      (∀ j, s.len.toNat ≤ j → Memory.get t.sb j = Memory.get s.sb j) ∧
      t.history = s.history ++ captureEvents s.len.toNat (fun i => x (2 * i)) (fun i => x (2 * i + 1)) ∧
      t.isIdle ∧ t.cv = allOn ∧ t.sr = 0 ∧ t.clk = false ∧ t.data = true ∧ t.ledrx = 0x5555 ∧
      t.len = s.len ∧ statusWord t = 0

/-- R67, R69: PLAYBACK with a channel that is always ready runs from issue to completion. Frame `i` carries
`playbackSample`; the reads, the puts and the frames stand in the order of R67; SB is unchanged; CV is all 1, SR 0,
CLK 0, DATA 1, the receiver 0x5555, STATUS 0. It rests on log 10 (no put changes a ready flag) and leaves every other
channel and schedule out, and words never written. -/
def Obligations.PlaybackSendsTheBuffer : Prop :=
  ∀ (s : State) (e : Bool) (buf : Nat → Sample), s.isIdle → s.clk = false → s.inputs = [] → s.chan.txReady = true →
    lenOk s.len.toNat s.params.sbDepth = true → (∀ j, j < s.len.toNat → Memory.get s.sb j = some (buf j)) →
    ∃ u t : State, exec (.playback e) s = .next u ∧
      run (microList (.playback e) s.len.toNat).length u = .next t ∧
      txSamples t.history = txSamples s.history ++
        (List.range (2 * s.len.toNat)).map (playbackSample e s.len.toNat buf) ∧
      t.history = s.history ++ playbackEvents e s.len.toNat buf ∧
      t.sb = s.sb ∧ t.isIdle ∧ t.cv = allOn ∧ t.sr = 0 ∧ t.clk = false ∧ t.data = true ∧ t.ledrx = 0x5555 ∧
      t.len = s.len ∧ statusWord t = 0

/-- R68: at a wait whose flag is false a turn of SEQ changes nothing; when the flag is true the turn moves the
position on and changes nothing else; at every other micro-operation of a sound state the turn moves the position on. -/
def Obligations.WaitsHoldUntilReady : Prop :=
  ∀ (s : State) (i : Instr), s.seq.op = some i →
    (s.nextMicro = some .rxWait → s.chan.rxReady = false → seqStep s = .next s) ∧
    (s.nextMicro = some .txWait → s.chan.txReady = false → seqStep s = .next s) ∧
    (s.nextMicro = some .rxWait → s.chan.rxReady = true → seqStep s = .next { s with seq := Seq.advance i s.seq }) ∧
    (s.nextMicro = some .txWait → s.chan.txReady = true → seqStep s = .next { s with seq := Seq.advance i s.seq }) ∧
    (∀ m, s.Inv → s.nextMicro = some m → m ≠ .rxWait → m ≠ .txWait →
      ∃ t, seqStep s = .next t ∧ t.seq = Seq.advance i s.seq)

/-- R24: nothing but the two waits depends on the channel's ready flags. That the two flags stand after the turn as they
were set before it, at a take and at a put too, is the model's choice (log 10): R24 leaves it open. -/
def Obligations.OnlyWaitsReadTheReadyFlags : Prop :=
  ∀ (s : State) (a b : Bool), s.nextMicro ≠ some .rxWait → s.nextMicro ≠ some .txWait →
    ∀ t, seqStep s = .next t →
      seqStep { s with chan := { s.chan with rxReady := a, txReady := b } } =
        .next { t with chan := { t.chan with rxReady := a, txReady := b } }

/-! ## The sequencer -/

/-- R14: SEQ's position is an index into the operation's list, the micro-operation there is the next one, and each
micro-operation taken moves the index on by one until the end of the list, where SEQ returns to `(IDLE, 0)`. -/
def Obligations.SequencerFollowsTheList : Prop :=
  ∀ (s : State) (i : Instr), s.seqSound → s.seq.op = some i →
    (∃ m, s.nextMicro = some m ∧
      (microList i s.seq.len.toNat)[flatPos i s.seq.len.toNat s.seq.blk s.seq.k]? = some m ∧
      ∀ t, m.enabled s = true → seqStep s = .next t →
        (t.isIdle ∧ flatPos i s.seq.len.toNat s.seq.blk s.seq.k + 1 = (microList i s.seq.len.toNat).length) ∨
        (t.seq.op = some i ∧ t.seq.len = s.seq.len ∧
          flatPos i s.seq.len.toNat t.seq.blk t.seq.k = flatPos i s.seq.len.toNat s.seq.blk s.seq.k + 1))

/-- R53, D30 (log 8): an LED command issued with one step a micro-operation reaches, after as many steps as its list is
long, exactly the state that its one big step gives. -/
def Obligations.SteppedLedCommandEqualsItsBigStep : Prop :=
  ∀ (s : State) (i : Instr), s.isIdle → s.inputs = [] → i.streaming = false →
    ∃ u t, issueStepped i s = .next u ∧ run (ledMicros i).length u = .next t ∧ exec i s = .next t

/-- R89: an idle block does nothing when SEQ has the turn. -/
def Obligations.IdleBlockDoesNothing : Prop :=
  ∀ s : State, s.isIdle → seqStep s = .next s

/-! ## Frames -/

/-- R30: what a command's issue leaves alone. No command changes LEN, SB, CHAN, the parameters, the inputs or the
count of free values; only RESETV and ADVANCE change CV; only ENCODE, TRANSMIT, SETALL and SETONE change SR; only
SETONE changes a hidden register, and only TV; only TRANSMIT, SETALL and SETONE move a pin, the receiver or the
history; an LED command leaves SEQ idle. -/
def Obligations.CommandsLeaveTheRestAlone : Prop :=
  ∀ (s t : State) (i : Instr), s.isIdle → exec i s = .next t →
    t.len = s.len ∧ (∀ j, Memory.get t.sb j = Memory.get s.sb j) ∧ t.chan = s.chan ∧ t.params = s.params ∧
    t.inputs = s.inputs ∧ t.draws = s.draws ∧
    (i ≠ .resetv → i ≠ .advance → t.cv = s.cv) ∧
    ((i = .resetv ∨ i = .advance ∨ i.streaming = true) → t.sr = s.sr) ∧
    ((∀ a b, i ≠ .setone a b) → t.hid = s.hid) ∧
    ({ t.hid with tv := s.hid.tv } = s.hid) ∧
    ((i = .encode ∨ i = .resetv ∨ i = .advance ∨ i.streaming = true) →
      t.clk = s.clk ∧ t.data = s.data ∧ t.ledrx = s.ledrx ∧ t.history = s.history) ∧
    (i.streaming = false → t.isIdle)

/-- R30, R29: what one turn of SEQ leaves alone. LEN, the error bits, the parameters, the inputs and the channel's ready
flags (log 10) never change. A word of SB changes only at the index a `MemWrite` names, and becomes RXA; PLAYBACK and the
LED commands never write SB. CV, SR, the pins, the receiver, each hidden register, CHAN, the history (log 11) and the
count of free values (log 6) change only at the micro-operations named, and the history by one entry at most. -/
def Obligations.SequencerTurnFrame : Prop :=
  ∀ (s t : State), seqStep s = .next t →
    t.len = s.len ∧ t.cfgErr = s.cfgErr ∧ t.illCmd = s.illCmd ∧ t.params = s.params ∧ t.inputs = s.inputs ∧
    t.chan.rxReady = s.chan.rxReady ∧ t.chan.txReady = s.chan.txReady ∧
    (∀ i, s.nextMicro = some (.storeA i) →
      Memory.get t.sb i = some s.hid.rxa ∧ ∀ j, j ≠ i → Memory.get t.sb j = Memory.get s.sb j) ∧
    ((∀ i, s.nextMicro ≠ some (.storeA i)) → ∀ j, Memory.get t.sb j = Memory.get s.sb j) ∧
    (s.seq.op ≠ some .capture → t.sb = s.sb) ∧
    ((∀ k, s.nextMicro ≠ some (.led (.cvClear k))) → s.nextMicro ≠ some (.led .cvAdvance) → t.cv = s.cv) ∧
    (s.nextMicro ≠ some (.led .srClear) → (∀ k, s.nextMicro ≠ some (.led (.packCv k))) →
      (∀ k, s.nextMicro ≠ some (.led (.packTv k))) → s.nextMicro ≠ some (.led .srShift) → t.sr = s.sr) ∧
    ((∀ a, s.nextMicro ≠ some (.led (.clkSet a))) → t.clk = s.clk ∧ t.ledrx = s.ledrx) ∧
    ((∀ a, s.nextMicro ≠ some (.led (.dataSet a))) → s.nextMicro ≠ some (.led .dataSetSr) → t.data = s.data) ∧
    ((∀ k, s.nextMicro ≠ some (.led (.tvClear k))) → (∀ a b, s.nextMicro ≠ some (.led (.tvSet a b))) →
      t.hid.tv = s.hid.tv) ∧
    (s.nextMicro ≠ some .rxTakeA → t.hid.rxa = s.hid.rxa) ∧ (s.nextMicro ≠ some .rxTakeB → t.hid.rxb = s.hid.rxb) ∧
    ((∀ j, s.nextMicro ≠ some (.loadMa j)) → t.hid.ma = s.hid.ma) ∧
    ((∀ j, s.nextMicro ≠ some (.loadMb j)) → t.hid.mb = s.hid.mb) ∧
    (s.nextMicro ≠ some .mixMp → t.hid.mp = s.hid.mp) ∧ (s.nextMicro ≠ some .mixMq → t.hid.mq = s.hid.mq) ∧
    (s.nextMicro ≠ some .mixMy → t.hid.my = s.hid.my) ∧
    (s.nextMicro ≠ some .rxTakeA → s.nextMicro ≠ some .rxTakeB →
      t.chan = s.chan ∧
      ((∀ j, s.nextMicro ≠ some (.loadMa j)) → (∀ j, s.nextMicro ≠ some (.loadMb j)) →
        t.draws = s.draws ∧
        ((∀ i, s.nextMicro ≠ some (.storeA i)) → (∀ v, s.nextMicro ≠ some (.txPut v)) →
          (∀ a, s.nextMicro ≠ some (.led (.clkSet a))) → (∀ a, s.nextMicro ≠ some (.led (.dataSet a))) →
          s.nextMicro ≠ some (.led .dataSetSr) → t.history = s.history))) ∧
    (∃ l : List Event, l.length ≤ 1 ∧ t.history = s.history ++ l)

/-! ## The host's ports -/

/-- R17: BUSY, CFGERR and ILLCMD are bits 0, 1 and 2 of STATUS, every other bit reads as 0, and a read gives the
present value, also while BUSY is 1. -/
def Obligations.StatusWordHasThreeBits : Prop :=
  (∀ s : State, (statusWord s).getLsbD 0 = s.busy ∧ (statusWord s).getLsbD 1 = s.cfgErr ∧
    (statusWord s).getLsbD 2 = s.illCmd ∧ ∀ n, 3 ≤ n → (statusWord s).getLsbD n = false) ∧
  (∀ (s : State) (rest : List Input), s.inputs = .host (.regRead 1) :: rest →
    step s = .next { s with inputs := rest, events := .regRead 1 (statusWord s) :: s.events })

/-- R25, R18, R19, R13: what a host write of each register gives while the block is not busy. -/
def Obligations.RegisterWritesTakeTheLowBits : Prop :=
  ∀ (s : State) (v : Word) (rest : List Input), s.busy = false →
    (s.inputs = .host (.regWrite 1 v) :: rest → step s = .next { s with inputs := rest }) ∧
    (s.inputs = .host (.regWrite 2 v) :: rest → step s = .next { s with inputs := rest, len := v }) ∧
    (s.inputs = .host (.regWrite 3 v) :: rest →
      step s = .next { s with inputs := rest, sr := v.extractLsb' 0 16 }) ∧
    (∀ k : Fin 8, s.inputs = .host (.regWrite (8 + k.val) v) :: rest →
      step s = .next { s with inputs := rest, cv := s.cv.set k.val (v.extractLsb' 0 8) k.isLt })

/-- R25, R18, R19, R13: what a host read of each register returns while the block is not busy, with no side effect. -/
def Obligations.RegisterReadsAreExtended : Prop :=
  ∀ (s : State) (rest : List Input), s.busy = false →
    (s.inputs = .host (.regRead 2) :: rest →
      step s = .next { s with inputs := rest, events := .regRead 2 s.len :: s.events }) ∧
    (s.inputs = .host (.regRead 3) :: rest →
      step s = .next { s with inputs := rest, events := .regRead 3 (BitVec.ofNat 32 s.sr.toNat) :: s.events }) ∧
    (∀ k : Fin 8, s.inputs = .host (.regRead (8 + k.val)) :: rest →
      step s = .next { s with
        inputs := rest, events := .regRead (8 + k.val) (BitVec.ofInt 32 s.cv[k].toInt) :: s.events })

/-- R37: while BUSY is 1 host writes change nothing and record no error, STATUS is read exactly, and a read of any
other register or of SB returns some value of its type and changes nothing but the history and the count of free
values; while BUSY is 0 SEQ does nothing. That the value is extended as the table of R25 says is log 23 (DEDUCED); the
count of free values is the model's own field (log 6). -/
def Obligations.BusyRule : Prop :=
  (∀ (s : State) (a : HostAccess) (rest : List Input), s.busy = true → s.inputs = .host a :: rest →
    (∀ n v, a = .regWrite n v → (n ≤ 3 ∨ 8 ≤ n ∧ n ≤ 15) → step s = .next { s with inputs := rest }) ∧
    (∀ j v, a = .sbWrite j v → j < s.params.sbDepth → step s = .next { s with inputs := rest }) ∧
    (a = .regRead 1 → step s = .next { s with inputs := rest, events := .regRead 1 (statusWord s) :: s.events }) ∧
    (a = .regRead 2 → ∃ x : Word, step s = .next { s with
      inputs := rest, events := .regRead 2 x :: s.events, draws := s.draws + 1 }) ∧
    (a = .regRead 3 → ∃ x : Pattern, step s = .next { s with
      inputs := rest, events := .regRead 3 (x.setWidth 32) :: s.events, draws := s.draws + 1 }) ∧
    (∀ k : Fin 8, a = .regRead (8 + k.val) → ∃ x : Slot, step s = .next { s with
      inputs := rest, events := .regRead (8 + k.val) (x.signExtend 32) :: s.events, draws := s.draws + 1 }) ∧
    (∀ j, a = .sbRead j → j < s.params.sbDepth → ∃ x : Sample, step s = .next { s with
      inputs := rest, events := .sbRead j x :: s.events, draws := s.draws + 1 })) ∧
  (∀ s : State, s.busy = false → seqStep s = .next s)

/-- R29, R36 (b): while the block is not busy a host write of SB stores the word at that index and leaves every other
index and register alone; a host read of a word that was written, by HOST or by CAPTURE, whenever that was, returns the
latest write and changes nothing but the history (log 11); a read of a word that nothing has written returns a free
value, drawn anew (log 6). The first clause says the same of a write and the read after it, in two steps. -/
def Obligations.BufferReadReturnsTheLatestWrite : Prop :=
  (∀ (s : State) (j : Nat) (v : Sample) (rest : List Input), s.busy = false → j < s.params.sbDepth →
    s.inputs = .host (.sbWrite j v) :: .host (.sbRead j) :: rest →
    ∃ t, step s = .next t ∧ (∀ l, l ≠ j → Memory.get t.sb l = Memory.get s.sb l) ∧
      step t = .next { t with inputs := rest, events := .sbRead j v :: t.events }) ∧
  (∀ (s : State) (j : Nat) (v : Sample) (rest : List Input), s.busy = false → j < s.params.sbDepth →
    s.inputs = .host (.sbWrite j v) :: rest →
    ∃ m : Memory, step s = .next { s with inputs := rest, sb := m, events := .sbWrite j v :: s.events } ∧
      Memory.get m j = some v ∧ ∀ l, l ≠ j → Memory.get m l = Memory.get s.sb l) ∧
  (∀ (s : State) (j : Nat) (v : Sample) (rest : List Input), s.busy = false → j < s.params.sbDepth →
    Memory.get s.sb j = some v → s.inputs = .host (.sbRead j) :: rest →
    step s = .next { s with inputs := rest, events := .sbRead j v :: s.events }) ∧
  (∀ (s : State) (j : Nat) (rest : List Input), s.busy = false → j < s.params.sbDepth → Memory.get s.sb j = none →
    s.inputs = .host (.sbRead j) :: rest →
    ∃ x : Sample, step s = .next { s with
      inputs := rest, events := .sbRead j x :: s.events, draws := s.draws + 1 })

/-- R52: SETVEC's eight lines load CV with the vector and change nothing else, on a block that is not busy. -/
def Obligations.SetvecLoadsTheVector : Prop :=
  ∀ (s : State) (v : Slots) (rest : List Input), s.busy = false →
    s.inputs = scriptInputs (Pseudo.setVec v).lines ++ rest →
    run 8 s = .next { s with inputs := rest, cv := v }

/-- R51, R24: WAIT gives SEQ the turn while BUSY is 1 and is over when BUSY is 0; an input of the channel sets its three
values and nothing else (log 9, log 22). -/
def Obligations.WaitAndChannelInputs : Prop :=
  (∀ (s : State) (rest : List Input), s.inputs = .hostWait :: rest →
    (s.busy = true → step s = seqStep s ∧ ∀ t, step s = .next t → t.inputs = s.inputs) ∧
    (s.busy = false → step s = .next { s with inputs := rest })) ∧
  (∀ (s : State) (a b : Bool) (v : Sample) (rest : List Input), s.inputs = .chan a v b :: rest →
    step s = .next { s with
      inputs := rest, chan := { rxReady := a, rxData := v, txReady := b, rxNext := s.chan.rxNext } })

/-! ## Reset and invariants -/

/-- R26: the values the spec gives for reset. -/
def Obligations.ResetValues : Prop :=
  State.reset.cv = Vector.replicate 8 0 ∧ State.reset.sr = 0 ∧ State.reset.len = 0 ∧
    statusWord State.reset = 0 ∧ State.reset.isIdle ∧ State.reset.clk = false ∧ State.reset.data = false ∧
    ∀ j, Memory.get State.reset.sb j = none

/-- R90, R91: RESET, whatever the block was doing, gives every element inside the block its reset value, empties SB, and
touches neither the channel nor, when no pulse was cut short, the receiver. That a pulse cut short may still reach the
receiver is R91 (a) as log 12 (DEDUCED) reads it, so the last clause asks for CLK 0; the history's entry is log 11. -/
def Obligations.ResetInputClearsTheBlock : Prop :=
  ∀ (s : State) (rest : List Input), s.inputs = .reset :: rest →
    ∃ t, step s = .next t ∧ t.cv = Vector.replicate 8 0 ∧ t.sr = 0 ∧ t.len = 0 ∧ statusWord t = 0 ∧ t.isIdle ∧
      t.clk = false ∧ t.data = false ∧ (∀ j, Memory.get t.sb j = none) ∧ t.chan = s.chan ∧ t.params = s.params ∧
      t.inputs = rest ∧ t.history = s.history ++ [.reset] ∧ (s.clk = false → t.ledrx = s.ledrx)

/-- The invariant and the two history invariants hold at reset. -/
def Obligations.ResetStateIsSound : Prop :=
  State.reset.Inv ∧ State.reset.pinsRecorded ∧ State.reset.pulsesSound

/-- Every step keeps the invariant: SB canonical and inside its depth, the error bits exclusive and 0 while BUSY
(R27 (d)), SEQ at a place of a legal command's list with a legal latched length (R14, R64), CLK 1 only inside a
pulse and so 0 while BUSY is 0 (R27 (a)). -/
def Obligations.StepKeepsTheInvariant : Prop :=
  ∀ s t : State, s.Inv → step s = .next t → t.Inv

/-- R21, R27 (c): every step keeps the pins equal to what the history of calls made them, and the number of pulses
since reset a multiple of 32 whenever BUSY is 0. -/
def Obligations.StepKeepsPinsAndPulseCount : Prop :=
  ∀ s t : State, step s = .next t →
    (s.pinsRecorded → t.pinsRecorded) ∧ (s.pulsesSound → t.pulsesSound) ∧
    (t.pulsesSound → t.busy = false → pulsesSinceReset t.history % 32 = 0)

/-- R27 (b), R62 (a): in a history made by steps from sound states DATA changes only while CLK is 0, RESET apart. -/
def Obligations.StepKeepsTheHistoryGlitchFree : Prop :=
  ∀ s t : State, s.Inv → s.pinsRecorded → glitchFree (false, false) s.history = true → step s = .next t →
    glitchFree (false, false) t.history = true

/-- R8: no step changes the open parameters. -/
def Obligations.StepKeepsTheParameters : Prop :=
  ∀ s t : State, step s = .next t → t.params = s.params

/-! ## Micro-operations -/

/-- R54 to R61, R66, R67, R70: the whole next state of a turn of SEQ at each micro-operation but the two waits
(`WaitsHoldUntilReady`), from any state in which SEQ executes a command; `q` is the position after the turn.
First LEDU: the slots of CV and TV, the packing of SR, the pins, and the receiver (R23) at either sampling edge.
Then STRU and MIXU: a take hands over CHAN's value, and what CHAN offers next is log 10; an SB access has an index inside
SB, and a word never written loads a free value (log 6); the mixer's stages; a put hands over 0, MA or MY. -/
def Obligations.MicroOperationsHaveTheirEffects : Prop :=
  (∀ (s : State) (i : Instr) (q : Seq), s.seq.op = some i → q = Seq.advance i s.seq →
    (∀ k, s.nextMicro = some (.led (.cvClear k)) →
      seqStep s = .next { s with cv := s.cv.set k.val 0 k.isLt, seq := q }) ∧
    (s.nextMicro = some (.led .cvAdvance) →
      (∀ k : Fin 8, s.cv[k] = 0 → (∀ j : Fin 8, j < k → s.cv[j] ≠ 0) →
        seqStep s = .next { s with cv := s.cv.set k.val 1 k.isLt, seq := q }) ∧
      ((∀ k : Fin 8, s.cv[k] ≠ 0) → seqStep s = .next { s with seq := q })) ∧
    (s.nextMicro = some (.led .srClear) → seqStep s = .next { s with sr := 0, seq := q }) ∧
    (∀ k, s.nextMicro = some (.led (.packCv k)) →
      seqStep s = .next { s with sr := BitVec.ofInt 16 (4 * s.sr.toNat + clamp s.cv[k].toInt), seq := q }) ∧
    (∀ k, s.nextMicro = some (.led (.tvClear k)) →
      seqStep s = .next { s with hid := { s.hid with tv := s.hid.tv.set k.val 0 k.isLt }, seq := q }) ∧
    (∀ ledIndex color, s.nextMicro = some (.led (.tvSet ledIndex color)) →
      (∀ k : Fin 8, ledIndex = k.val → 0 ≤ color → color < 4 →
        seqStep s = .next { s with
          hid := { s.hid with tv := s.hid.tv.set k.val (BitVec.ofInt 8 color) k.isLt }, seq := q }) ∧
      (¬(0 ≤ ledIndex ∧ ledIndex < 8 ∧ 0 ≤ color ∧ color < 4) → seqStep s = .next { s with seq := q })) ∧
    (∀ k, s.nextMicro = some (.led (.packTv k)) →
      seqStep s = .next { s with sr := BitVec.ofInt 16 (4 * s.sr.toNat + clamp s.hid.tv[k].toInt), seq := q }) ∧
    (∀ a, s.nextMicro = some (.led (.dataSet a)) →
      seqStep s = .next { s with data := a, events := .dataSet a :: s.events, seq := q }) ∧
    (s.nextMicro = some (.led .dataSetSr) →
      seqStep s = .next { s with
        data := s.sr.getLsbD 15, events := .dataSet (s.sr.getLsbD 15) :: s.events, seq := q }) ∧
    (∀ a, s.nextMicro = some (.led (.clkSet a)) →
      seqStep s = .next { s with
        clk := a
        ledrx := if (s.params.rxEdge = .assert ∧ s.clk = false ∧ a = true) ∨
            (s.params.rxEdge = .release ∧ s.clk = true ∧ a = false)
          then BitVec.ofNat 16 (2 * s.ledrx.toNat + s.data.toNat) else s.ledrx
        events := .clkSet a :: s.events
        seq := q }) ∧
    (s.nextMicro = some (.led .srShift) →
      seqStep s = .next { s with sr := BitVec.ofNat 16 (2 * s.sr.toNat), seq := q })) ∧
  (∀ (s : State) (i : Instr) (q : Seq) (v : Sample), s.seq.op = some i → q = Seq.advance i s.seq →
    (s.nextMicro = some .rxTakeA → s.chan.rxData = v →
      (∀ x r, s.chan.rxNext = x :: r → seqStep s = .next { s with
        hid := { s.hid with rxa := v }, chan := { s.chan with rxData := x, rxNext := r }
        events := .rxTake v :: s.events, seq := q }) ∧
      (s.chan.rxNext = [] → ∃ x, seqStep s = .next { s with
        hid := { s.hid with rxa := v }, chan := { s.chan with rxData := x }
        events := .rxTake v :: s.events, draws := s.draws + 1, seq := q })) ∧
    (s.nextMicro = some .rxTakeB → s.chan.rxData = v →
      (∀ x r, s.chan.rxNext = x :: r → seqStep s = .next { s with
        hid := { s.hid with rxb := v }, chan := { s.chan with rxData := x, rxNext := r }
        events := .rxTake v :: s.events, seq := q }) ∧
      (s.chan.rxNext = [] → ∃ x, seqStep s = .next { s with
        hid := { s.hid with rxb := v }, chan := { s.chan with rxData := x }
        events := .rxTake v :: s.events, draws := s.draws + 1, seq := q })) ∧
    (∀ j, s.nextMicro = some (.storeA j) → j < s.params.sbDepth → ∃ m : Memory,
      seqStep s = .next { s with sb := m, events := .memWrite j s.hid.rxa :: s.events, seq := q } ∧
      Memory.get m j = some s.hid.rxa ∧ ∀ l, l ≠ j → Memory.get m l = Memory.get s.sb l) ∧
    (∀ j, s.nextMicro = some (.loadMa j) → j < s.params.sbDepth →
      (Memory.get s.sb j = some v → seqStep s = .next { s with
        hid := { s.hid with ma := v }, events := .memRead j v :: s.events, seq := q }) ∧
      (Memory.get s.sb j = none → ∃ x, seqStep s = .next { s with
        hid := { s.hid with ma := x }, events := .memRead j x :: s.events, draws := s.draws + 1, seq := q })) ∧
    (∀ j, s.nextMicro = some (.loadMb j) → j < s.params.sbDepth →
      (Memory.get s.sb j = some v → seqStep s = .next { s with
        hid := { s.hid with mb := v }, events := .memRead j v :: s.events, seq := q }) ∧
      (Memory.get s.sb j = none → ∃ x, seqStep s = .next { s with
        hid := { s.hid with mb := x }, events := .memRead j x :: s.events, draws := s.draws + 1, seq := q })) ∧
    (s.nextMicro = some .mixMp → seqStep s = .next { s with
      hid := { s.hid with mp := BitVec.ofInt 18 (4 * s.hid.mb.toInt) }, seq := q }) ∧
    (s.nextMicro = some .mixMq → seqStep s = .next { s with
      hid := { s.hid with mq := BitVec.ofInt 16 (tdiv s.hid.mp.toInt 5) }, seq := q }) ∧
    (s.nextMicro = some .mixMy → seqStep s = .next { s with
      hid := { s.hid with my := s.hid.ma + s.hid.mq }, seq := q }) ∧
    (s.nextMicro = some (.txPut .zero) → seqStep s = .next { s with events := .txPut 0 :: s.events, seq := q }) ∧
    (s.nextMicro = some (.txPut .ma) → seqStep s = .next { s with events := .txPut s.hid.ma :: s.events, seq := q }) ∧
    (s.nextMicro = some (.txPut .my) → seqStep s = .next { s with events := .txPut s.hid.my :: s.events, seq := q }))
end

