-- ==== Sys2Proof/Laws/State.lean ====
section
/-! SUPPORT. One lemma for each field of State under each named update, and what the derived views see of an
update. With them no proof unfolds a record update. -/

namespace Sys2Proof.Machine

open Sys2Proof

variable (s : State)

/-! ## setCv -/

@[simp] theorem State.setCv_cv (v : Slots) : (s.setCv v).cv = v := rfl
@[simp] theorem State.setCv_sr (v : Slots) : (s.setCv v).sr = s.sr := rfl
@[simp] theorem State.setCv_len (v : Slots) : (s.setCv v).len = s.len := rfl
@[simp] theorem State.setCv_cfgErr (v : Slots) : (s.setCv v).cfgErr = s.cfgErr := rfl
@[simp] theorem State.setCv_illCmd (v : Slots) : (s.setCv v).illCmd = s.illCmd := rfl
@[simp] theorem State.setCv_seq (v : Slots) : (s.setCv v).seq = s.seq := rfl
@[simp] theorem State.setCv_clk (v : Slots) : (s.setCv v).clk = s.clk := rfl
@[simp] theorem State.setCv_data (v : Slots) : (s.setCv v).data = s.data := rfl
@[simp] theorem State.setCv_hid (v : Slots) : (s.setCv v).hid = s.hid := rfl
@[simp] theorem State.setCv_sb (v : Slots) : (s.setCv v).sb = s.sb := rfl
@[simp] theorem State.setCv_ledrx (v : Slots) : (s.setCv v).ledrx = s.ledrx := rfl
@[simp] theorem State.setCv_chan (v : Slots) : (s.setCv v).chan = s.chan := rfl
@[simp] theorem State.setCv_params (v : Slots) : (s.setCv v).params = s.params := rfl
@[simp] theorem State.setCv_inputs (v : Slots) : (s.setCv v).inputs = s.inputs := rfl
@[simp] theorem State.setCv_events (v : Slots) : (s.setCv v).events = s.events := rfl
@[simp] theorem State.setCv_draws (v : Slots) : (s.setCv v).draws = s.draws := rfl
@[simp] theorem State.setCv_busy (v : Slots) : (s.setCv v).busy = s.busy := rfl
@[simp] theorem State.setCv_takenMicros (v : Slots) : (s.setCv v).takenMicros = s.takenMicros := rfl
@[simp] theorem State.setCv_history (v : Slots) : (s.setCv v).history = s.history := rfl
@[simp] theorem State.setCv_drawnSample (v : Slots) : (s.setCv v).drawnSample = s.drawnSample := rfl

/-! ## setSr -/

@[simp] theorem State.setSr_cv (v : Pattern) : (s.setSr v).cv = s.cv := rfl
@[simp] theorem State.setSr_sr (v : Pattern) : (s.setSr v).sr = v := rfl
@[simp] theorem State.setSr_len (v : Pattern) : (s.setSr v).len = s.len := rfl
@[simp] theorem State.setSr_cfgErr (v : Pattern) : (s.setSr v).cfgErr = s.cfgErr := rfl
@[simp] theorem State.setSr_illCmd (v : Pattern) : (s.setSr v).illCmd = s.illCmd := rfl
@[simp] theorem State.setSr_seq (v : Pattern) : (s.setSr v).seq = s.seq := rfl
@[simp] theorem State.setSr_clk (v : Pattern) : (s.setSr v).clk = s.clk := rfl
@[simp] theorem State.setSr_data (v : Pattern) : (s.setSr v).data = s.data := rfl
@[simp] theorem State.setSr_hid (v : Pattern) : (s.setSr v).hid = s.hid := rfl
@[simp] theorem State.setSr_sb (v : Pattern) : (s.setSr v).sb = s.sb := rfl
@[simp] theorem State.setSr_ledrx (v : Pattern) : (s.setSr v).ledrx = s.ledrx := rfl
@[simp] theorem State.setSr_chan (v : Pattern) : (s.setSr v).chan = s.chan := rfl
@[simp] theorem State.setSr_params (v : Pattern) : (s.setSr v).params = s.params := rfl
@[simp] theorem State.setSr_inputs (v : Pattern) : (s.setSr v).inputs = s.inputs := rfl
@[simp] theorem State.setSr_events (v : Pattern) : (s.setSr v).events = s.events := rfl
@[simp] theorem State.setSr_draws (v : Pattern) : (s.setSr v).draws = s.draws := rfl
@[simp] theorem State.setSr_busy (v : Pattern) : (s.setSr v).busy = s.busy := rfl
@[simp] theorem State.setSr_takenMicros (v : Pattern) : (s.setSr v).takenMicros = s.takenMicros := rfl
@[simp] theorem State.setSr_history (v : Pattern) : (s.setSr v).history = s.history := rfl
@[simp] theorem State.setSr_drawnSample (v : Pattern) : (s.setSr v).drawnSample = s.drawnSample := rfl

/-! ## setLen -/

@[simp] theorem State.setLen_cv (v : Word) : (s.setLen v).cv = s.cv := rfl
@[simp] theorem State.setLen_sr (v : Word) : (s.setLen v).sr = s.sr := rfl
@[simp] theorem State.setLen_len (v : Word) : (s.setLen v).len = v := rfl
@[simp] theorem State.setLen_cfgErr (v : Word) : (s.setLen v).cfgErr = s.cfgErr := rfl
@[simp] theorem State.setLen_illCmd (v : Word) : (s.setLen v).illCmd = s.illCmd := rfl
@[simp] theorem State.setLen_seq (v : Word) : (s.setLen v).seq = s.seq := rfl
@[simp] theorem State.setLen_clk (v : Word) : (s.setLen v).clk = s.clk := rfl
@[simp] theorem State.setLen_data (v : Word) : (s.setLen v).data = s.data := rfl
@[simp] theorem State.setLen_hid (v : Word) : (s.setLen v).hid = s.hid := rfl
@[simp] theorem State.setLen_sb (v : Word) : (s.setLen v).sb = s.sb := rfl
@[simp] theorem State.setLen_ledrx (v : Word) : (s.setLen v).ledrx = s.ledrx := rfl
@[simp] theorem State.setLen_chan (v : Word) : (s.setLen v).chan = s.chan := rfl
@[simp] theorem State.setLen_params (v : Word) : (s.setLen v).params = s.params := rfl
@[simp] theorem State.setLen_inputs (v : Word) : (s.setLen v).inputs = s.inputs := rfl
@[simp] theorem State.setLen_events (v : Word) : (s.setLen v).events = s.events := rfl
@[simp] theorem State.setLen_draws (v : Word) : (s.setLen v).draws = s.draws := rfl
@[simp] theorem State.setLen_busy (v : Word) : (s.setLen v).busy = s.busy := rfl
@[simp] theorem State.setLen_takenMicros (v : Word) : (s.setLen v).takenMicros = s.takenMicros := rfl
@[simp] theorem State.setLen_history (v : Word) : (s.setLen v).history = s.history := rfl
@[simp] theorem State.setLen_drawnSample (v : Word) : (s.setLen v).drawnSample = s.drawnSample := rfl

/-! ## setErr -/

@[simp] theorem State.setErr_cv (c i : Bool) : (s.setErr c i).cv = s.cv := rfl
@[simp] theorem State.setErr_sr (c i : Bool) : (s.setErr c i).sr = s.sr := rfl
@[simp] theorem State.setErr_len (c i : Bool) : (s.setErr c i).len = s.len := rfl
@[simp] theorem State.setErr_cfgErr (c i : Bool) : (s.setErr c i).cfgErr = c := rfl
@[simp] theorem State.setErr_illCmd (c i : Bool) : (s.setErr c i).illCmd = i := rfl
@[simp] theorem State.setErr_seq (c i : Bool) : (s.setErr c i).seq = s.seq := rfl
@[simp] theorem State.setErr_clk (c i : Bool) : (s.setErr c i).clk = s.clk := rfl
@[simp] theorem State.setErr_data (c i : Bool) : (s.setErr c i).data = s.data := rfl
@[simp] theorem State.setErr_hid (c i : Bool) : (s.setErr c i).hid = s.hid := rfl
@[simp] theorem State.setErr_sb (c i : Bool) : (s.setErr c i).sb = s.sb := rfl
@[simp] theorem State.setErr_ledrx (c i : Bool) : (s.setErr c i).ledrx = s.ledrx := rfl
@[simp] theorem State.setErr_chan (c i : Bool) : (s.setErr c i).chan = s.chan := rfl
@[simp] theorem State.setErr_params (c i : Bool) : (s.setErr c i).params = s.params := rfl
@[simp] theorem State.setErr_inputs (c i : Bool) : (s.setErr c i).inputs = s.inputs := rfl
@[simp] theorem State.setErr_events (c i : Bool) : (s.setErr c i).events = s.events := rfl
@[simp] theorem State.setErr_draws (c i : Bool) : (s.setErr c i).draws = s.draws := rfl
@[simp] theorem State.setErr_busy (c i : Bool) : (s.setErr c i).busy = s.busy := rfl
@[simp] theorem State.setErr_takenMicros (c i : Bool) : (s.setErr c i).takenMicros = s.takenMicros := rfl
@[simp] theorem State.setErr_history (c i : Bool) : (s.setErr c i).history = s.history := rfl
@[simp] theorem State.setErr_drawnSample (c i : Bool) : (s.setErr c i).drawnSample = s.drawnSample := rfl

/-! ## setSeq -/

@[simp] theorem State.setSeq_cv (q : Seq) : (s.setSeq q).cv = s.cv := rfl
@[simp] theorem State.setSeq_sr (q : Seq) : (s.setSeq q).sr = s.sr := rfl
@[simp] theorem State.setSeq_len (q : Seq) : (s.setSeq q).len = s.len := rfl
@[simp] theorem State.setSeq_cfgErr (q : Seq) : (s.setSeq q).cfgErr = s.cfgErr := rfl
@[simp] theorem State.setSeq_illCmd (q : Seq) : (s.setSeq q).illCmd = s.illCmd := rfl
@[simp] theorem State.setSeq_seq (q : Seq) : (s.setSeq q).seq = q := rfl
@[simp] theorem State.setSeq_clk (q : Seq) : (s.setSeq q).clk = s.clk := rfl
@[simp] theorem State.setSeq_data (q : Seq) : (s.setSeq q).data = s.data := rfl
@[simp] theorem State.setSeq_hid (q : Seq) : (s.setSeq q).hid = s.hid := rfl
@[simp] theorem State.setSeq_sb (q : Seq) : (s.setSeq q).sb = s.sb := rfl
@[simp] theorem State.setSeq_ledrx (q : Seq) : (s.setSeq q).ledrx = s.ledrx := rfl
@[simp] theorem State.setSeq_chan (q : Seq) : (s.setSeq q).chan = s.chan := rfl
@[simp] theorem State.setSeq_params (q : Seq) : (s.setSeq q).params = s.params := rfl
@[simp] theorem State.setSeq_inputs (q : Seq) : (s.setSeq q).inputs = s.inputs := rfl
@[simp] theorem State.setSeq_events (q : Seq) : (s.setSeq q).events = s.events := rfl
@[simp] theorem State.setSeq_draws (q : Seq) : (s.setSeq q).draws = s.draws := rfl
@[simp] theorem State.setSeq_busy (q : Seq) : (s.setSeq q).busy = q.op.isSome := rfl
@[simp] theorem State.setSeq_history (q : Seq) : (s.setSeq q).history = s.history := rfl
@[simp] theorem State.setSeq_drawnSample (q : Seq) : (s.setSeq q).drawnSample = s.drawnSample := rfl

/-! ## setClk -/

@[simp] theorem State.setClk_cv (a : Bool) : (s.setClk a).cv = s.cv := rfl
@[simp] theorem State.setClk_sr (a : Bool) : (s.setClk a).sr = s.sr := rfl
@[simp] theorem State.setClk_len (a : Bool) : (s.setClk a).len = s.len := rfl
@[simp] theorem State.setClk_cfgErr (a : Bool) : (s.setClk a).cfgErr = s.cfgErr := rfl
@[simp] theorem State.setClk_illCmd (a : Bool) : (s.setClk a).illCmd = s.illCmd := rfl
@[simp] theorem State.setClk_seq (a : Bool) : (s.setClk a).seq = s.seq := rfl
@[simp] theorem State.setClk_clk (a : Bool) : (s.setClk a).clk = a := rfl
@[simp] theorem State.setClk_data (a : Bool) : (s.setClk a).data = s.data := rfl
@[simp] theorem State.setClk_hid (a : Bool) : (s.setClk a).hid = s.hid := rfl
@[simp] theorem State.setClk_sb (a : Bool) : (s.setClk a).sb = s.sb := rfl
@[simp] theorem State.setClk_ledrx (a : Bool) : (s.setClk a).ledrx = s.ledrx := rfl
@[simp] theorem State.setClk_chan (a : Bool) : (s.setClk a).chan = s.chan := rfl
@[simp] theorem State.setClk_params (a : Bool) : (s.setClk a).params = s.params := rfl
@[simp] theorem State.setClk_inputs (a : Bool) : (s.setClk a).inputs = s.inputs := rfl
@[simp] theorem State.setClk_events (a : Bool) : (s.setClk a).events = s.events := rfl
@[simp] theorem State.setClk_draws (a : Bool) : (s.setClk a).draws = s.draws := rfl
@[simp] theorem State.setClk_busy (a : Bool) : (s.setClk a).busy = s.busy := rfl
@[simp] theorem State.setClk_takenMicros (a : Bool) : (s.setClk a).takenMicros = s.takenMicros := rfl
@[simp] theorem State.setClk_history (a : Bool) : (s.setClk a).history = s.history := rfl
@[simp] theorem State.setClk_drawnSample (a : Bool) : (s.setClk a).drawnSample = s.drawnSample := rfl

/-! ## setData -/

@[simp] theorem State.setData_cv (a : Bool) : (s.setData a).cv = s.cv := rfl
@[simp] theorem State.setData_sr (a : Bool) : (s.setData a).sr = s.sr := rfl
@[simp] theorem State.setData_len (a : Bool) : (s.setData a).len = s.len := rfl
@[simp] theorem State.setData_cfgErr (a : Bool) : (s.setData a).cfgErr = s.cfgErr := rfl
@[simp] theorem State.setData_illCmd (a : Bool) : (s.setData a).illCmd = s.illCmd := rfl
@[simp] theorem State.setData_seq (a : Bool) : (s.setData a).seq = s.seq := rfl
@[simp] theorem State.setData_clk (a : Bool) : (s.setData a).clk = s.clk := rfl
@[simp] theorem State.setData_data (a : Bool) : (s.setData a).data = a := rfl
@[simp] theorem State.setData_hid (a : Bool) : (s.setData a).hid = s.hid := rfl
@[simp] theorem State.setData_sb (a : Bool) : (s.setData a).sb = s.sb := rfl
@[simp] theorem State.setData_ledrx (a : Bool) : (s.setData a).ledrx = s.ledrx := rfl
@[simp] theorem State.setData_chan (a : Bool) : (s.setData a).chan = s.chan := rfl
@[simp] theorem State.setData_params (a : Bool) : (s.setData a).params = s.params := rfl
@[simp] theorem State.setData_inputs (a : Bool) : (s.setData a).inputs = s.inputs := rfl
@[simp] theorem State.setData_events (a : Bool) : (s.setData a).events = s.events := rfl
@[simp] theorem State.setData_draws (a : Bool) : (s.setData a).draws = s.draws := rfl
@[simp] theorem State.setData_busy (a : Bool) : (s.setData a).busy = s.busy := rfl
@[simp] theorem State.setData_takenMicros (a : Bool) : (s.setData a).takenMicros = s.takenMicros := rfl
@[simp] theorem State.setData_history (a : Bool) : (s.setData a).history = s.history := rfl
@[simp] theorem State.setData_drawnSample (a : Bool) : (s.setData a).drawnSample = s.drawnSample := rfl

/-! ## setHid -/

@[simp] theorem State.setHid_cv (h : Hidden) : (s.setHid h).cv = s.cv := rfl
@[simp] theorem State.setHid_sr (h : Hidden) : (s.setHid h).sr = s.sr := rfl
@[simp] theorem State.setHid_len (h : Hidden) : (s.setHid h).len = s.len := rfl
@[simp] theorem State.setHid_cfgErr (h : Hidden) : (s.setHid h).cfgErr = s.cfgErr := rfl
@[simp] theorem State.setHid_illCmd (h : Hidden) : (s.setHid h).illCmd = s.illCmd := rfl
@[simp] theorem State.setHid_seq (h : Hidden) : (s.setHid h).seq = s.seq := rfl
@[simp] theorem State.setHid_clk (h : Hidden) : (s.setHid h).clk = s.clk := rfl
@[simp] theorem State.setHid_data (h : Hidden) : (s.setHid h).data = s.data := rfl
@[simp] theorem State.setHid_hid (h : Hidden) : (s.setHid h).hid = h := rfl
@[simp] theorem State.setHid_sb (h : Hidden) : (s.setHid h).sb = s.sb := rfl
@[simp] theorem State.setHid_ledrx (h : Hidden) : (s.setHid h).ledrx = s.ledrx := rfl
@[simp] theorem State.setHid_chan (h : Hidden) : (s.setHid h).chan = s.chan := rfl
@[simp] theorem State.setHid_params (h : Hidden) : (s.setHid h).params = s.params := rfl
@[simp] theorem State.setHid_inputs (h : Hidden) : (s.setHid h).inputs = s.inputs := rfl
@[simp] theorem State.setHid_events (h : Hidden) : (s.setHid h).events = s.events := rfl
@[simp] theorem State.setHid_draws (h : Hidden) : (s.setHid h).draws = s.draws := rfl
@[simp] theorem State.setHid_busy (h : Hidden) : (s.setHid h).busy = s.busy := rfl
@[simp] theorem State.setHid_takenMicros (h : Hidden) : (s.setHid h).takenMicros = s.takenMicros := rfl
@[simp] theorem State.setHid_history (h : Hidden) : (s.setHid h).history = s.history := rfl
@[simp] theorem State.setHid_drawnSample (h : Hidden) : (s.setHid h).drawnSample = s.drawnSample := rfl

/-! ## setSb -/

@[simp] theorem State.setSb_cv (m : Memory) : (s.setSb m).cv = s.cv := rfl
@[simp] theorem State.setSb_sr (m : Memory) : (s.setSb m).sr = s.sr := rfl
@[simp] theorem State.setSb_len (m : Memory) : (s.setSb m).len = s.len := rfl
@[simp] theorem State.setSb_cfgErr (m : Memory) : (s.setSb m).cfgErr = s.cfgErr := rfl
@[simp] theorem State.setSb_illCmd (m : Memory) : (s.setSb m).illCmd = s.illCmd := rfl
@[simp] theorem State.setSb_seq (m : Memory) : (s.setSb m).seq = s.seq := rfl
@[simp] theorem State.setSb_clk (m : Memory) : (s.setSb m).clk = s.clk := rfl
@[simp] theorem State.setSb_data (m : Memory) : (s.setSb m).data = s.data := rfl
@[simp] theorem State.setSb_hid (m : Memory) : (s.setSb m).hid = s.hid := rfl
@[simp] theorem State.setSb_sb (m : Memory) : (s.setSb m).sb = m := rfl
@[simp] theorem State.setSb_ledrx (m : Memory) : (s.setSb m).ledrx = s.ledrx := rfl
@[simp] theorem State.setSb_chan (m : Memory) : (s.setSb m).chan = s.chan := rfl
@[simp] theorem State.setSb_params (m : Memory) : (s.setSb m).params = s.params := rfl
@[simp] theorem State.setSb_inputs (m : Memory) : (s.setSb m).inputs = s.inputs := rfl
@[simp] theorem State.setSb_events (m : Memory) : (s.setSb m).events = s.events := rfl
@[simp] theorem State.setSb_draws (m : Memory) : (s.setSb m).draws = s.draws := rfl
@[simp] theorem State.setSb_busy (m : Memory) : (s.setSb m).busy = s.busy := rfl
@[simp] theorem State.setSb_takenMicros (m : Memory) : (s.setSb m).takenMicros = s.takenMicros := rfl
@[simp] theorem State.setSb_history (m : Memory) : (s.setSb m).history = s.history := rfl
@[simp] theorem State.setSb_drawnSample (m : Memory) : (s.setSb m).drawnSample = s.drawnSample := rfl

/-! ## setLedrx -/

@[simp] theorem State.setLedrx_cv (r : Pattern) : (s.setLedrx r).cv = s.cv := rfl
@[simp] theorem State.setLedrx_sr (r : Pattern) : (s.setLedrx r).sr = s.sr := rfl
@[simp] theorem State.setLedrx_len (r : Pattern) : (s.setLedrx r).len = s.len := rfl
@[simp] theorem State.setLedrx_cfgErr (r : Pattern) : (s.setLedrx r).cfgErr = s.cfgErr := rfl
@[simp] theorem State.setLedrx_illCmd (r : Pattern) : (s.setLedrx r).illCmd = s.illCmd := rfl
@[simp] theorem State.setLedrx_seq (r : Pattern) : (s.setLedrx r).seq = s.seq := rfl
@[simp] theorem State.setLedrx_clk (r : Pattern) : (s.setLedrx r).clk = s.clk := rfl
@[simp] theorem State.setLedrx_data (r : Pattern) : (s.setLedrx r).data = s.data := rfl
@[simp] theorem State.setLedrx_hid (r : Pattern) : (s.setLedrx r).hid = s.hid := rfl
@[simp] theorem State.setLedrx_sb (r : Pattern) : (s.setLedrx r).sb = s.sb := rfl
@[simp] theorem State.setLedrx_ledrx (r : Pattern) : (s.setLedrx r).ledrx = r := rfl
@[simp] theorem State.setLedrx_chan (r : Pattern) : (s.setLedrx r).chan = s.chan := rfl
@[simp] theorem State.setLedrx_params (r : Pattern) : (s.setLedrx r).params = s.params := rfl
@[simp] theorem State.setLedrx_inputs (r : Pattern) : (s.setLedrx r).inputs = s.inputs := rfl
@[simp] theorem State.setLedrx_events (r : Pattern) : (s.setLedrx r).events = s.events := rfl
@[simp] theorem State.setLedrx_draws (r : Pattern) : (s.setLedrx r).draws = s.draws := rfl
@[simp] theorem State.setLedrx_busy (r : Pattern) : (s.setLedrx r).busy = s.busy := rfl
@[simp] theorem State.setLedrx_takenMicros (r : Pattern) : (s.setLedrx r).takenMicros = s.takenMicros := rfl
@[simp] theorem State.setLedrx_history (r : Pattern) : (s.setLedrx r).history = s.history := rfl
@[simp] theorem State.setLedrx_drawnSample (r : Pattern) : (s.setLedrx r).drawnSample = s.drawnSample := rfl

/-! ## setChan -/

@[simp] theorem State.setChan_cv (c : Chan) : (s.setChan c).cv = s.cv := rfl
@[simp] theorem State.setChan_sr (c : Chan) : (s.setChan c).sr = s.sr := rfl
@[simp] theorem State.setChan_len (c : Chan) : (s.setChan c).len = s.len := rfl
@[simp] theorem State.setChan_cfgErr (c : Chan) : (s.setChan c).cfgErr = s.cfgErr := rfl
@[simp] theorem State.setChan_illCmd (c : Chan) : (s.setChan c).illCmd = s.illCmd := rfl
@[simp] theorem State.setChan_seq (c : Chan) : (s.setChan c).seq = s.seq := rfl
@[simp] theorem State.setChan_clk (c : Chan) : (s.setChan c).clk = s.clk := rfl
@[simp] theorem State.setChan_data (c : Chan) : (s.setChan c).data = s.data := rfl
@[simp] theorem State.setChan_hid (c : Chan) : (s.setChan c).hid = s.hid := rfl
@[simp] theorem State.setChan_sb (c : Chan) : (s.setChan c).sb = s.sb := rfl
@[simp] theorem State.setChan_ledrx (c : Chan) : (s.setChan c).ledrx = s.ledrx := rfl
@[simp] theorem State.setChan_chan (c : Chan) : (s.setChan c).chan = c := rfl
@[simp] theorem State.setChan_params (c : Chan) : (s.setChan c).params = s.params := rfl
@[simp] theorem State.setChan_inputs (c : Chan) : (s.setChan c).inputs = s.inputs := rfl
@[simp] theorem State.setChan_events (c : Chan) : (s.setChan c).events = s.events := rfl
@[simp] theorem State.setChan_draws (c : Chan) : (s.setChan c).draws = s.draws := rfl
@[simp] theorem State.setChan_busy (c : Chan) : (s.setChan c).busy = s.busy := rfl
@[simp] theorem State.setChan_takenMicros (c : Chan) : (s.setChan c).takenMicros = s.takenMicros := rfl
@[simp] theorem State.setChan_history (c : Chan) : (s.setChan c).history = s.history := rfl
@[simp] theorem State.setChan_drawnSample (c : Chan) : (s.setChan c).drawnSample = s.drawnSample := rfl

/-! ## setInputs -/

@[simp] theorem State.setInputs_cv (l : List Input) : (s.setInputs l).cv = s.cv := rfl
@[simp] theorem State.setInputs_sr (l : List Input) : (s.setInputs l).sr = s.sr := rfl
@[simp] theorem State.setInputs_len (l : List Input) : (s.setInputs l).len = s.len := rfl
@[simp] theorem State.setInputs_cfgErr (l : List Input) : (s.setInputs l).cfgErr = s.cfgErr := rfl
@[simp] theorem State.setInputs_illCmd (l : List Input) : (s.setInputs l).illCmd = s.illCmd := rfl
@[simp] theorem State.setInputs_seq (l : List Input) : (s.setInputs l).seq = s.seq := rfl
@[simp] theorem State.setInputs_clk (l : List Input) : (s.setInputs l).clk = s.clk := rfl
@[simp] theorem State.setInputs_data (l : List Input) : (s.setInputs l).data = s.data := rfl
@[simp] theorem State.setInputs_hid (l : List Input) : (s.setInputs l).hid = s.hid := rfl
@[simp] theorem State.setInputs_sb (l : List Input) : (s.setInputs l).sb = s.sb := rfl
@[simp] theorem State.setInputs_ledrx (l : List Input) : (s.setInputs l).ledrx = s.ledrx := rfl
@[simp] theorem State.setInputs_chan (l : List Input) : (s.setInputs l).chan = s.chan := rfl
@[simp] theorem State.setInputs_params (l : List Input) : (s.setInputs l).params = s.params := rfl
@[simp] theorem State.setInputs_inputs (l : List Input) : (s.setInputs l).inputs = l := rfl
@[simp] theorem State.setInputs_events (l : List Input) : (s.setInputs l).events = s.events := rfl
@[simp] theorem State.setInputs_draws (l : List Input) : (s.setInputs l).draws = s.draws := rfl
@[simp] theorem State.setInputs_busy (l : List Input) : (s.setInputs l).busy = s.busy := rfl
@[simp] theorem State.setInputs_takenMicros (l : List Input) : (s.setInputs l).takenMicros = s.takenMicros := rfl
@[simp] theorem State.setInputs_history (l : List Input) : (s.setInputs l).history = s.history := rfl
@[simp] theorem State.setInputs_drawnSample (l : List Input) : (s.setInputs l).drawnSample = s.drawnSample := rfl

/-! ## emit -/

@[simp] theorem State.emit_cv (e : Event) : (s.emit e).cv = s.cv := rfl
@[simp] theorem State.emit_sr (e : Event) : (s.emit e).sr = s.sr := rfl
@[simp] theorem State.emit_len (e : Event) : (s.emit e).len = s.len := rfl
@[simp] theorem State.emit_cfgErr (e : Event) : (s.emit e).cfgErr = s.cfgErr := rfl
@[simp] theorem State.emit_illCmd (e : Event) : (s.emit e).illCmd = s.illCmd := rfl
@[simp] theorem State.emit_seq (e : Event) : (s.emit e).seq = s.seq := rfl
@[simp] theorem State.emit_clk (e : Event) : (s.emit e).clk = s.clk := rfl
@[simp] theorem State.emit_data (e : Event) : (s.emit e).data = s.data := rfl
@[simp] theorem State.emit_hid (e : Event) : (s.emit e).hid = s.hid := rfl
@[simp] theorem State.emit_sb (e : Event) : (s.emit e).sb = s.sb := rfl
@[simp] theorem State.emit_ledrx (e : Event) : (s.emit e).ledrx = s.ledrx := rfl
@[simp] theorem State.emit_chan (e : Event) : (s.emit e).chan = s.chan := rfl
@[simp] theorem State.emit_params (e : Event) : (s.emit e).params = s.params := rfl
@[simp] theorem State.emit_inputs (e : Event) : (s.emit e).inputs = s.inputs := rfl
@[simp] theorem State.emit_events (e : Event) : (s.emit e).events = e :: s.events := rfl
@[simp] theorem State.emit_draws (e : Event) : (s.emit e).draws = s.draws := rfl
@[simp] theorem State.emit_busy (e : Event) : (s.emit e).busy = s.busy := rfl
@[simp] theorem State.emit_takenMicros (e : Event) : (s.emit e).takenMicros = s.takenMicros := rfl
@[simp] theorem State.emit_history (e : Event) : (s.emit e).history = s.history ++ [e] := by
  simp [State.history]
@[simp] theorem State.emit_drawnSample (e : Event) : (s.emit e).drawnSample = s.drawnSample := rfl

/-! ## bump -/

@[simp] theorem State.bump_cv (n : Nat) : (s.bump n).cv = s.cv := rfl
@[simp] theorem State.bump_sr (n : Nat) : (s.bump n).sr = s.sr := rfl
@[simp] theorem State.bump_len (n : Nat) : (s.bump n).len = s.len := rfl
@[simp] theorem State.bump_cfgErr (n : Nat) : (s.bump n).cfgErr = s.cfgErr := rfl
@[simp] theorem State.bump_illCmd (n : Nat) : (s.bump n).illCmd = s.illCmd := rfl
@[simp] theorem State.bump_seq (n : Nat) : (s.bump n).seq = s.seq := rfl
@[simp] theorem State.bump_clk (n : Nat) : (s.bump n).clk = s.clk := rfl
@[simp] theorem State.bump_data (n : Nat) : (s.bump n).data = s.data := rfl
@[simp] theorem State.bump_hid (n : Nat) : (s.bump n).hid = s.hid := rfl
@[simp] theorem State.bump_sb (n : Nat) : (s.bump n).sb = s.sb := rfl
@[simp] theorem State.bump_ledrx (n : Nat) : (s.bump n).ledrx = s.ledrx := rfl
@[simp] theorem State.bump_chan (n : Nat) : (s.bump n).chan = s.chan := rfl
@[simp] theorem State.bump_params (n : Nat) : (s.bump n).params = s.params := rfl
@[simp] theorem State.bump_inputs (n : Nat) : (s.bump n).inputs = s.inputs := rfl
@[simp] theorem State.bump_events (n : Nat) : (s.bump n).events = s.events := rfl
@[simp] theorem State.bump_draws (n : Nat) : (s.bump n).draws = s.draws + n := rfl
@[simp] theorem State.bump_busy (n : Nat) : (s.bump n).busy = s.busy := rfl
@[simp] theorem State.bump_takenMicros (n : Nat) : (s.bump n).takenMicros = s.takenMicros := rfl
@[simp] theorem State.bump_history (n : Nat) : (s.bump n).history = s.history := rfl

/-! ## Views -/

@[simp] theorem Seq.idle_op : Seq.idle.op = none := rfl
@[simp] theorem Seq.idle_blk : Seq.idle.blk = 0 := rfl
@[simp] theorem Seq.idle_k : Seq.idle.k = 0 := rfl
@[simp] theorem Seq.idle_len : Seq.idle.len = 0 := rfl

/-- An idle block is not busy (R14). -/
theorem State.isIdle.not_busy {s : State} (h : s.isIdle) : s.busy = false := by
  simp [State.busy, h.symm ▸ Seq.idle_op]

/-- In a sound state a block that is not busy is idle (R14). -/
theorem State.seqSound.idle_of_not_busy {s : State} (h : s.seqSound) (hb : s.busy = false) : s.isIdle := by
  have hop : s.seq.op = none := by simpa [State.busy] using hb
  simpa [State.seqSound, State.isIdle, hop] using h

/-- In a state without a command SEQ has taken nothing. -/
theorem State.takenMicros_of_not_busy {s : State} (hb : s.busy = false) : s.takenMicros = [] := by
  have hop : s.seq.op = none := by simpa [State.busy] using hb
  simp [State.takenMicros, hop]

end Sys2Proof.Machine
end

