-- ==== Sys2Proof/Laws/Memory.lean ====
section
/-! SUPPORT. SB: a read after a write, and that every operation keeps the canonical form (spec/20_memory.md R29, R36 (b)). -/

namespace Sys2Proof.Machine

open Sys2Proof

@[simp] theorem Memory.get_nil (j : Nat) : Memory.get [] j = none := rfl

/-- A read at the written index gives the written word. -/
@[simp] theorem Memory.get_put_same (m : Memory) (j : Nat) (v : Sample) : Memory.get (Memory.put m j v) j = some v := by
  induction m with
  | nil => simp [Memory.put, Memory.get]
  | cons p rest ih =>
    obtain ⟨i, x⟩ := p
    simp only [Memory.put]
    split_ifs with h1 h2
    · simp [Memory.get]
    · simp [Memory.get]
    · simpa [Memory.get, h2] using ih

/-- A write leaves every other index alone. -/
theorem Memory.get_put_other (m : Memory) {j l : Nat} (v : Sample) (h : l ≠ j) :
    Memory.get (Memory.put m j v) l = Memory.get m l := by
  induction m with
  | nil => simp [Memory.put, Memory.get, h.symm]
  | cons p rest ih =>
    obtain ⟨i, x⟩ := p
    simp only [Memory.put]
    split_ifs with h1 h2
    · simp [Memory.get, h.symm]
    · subst h2; simp [Memory.get, h.symm]
    · by_cases hi : i = l <;> simp [Memory.get, hi, ih]

/-- A read after a write, at any index. -/
theorem Memory.get_put (m : Memory) (j l : Nat) (v : Sample) :
    Memory.get (Memory.put m j v) l = if l = j then some v else Memory.get m l := by
  by_cases h : l = j
  · subst h; simp
  · simp [h, Memory.get_put_other m v h]

/-- The head of a written list: the old head, or the written index. -/
theorem Memory.put_head (m : Memory) (j : Nat) (v : Sample) :
    ∃ i x rest, Memory.put m j v = (i, x) :: rest ∧ (i = j ∨ ∃ y r, m = (i, y) :: r) := by
  cases m with
  | nil => exact ⟨j, v, [], rfl, .inl rfl⟩
  | cons p r =>
    obtain ⟨i, x⟩ := p
    simp only [Memory.put]
    split_ifs with h1 h2
    · exact ⟨j, v, _, rfl, .inl rfl⟩
    · exact ⟨j, v, r, rfl, .inl rfl⟩
    · exact ⟨i, x, _, rfl, .inr ⟨x, r, rfl⟩⟩

/-- A write keeps the canonical form. -/
theorem Memory.wf_put (m : Memory) (j : Nat) (v : Sample) (h : Memory.wf m = true) :
    Memory.wf (Memory.put m j v) = true := by
  induction m with
  | nil => rfl
  | cons p rest ih =>
    obtain ⟨i, x⟩ := p
    have hr : Memory.wf rest = true := by
      cases rest with
      | nil => rfl
      | cons q r => simp [Memory.wf] at h; exact h.2
    have hlt : ∀ l y r, rest = (l, y) :: r → i < l := by
      intro l y r e; subst e; simp [Memory.wf] at h; exact h.1
    simp only [Memory.put]
    split_ifs with h1 h2
    · simpa [Memory.wf, h1] using h
    · subst h2
      cases rest with
      | nil => rfl
      | cons q r => simpa [Memory.wf] using h
    · obtain ⟨l, y, r, e, hl⟩ := Memory.put_head rest j v
      have hil : i < l := by
        rcases hl with rfl | ⟨z, w, hz⟩
        · omega
        · exact hlt l z w hz
      have := ih hr
      rw [e] at this ⊢
      simp [Memory.wf, hil, this]

/-- What a read does to the state: at most one free value is drawn (R29). -/
theorem State.sbTouch_cases (s : State) (j : Nat) : s.sbTouch j = s ∨ s.sbTouch j = s.bump 1 := by
  unfold State.sbTouch; split <;> simp

/-- A read of a written word returns it (R36 (b)). -/
theorem State.sbValue_written {s : State} {j : Nat} {v : Sample} (h : Memory.get s.sb j = some v) :
    s.sbValue j = v := by simp [State.sbValue, h]

/-- A read of a written word draws nothing. -/
theorem State.sbTouch_written {s : State} {j : Nat} {v : Sample} (h : Memory.get s.sb j = some v) :
    s.sbTouch j = s := by simp [State.sbTouch, h]

/-- A write inside SB keeps SB sound. -/
theorem State.sbSound_put {s : State} {j : Nat} (v : Sample) (h : s.sbSound) (hj : j < s.params.sbDepth) :
    (s.setSb (Memory.put s.sb j v)).sbSound := by
  refine ⟨Memory.wf_put _ _ _ h.1, fun l x hx => ?_⟩
  rw [State.setSb_sb, Memory.get_put] at hx
  split_ifs at hx with hl
  · exact hl ▸ hj
  · exact h.2 l x hx

end Sys2Proof.Machine
end

