-- ==== Sys2Proof/Laws/Link.lean ====
section
/-! SUPPORT. What the micro-operation lists of LEDU do as a whole: the packer, the pulse, the two halves of a
frame and the whole frame (spec/40_led_vector.md R54 to R56, spec/41_led_link.md R58 to R63). -/

namespace Sys2Proof.Machine

open Sys2Proof

@[simp] theorem runLed_nil (s : State) : runLed [] s = s := rfl

@[simp] theorem runLed_cons (m : LedMicro) (ms : List LedMicro) (s : State) :
    runLed (m :: ms) s = runLed ms (ledMicro m s) := rfl

theorem runLed_append (a b : List LedMicro) (s : State) : runLed (a ++ b) s = runLed b (runLed a s) :=
  List.foldl_append

/-! ## The vector operations -/

/-- Eight writes of 0 clear a vector. -/
theorem clear_slots (v : Slots) :
    (((((((((v.set 0 0#8).set 1 0#8).set 2 0#8).set 3 0#8).set 4 0#8).set 5 0#8).set 6 0#8).set 7 0#8) : Slots)
      = Vector.replicate 8 0#8 := by
  ext i hi
  interval_cases i <;> simp

/-- RESETV's micro-operations clear CV and do nothing else (R54). -/
theorem runLed_resetv (s : State) : runLed resetvMicros s = { s with cv := Vector.replicate 8 0 } := by
  simp [resetvMicros, slotIndices, ledMicro, State.setCv, clear_slots]

/-- ADVANCE's micro-operation (R55). -/
theorem runLed_advance (s : State) : runLed advanceMicros s = { s with cv := advanceVector s.cv } := rfl

/-- ENCODE's micro-operations leave the packed vector in SR and do nothing else (R56). -/
theorem runLed_encode (s : State) : runLed encodeMicros s = { s with sr := packVector s.cv } := rfl

/-- SETONE's micro-operations up to the frame: TV holds the vector it builds, SR its pattern (R61). -/
theorem runLed_setonePack (ledIndex color : Int) (s : State) :
    runLed (slotIndices.map .tvClear ++ (.tvSet ledIndex color :: .srClear :: slotIndices.reverse.map .packTv)) s =
      { s with hid := { s.hid with tv := setoneWrite ledIndex color (Vector.replicate 8 0) }
               sr := packVector (setoneWrite ledIndex color (Vector.replicate 8 0)) } := by
  simp [slotIndices, ledMicro, State.setHid, State.setSr, clear_slots, packVector]

/-! ## The link -/

/-- One pulse from a released clock: LEDRX takes DATA in once, on whichever edge it samples (R23, R62 (b)). -/
theorem runLed_pulse {s : State} (h : s.clk = false) :
    runLed pulseMicros s =
      { s with ledrx := ledrxShift s.ledrx s.data, events := pulseEvents.reverse ++ s.events } := by
  cases he : s.params.rxEdge <;>
    simp [pulseMicros, pulseEvents, ledMicro, clkSet, State.ledrxAfterClk, samplesOn, he, h,
      State.setLedrx, State.setClk, State.emit]

@[simp] theorem ledrxShift_false (r : Pattern) : ledrxShift r false = r <<< 1 := by
  simp [ledrxShift]

/-- Pulses with the data line inactive shift LEDRX left (R63, clear sequence). -/
theorem runLed_pulses {s : State} (h : s.clk = false) (hd : s.data = false) (n : Nat) :
    runLed (List.replicate n pulseMicros).flatten s =
      { s with ledrx := s.ledrx <<< n
               events := (List.replicate n pulseEvents).flatten.reverse ++ s.events } := by
  induction n with
  | zero => simp
  | succ n ih =>
    rw [List.replicate_succ', List.flatten_append, runLed_append, ih]
    simp only [List.flatten_cons, List.flatten_nil, List.append_nil]
    rw [runLed_pulse (by exact h)]
    simp [hd, BitVec.shiftLeft_add, List.replicate_succ' (n := n)]

/-- The clear sequence empties LEDRX (R59, R63). -/
theorem runLed_clear {s : State} (h : s.clk = false) :
    runLed clearMicros s =
      { s with data := false, ledrx := 0
               events := (.dataSet false :: (List.replicate 16 pulseEvents).flatten).reverse ++ s.events } := by
  rw [clearMicros, runLed_cons, runLed_pulses (by exact h) rfl]
  simp [Config.clearPulses, ledMicro, dataSet, State.setData, State.emit]

/-- One data bit from a released clock (R59). -/
theorem runLed_dataBit {s : State} (h : s.clk = false) :
    runLed dataBitMicros s =
      { s with sr := s.sr <<< 1, data := s.sr.getLsbD 15
               ledrx := ledrxShift s.ledrx (s.sr.getLsbD 15)
               events := (bitEvents (s.sr.getLsbD 15)).reverse ++ s.events } := by
  rw [dataBitMicros, runLed_cons, runLed_append, runLed_pulse (by exact h)]
  simp [ledMicro, dataSet, State.setData, State.emit, State.setSr, bitEvents, pulseEvents]

/-- LEDRX and SR through the data sequence, bit by bit (R63). -/
theorem ledrxShift_partial (r p : Pattern) (n : Nat) (hn : n < 16) :
    ledrxShift (r <<< n ||| p >>> (16 - n)) (p.getLsbD (15 - n)) = r <<< (n + 1) ||| p >>> (16 - (n + 1)) := by
  ext i hi
  rcases Nat.eq_zero_or_pos i with rfl | hpos
  · simp [ledrxShift, show 16 - (n + 1) = 15 - n by omega]
  · simp only [ledrxShift, BitVec.getElem_or, BitVec.getElem_shiftLeft, BitVec.getElem_ushiftRight]
    have h1 : ¬ i < 1 := by omega
    have h2 : 16 - n + (i - 1) = 16 - (n + 1) + i := by omega
    have h3 : (i - 1 < n) = (i < n + 1) := by simp; omega
    simp [h1, h2, h3, hpos.ne', Nat.sub_sub, Nat.add_comm 1 n]
    

/-- The first `n` bits of the data sequence (R59, R63). -/
theorem runLed_dataBits {s : State} (h : s.clk = false) (n : Nat) (hn : n ≤ 16) :
    runLed (List.replicate n dataBitMicros).flatten s =
      { s with sr := s.sr <<< n
               data := if n = 0 then s.data else s.sr.getLsbD (16 - n)
               ledrx := s.ledrx <<< n ||| s.sr >>> (16 - n)
               events := ((List.range n).flatMap fun m => bitEvents (s.sr.getLsbD (15 - m))).reverse ++ s.events } := by
  induction n with
  | zero =>
    have h0 : s.sr >>> 16 = 0 := by ext i hi; simp
    simp [h0]
  | succ n ih =>
    rw [List.replicate_succ', List.flatten_append, runLed_append, ih (by omega)]
    simp only [List.flatten_cons, List.flatten_nil, List.append_nil]
    rw [runLed_dataBit (by exact h)]
    have hb : (s.sr <<< n).getLsbD 15 = s.sr.getLsbD (15 - n) := by
      have h15 : n ≤ 15 := by omega
      rw [BitVec.getLsbD_shiftLeft]
      simp [h15]
    simp only [hb, ledrxShift_partial _ _ n (by omega)]
    simp [BitVec.shiftLeft_add, List.range_succ]

/-- A whole frame: SR is shifted out, the pins are left at the last bit, LEDRX shows the pattern (R59, R63). -/
theorem runLed_transmit {s : State} (h : s.clk = false) :
    runLed transmitMicros s =
      { s with sr := 0, data := s.sr.getLsbD 0, ledrx := s.sr
               events := (frameEvents s.sr).reverse ++ s.events } := by
  rw [transmitMicros, runLed_append, runLed_clear h, Config.dataPulses, runLed_dataBits (by exact h) 16 (by omega)]
  simp [frameEvents, patternBits, Config.clearPulses, List.flatMap_map]

/-- SETALL's micro-operations (R60). -/
theorem runLed_setall {s : State} (h : s.clk = false) :
    runLed setallMicros s =
      { s with sr := 0, data := (packVector s.cv).getLsbD 0, ledrx := packVector s.cv
               events := (frameEvents (packVector s.cv)).reverse ++ s.events } := by
  rw [setallMicros, runLed_append, runLed_encode, runLed_transmit (by exact h)]

/-- SETONE's micro-operations (R61). -/
theorem runLed_setone (ledIndex color : Int) {s : State} (h : s.clk = false) :
    runLed (setoneMicros ledIndex color) s =
      { s with hid := { s.hid with tv := setoneWrite ledIndex color (Vector.replicate 8 0) }
               sr := 0
               data := (packVector (setoneWrite ledIndex color (Vector.replicate 8 0))).getLsbD 0
               ledrx := packVector (setoneWrite ledIndex color (Vector.replicate 8 0))
               events := (frameEvents (packVector (setoneWrite ledIndex color (Vector.replicate 8 0)))).reverse
                 ++ s.events } := by
  rw [setoneMicros, runLed_append, runLed_setonePack, runLed_transmit (by exact h)]

/-- `ProgressInit()`: CV all OFF and one frame of the pattern 0 (R65). -/
theorem runLed_progressInit {s : State} (h : s.clk = false) :
    runLed progressInit s =
      { s with cv := Vector.replicate 8 0, sr := 0, data := false, ledrx := 0
               events := (frameEvents 0).reverse ++ s.events } := by
  have h0 : packVector (Vector.replicate 8 0#8) = 0#16 := by decide
  rw [progressInit, runLed_append, runLed_resetv, runLed_setall (by exact h)]
  simp [h0]

/-- `ProgressTick()`: one more slot and one frame (R65). -/
theorem runLed_progressTick {s : State} (h : s.clk = false) :
    runLed progressTick s =
      { s with cv := advanceVector s.cv, sr := 0, data := (packVector (advanceVector s.cv)).getLsbD 0
               ledrx := packVector (advanceVector s.cv)
               events := (frameEvents (packVector (advanceVector s.cv))).reverse ++ s.events } := by
  rw [progressTick, runLed_append, runLed_advance, runLed_setall (by exact h)]

end Sys2Proof.Machine
end

