-- ==== Sys2Proof/Laws/Packer.lean ====
section
/-! SUPPORT. The packer, LenOk and the frame as the receiver sees it (spec/30_encoding.md R42, R43, spec/42_stream.md R64). -/

namespace Sys2Proof.Machine

open Sys2Proof

/-- LenOk by its three parts (R64). -/
theorem lenOk_iff (len depth : Nat) : lenOk len depth = true ↔ 8 ≤ len ∧ len % 8 = 0 ∧ len ≤ depth := by
  change (decide (8 ≤ len) && decide (len % 8 = 0) && decide (len ≤ depth)) = true ↔ _
  simp only [Bool.and_eq_true, decide_eq_true_eq, and_assoc]

/-- A stored slot is sent as its clamped value (R42). -/
theorem slotCode_toNat (v : Slot) : ((slotCode v).toNat : Int) = clamp v.toInt := by revert v; decide

/-- One step of the packer, as a number, while it does not overflow (R56). -/
theorem packStep_toNat (p : Pattern) (x : Slot) (hp : p.toNat < 4 ^ 7) :
    (packStep p x).toNat = p.toNat * 4 + (slotCode x).toNat := by
  have hx : (slotCode x).toNat < 4 := (slotCode x).isLt
  unfold packStep
  rw [BitVec.toNat_or, BitVec.toNat_shiftLeft, BitVec.toNat_setWidth,
    Nat.mod_eq_of_lt (by omega : (slotCode x).toNat < 2 ^ 16), Nat.shiftLeft_eq, Nat.mod_eq_of_lt (by omega),
    show p.toNat * 2 ^ 2 = 2 ^ 2 * p.toNat by omega, ← Nat.two_pow_add_eq_or_of_lt (by omega)]
  omega

/-- The packer written out. -/
theorem packVector_unfold (v : Slots) :
    packVector v = packStep (packStep (packStep (packStep (packStep (packStep (packStep (packStep 0
      v[7]) v[6]) v[5]) v[4]) v[3]) v[2]) v[1]) v[0] := rfl

/-- The field of slot `k` of a packed vector is the slot's code (R42). -/
theorem patternSlot_packVector (v : Slots) (k : Fin 8) : patternSlot (packVector v) k = slotCode v[k] := by
  have field : ∀ (c0 c1 c2 c3 c4 c5 c6 c7 : BitVec 2) (k : Fin 8),
      patternSlot ((((((((((0 : Pattern) <<< 2 ||| c7.setWidth 16) <<< 2 ||| c6.setWidth 16) <<< 2 |||
        c5.setWidth 16) <<< 2 ||| c4.setWidth 16) <<< 2 ||| c3.setWidth 16) <<< 2 ||| c2.setWidth 16) <<< 2 |||
        c1.setWidth 16) <<< 2 ||| c0.setWidth 16)) k = (#v[c0, c1, c2, c3, c4, c5, c6, c7])[k] := by
    intro c0 c1 c2 c3 c4 c5 c6 c7 k
    unfold patternSlot
    fin_cases k <;> ext i hi <;> interval_cases i <;> simp
  rw [packVector_unfold]
  refine (field (slotCode v[0]) (slotCode v[1]) (slotCode v[2]) (slotCode v[3]) (slotCode v[4]) (slotCode v[5])
    (slotCode v[6]) (slotCode v[7]) k).trans ?_
  fin_cases k <;> rfl

/-- Two patterns with the same eight fields are equal. -/
theorem pattern_ext {p q : Pattern} (h : ∀ k : Fin 8, patternSlot p k = patternSlot q k) : p = q := by
  ext i hi
  have := congrArg (fun v => v.getLsbD (i % 2)) (h ⟨i / 2, by omega⟩)
  simp only [patternSlot] at this
  rw [BitVec.getLsbD_extractLsb', BitVec.getLsbD_extractLsb'] at this
  simp only [show i % 2 < 2 by omega, decide_true, Bool.true_and, show 2 * (i / 2) + i % 2 = i by omega] at this
  simpa [BitVec.getLsbD_eq_getElem hi] using this

/-- The slots of the inverse of the packer. -/
theorem unpackPattern_slot (p : Pattern) (k : Fin 8) : (unpackPattern p)[k] = (patternSlot p k).setWidth 8 := by
  simp [unpackPattern]

/-! ## The events of a frame -/

/-- What the receiver is given in a frame, pulse by pulse (R43). -/
theorem sampledData_frameEvents (p : Pattern) (d : Bool) :
    sampledData (false, d) (frameEvents p) = List.replicate 16 false ++ patternBits p := by
  simp [frameEvents, patternBits, bitEvents, pulseEvents, Config.clearPulses, List.range, List.range.loop,
    List.replicate, sampledData, pinsAfter]

/-- The pins after a frame (R59). -/
theorem pinsAfter_frameEvents (p : Pattern) (d : Bool) :
    (frameEvents p).foldl pinsAfter (false, d) = (false, p.getLsbD 0) := by
  simp [frameEvents, patternBits, bitEvents, pulseEvents, Config.clearPulses, List.range, List.range.loop,
    List.replicate, pinsAfter]

/-- DATA changes only while CLK is 0 in a frame (R62). -/
theorem glitchFree_frameEvents (p : Pattern) (d : Bool) : glitchFree (false, d) (frameEvents p) = true := by
  simp [frameEvents, patternBits, bitEvents, pulseEvents, Config.clearPulses, List.range, List.range.loop,
    List.replicate, pinsAfter, glitchFree]

/-- A frame is made of pin-driver calls only. -/
theorem isPinCall_frameEvents (p : Pattern) : (frameEvents p).all Event.isPinCall = true := by
  simp [frameEvents, patternBits, bitEvents, pulseEvents, Config.clearPulses, List.range, List.range.loop,
    List.replicate, Event.isPinCall]

/-- A history that has grown by a list of events. -/
theorem history_append {s t : State} {l : List Event} (h : t.events = l.reverse ++ s.events) :
    t.history = s.history ++ l := by
  simp [State.history, h]

end Sys2Proof.Machine
end

