-- ==== Sys2Proof/Laws/Sequencer.lean ====
section
/-! SUPPORT. What one step of SEQ and of the whole machine can do, said once, and the run of a whole block of
micro-operations (spec/10_state.md R14, spec/40_led_vector.md R53, spec/42_stream.md R68). -/

namespace Sys2Proof.Machine

open Sys2Proof

/-! ## Issue -/

theorem issueLed_busy (i : Instr) {s : State} (h : s.busy = true) : issueLed i s = .next s := by
  simp [issueLed, h]

theorem issueLed_idle (i : Instr) {s : State} (h : s.busy = false) :
    issueLed i s = .next (complete (runLed (ledMicros i) (accept i s))) := by
  simp [issueLed, h]

theorem issueStream_busy (i : Instr) {s : State} (h : s.busy = true) : issueStream i s = .next s := by
  simp [issueStream, h]

theorem issueStream_accepted (i : Instr) {s : State} (h : s.busy = false)
    (hl : lenOk s.len.toNat s.params.sbDepth = true) : issueStream i s = .next (accept i s) := by
  simp [issueStream, h, hl]

theorem issueStream_rejected (i : Instr) {s : State} (h : s.busy = false)
    (hl : lenOk s.len.toNat s.params.sbDepth = false) :
    issueStream i s = .next { s with cfgErr := true, illCmd := false } := by
  simp [issueStream, h, hl, reject, clearErrors, State.setErr]

/-- The issue of an LED command, of a streaming command: which shared operation an arm of `exec` is. -/
theorem exec_led {i : Instr} (h : i.streaming = false) (s : State) : exec i s = issueLed i s := by
  cases i <;> first | rfl | simp [Instr.streaming] at h

theorem exec_stream {i : Instr} (h : i.streaming = true) (s : State) : exec i s = issueStream i s := by
  cases i <;> first | rfl | simp [Instr.streaming] at h

/-! ## One step of SEQ -/

/-- Everything a turn of SEQ can do when it answers a next state. -/
theorem seqStep_cases {s t : State} (h : seqStep s = .next t) :
    (s.seq.op = none ∧ t = s) ∨
      ∃ i m, s.seq.op = some i ∧ s.nextMicro = some m ∧
        ((m.enabled s = false ∧ t = s) ∨
          (m.enabled s = true ∧ ∃ u, micro m s = .next u ∧ t = u.setSeq (Seq.advance i s.seq))) := by
  unfold seqStep at h
  split at h
  · rename_i hop
    exact .inl ⟨hop, by simpa using h.symm⟩
  · rename_i i hop
    split at h
    · exact absurd h (by simp)
    · rename_i m hm
      refine .inr ⟨i, m, hop, hm, ?_⟩
      split_ifs at h with he
      · unfold takeMicro at h
        split at h
        · rename_i u hu
          exact .inr ⟨he, u, hu, by simpa using h.symm⟩
        · simp at h
        · simp at h
      · exact .inl ⟨by simpa using he, by simpa using h.symm⟩

/-- A turn of SEQ at a micro-operation it can take: the micro-operation's effect, and the position moved on. -/
theorem seqStep_micro {s u : State} {i : Instr} {m : Micro} (hop : s.seq.op = some i) (hn : s.nextMicro = some m)
    (he : m.enabled s = true) (hu : micro m s = .next u) : seqStep s = .next (u.setSeq (Seq.advance i s.seq)) := by
  simp [seqStep, hop, hn, he, takeMicro, hu]

/-- When SEQ's store goes through, and what it does (R29). -/
theorem seqStore_next {s t : State} {j : Nat} {v : Sample} :
    seqStore s j v = .next t ↔
      j < s.params.sbDepth ∧ t = (s.setSb (Memory.put s.sb j v)).emit (.memWrite j v) := by
  unfold seqStore; split_ifs with h <;> simp [h, eq_comm]

/-- When SEQ's load goes through, and what it does (R29). -/
theorem seqLoad_next {s t : State} {j : Nat} {f : Hidden → Sample → Hidden} :
    seqLoad s j f = .next t ↔
      j < s.params.sbDepth ∧
        t = ((s.sbTouch j).setHid (f s.hid (s.sbValue j))).emit (.memRead j (s.sbValue j)) := by
  unfold seqLoad; split_ifs with h <;> simp [h, eq_comm]

/-- Whatever a micro-operation does, the position is left to SEQ, and the registers of the host port that no
operation writes, the parameters and the inputs stay. -/
theorem micro_frame {m : Micro} {s t : State} (h : micro m s = .next t) :
    t.seq = s.seq ∧ t.len = s.len ∧ t.cfgErr = s.cfgErr ∧ t.illCmd = s.illCmd ∧ t.params = s.params ∧
      t.inputs = s.inputs := by
  cases m <;> simp only [micro] at h
  case led l =>
    simp only [Host.Outcome.next.injEq] at h; subst h
    cases l <;> simp [ledMicro, dataSet, clkSet]
  case rxTakeA =>
    simp only [Host.Outcome.next.injEq] at h; subst h
    unfold rxTake; dsimp only; split <;> simp
  case rxTakeB =>
    simp only [Host.Outcome.next.injEq] at h; subst h
    unfold rxTake; dsimp only; split <;> simp
  case storeA i =>
    obtain ⟨_, rfl⟩ := seqStore_next.1 h; simp
  case loadMa j =>
    obtain ⟨_, rfl⟩ := seqLoad_next.1 h
    rcases s.sbTouch_cases j with e | e <;> simp [e]
  case loadMb j =>
    obtain ⟨_, rfl⟩ := seqLoad_next.1 h
    rcases s.sbTouch_cases j with e | e <;> simp [e]
  all_goals
    simp only [Host.Outcome.next.injEq] at h; subst h; simp [txPut]

/-- A micro-operation does not read the position. -/
theorem micro_setSeq {m : Micro} {s t : State} (q : Seq) (h : micro m s = .next t) :
    micro m (s.setSeq q) = .next (t.setSeq q) := by
  cases m <;> simp only [micro] at h ⊢
  case led l =>
    simp only [Host.Outcome.next.injEq] at h; subst h
    cases l <;> rfl
  case rxTakeA =>
    simp only [Host.Outcome.next.injEq] at h; subst h
    cases hn : s.chan.rxNext <;> simp only [rxTake, State.setSeq_chan, hn] <;> rfl
  case rxTakeB =>
    simp only [Host.Outcome.next.injEq] at h; subst h
    cases hn : s.chan.rxNext <;> simp only [rxTake, State.setSeq_chan, hn] <;> rfl
  case storeA i =>
    obtain ⟨hi, rfl⟩ := seqStore_next.1 h
    exact seqStore_next.2 ⟨hi, rfl⟩
  case loadMa j =>
    obtain ⟨hi, rfl⟩ := seqLoad_next.1 h
    refine seqLoad_next.2 ⟨hi, ?_⟩
    cases hg : Memory.get s.sb j <;> simp [State.sbTouch, State.sbValue, hg] <;> rfl
  case loadMb j =>
    obtain ⟨hi, rfl⟩ := seqLoad_next.1 h
    refine seqLoad_next.2 ⟨hi, ?_⟩
    cases hg : Memory.get s.sb j <;> simp [State.sbTouch, State.sbValue, hg] <;> rfl
  all_goals
    simp only [Host.Outcome.next.injEq] at h; subst h; rfl

/-- Nothing but the two waits reads the ready flags, and the position is not read. -/
theorem enabled_setSeq (m : Micro) (s : State) (q : Seq) : m.enabled (s.setSeq q) = m.enabled s := by
  cases m <;> rfl

/-! ## A list of micro-operations -/

/-- The effect of a list of micro-operations that none of its waits holds up and that accesses SB inside. -/
def microRun : List Micro → State → Option State
  | [], s => some s
  | m :: rest, s =>
    if m.enabled s then
      match micro m s with
      | .next t => microRun rest t
      | .fault _ => none
      | .refused _ => none
    else none

theorem microRun_append (a b : List Micro) (s : State) :
    microRun (a ++ b) s = (microRun a s).bind (microRun b) := by
  induction a generalizing s with
  | nil => rfl
  | cons m rest ih =>
    simp only [List.cons_append, microRun]
    split_ifs
    · cases micro m s <;> simp [ih]
    · rfl

/-- LEDU's micro-operations always go through. -/
theorem microRun_led (ms : List LedMicro) (s : State) : microRun (ms.map .led) s = some (runLed ms s) := by
  induction ms generalizing s with
  | nil => rfl
  | cons m rest ih => simpa [microRun, Micro.enabled, micro] using ih _

theorem microRun_frame {ms : List Micro} {s t : State} (h : microRun ms s = some t) :
    t.seq = s.seq ∧ t.len = s.len ∧ t.cfgErr = s.cfgErr ∧ t.illCmd = s.illCmd ∧ t.params = s.params ∧
      t.inputs = s.inputs := by
  induction ms generalizing s with
  | nil => simp [microRun] at h; subst h; simp
  | cons m rest ih =>
    simp only [microRun] at h
    split_ifs at h
    split at h
    · rename_i u hu
      obtain ⟨a, b, c, d, e, f⟩ := ih h
      obtain ⟨a', b', c', d', e', f'⟩ := micro_frame hu
      simp [a, b, c, d, e, f, a', b', c', d', e', f']
    · simp at h
    · simp at h

/-! ## Runs -/

/-- The model's `run` is the host's. -/
theorem run_eq_core_run (n : Nat) (s : State) : Host.Core.run core n s = run n s := by
  induction n generalizing s with
  | zero => rfl
  | succ n ih =>
    cases h : step s with
    | next t =>
      change core.step s = .next t at h
      simp only [Host.Core.run, h]
      change step s = .next t at h
      simp only [run, h]
      exact ih t
    | fault f =>
      change core.step s = .fault f at h
      simp only [Host.Core.run, h]
      change step s = .fault f at h
      simp only [run, h]
      rfl
    | refused r =>
      change core.step s = .refused r at h
      simp only [Host.Core.run, h]
      change step s = .refused r at h
      simp only [run, h]
      rfl

@[simp] theorem run_zero (s : State) : run 0 s = .next s := rfl

theorem run_succ {s t : State} (h : step s = .next t) (n : Nat) : run (n + 1) s = run n t := by
  simp [run, h]

theorem run_add {s t : State} {m : Nat} (h : run m s = .next t) (n : Nat) : run (m + n) s = run n t := by
  induction m generalizing s with
  | zero => simp at h; simp [h]
  | succ m ih =>
    rw [Nat.add_right_comm]
    simp only [run] at h ⊢
    split at h
    · rename_i u hu; exact ih h
    · simp at h
    · simp at h

/-- With no input, SEQ has the turn. -/
theorem step_seq {s : State} (h : s.inputs = []) : step s = seqStep s := by simp [step, h]

/-- The position after a whole block. -/
def Seq.afterBlock (i : Instr) (b : Nat) (len : Word) : Seq :=
  if b + 1 < blockCount i len.toNat then { op := some i, blk := b + 1, k := 0, len := len } else Seq.idle

/-- SEQ runs the rest of a block, one micro-operation a step, and stands at what follows the block. -/
theorem run_block {i : Instr} {b : Nat} {len : Word} (done ms : List Micro) {s t : State}
    (hb : block i len.toNat b = done ++ ms) (hne : ms ≠ []) (hin : s.inputs = []) (h : microRun ms s = some t) :
    run ms.length (s.setSeq { op := some i, blk := b, k := done.length, len := len }) =
      .next (t.setSeq (Seq.afterBlock i b len)) := by
  induction ms generalizing s done with
  | nil => exact absurd rfl hne
  | cons m rest ih =>
    simp only [microRun] at h
    split_ifs at h with he
    split at h
    · rename_i u hu
      set q : Seq := { op := some i, blk := b, k := done.length, len := len } with hq
      have hnext : (s.setSeq q).nextMicro = some m := by
        simp [State.nextMicro, hq, hb]
      have hstep : step (s.setSeq q) = .next (u.setSeq (Seq.advance i q)) := by
        rw [step_seq (by simpa using hin)]
        have hop : (s.setSeq q).seq.op = some i := rfl
        simp only [seqStep, hop, hnext, enabled_setSeq, he, if_true, takeMicro, micro_setSeq q hu]
        rfl
      rw [List.length_cons, run_succ hstep]
      have hui : u.inputs = [] := by rw [(micro_frame hu).2.2.2.2.2, hin]
      cases rest with
      | nil =>
        simp only [microRun, Option.some.injEq] at h
        subst h
        simp only [List.length_nil, run_zero]
        have : ¬ (done.length + 1 < (block i len.toNat b).length) := by simp [hb]
        simp [Seq.advance, Seq.afterBlock, hq, hb]
      | cons m' rest' =>
        have hadv : Seq.advance i q = { op := some i, blk := b, k := (done ++ [m]).length, len := len } := by
          simp [Seq.advance, hq, hb]
        rw [hadv]
        exact ih (done ++ [m]) (by simp [hb]) (by simp) hui h
    · simp at h
    · simp at h

/-- SEQ runs a whole block from its beginning. -/
theorem run_whole_block {i : Instr} {b : Nat} {len : Word} {s t : State} (hne : block i len.toNat b ≠ [])
    (hin : s.inputs = []) (h : microRun (block i len.toNat b) s = some t) :
    run (block i len.toNat b).length (s.setSeq { op := some i, blk := b, k := 0, len := len }) =
      .next (t.setSeq (Seq.afterBlock i b len)) :=
  run_block [] _ rfl hne hin h

/-! ## One step of the machine -/

/-- Everything a step can do when it answers a next state: who moved, and what. -/
theorem step_cases {s t : State} (h : step s = .next t) :
    (s.inputs = [] ∧ seqStep s = .next t) ∨
    (∃ r, s.inputs = .seq :: r ∧ seqStep (s.setInputs r) = .next t) ∨
    (∃ w r, s.inputs = .host (.regWrite 0 w) :: r ∧ commandWrite w (s.setInputs r) = .next t) ∨
    (∃ a r, s.inputs = .host a :: r ∧ a.commandWord = none ∧ hostAccess a (s.setInputs r) = .next t) ∨
    (∃ w r, s.inputs = .hostStepped w :: r ∧ commandStepped w (s.setInputs r) = .next t) ∨
    (∃ r, s.inputs = .hostWait :: r ∧
      ((s.busy = true ∧ seqStep s = .next t) ∨ (s.busy = false ∧ t = s.setInputs r))) ∨
    (∃ a v b r, s.inputs = .chan a v b :: r ∧ t = chanSet a v b (s.setInputs r)) ∨
    (∃ r, s.inputs = .reset :: r ∧ t = resetBlock (s.setInputs r)) := by
  unfold step at h
  split at h <;> rename_i hi
  · exact .inl ⟨hi, h⟩
  · exact .inr (.inl ⟨_, hi, h⟩)
  · rename_i a r
    unfold hostTurn at h
    split at h
    · rename_i w hw
      have : a = .regWrite 0 w := by
        cases a <;> simp [HostAccess.commandWord] at hw
        simp [hw]
      exact .inr (.inr (.inl ⟨w, r, this ▸ hi, h⟩))
    · rename_i hw
      exact .inr (.inr (.inr (.inl ⟨a, r, hi, hw, h⟩)))
  · exact .inr (.inr (.inr (.inr (.inl ⟨_, _, hi, h⟩))))
  · refine .inr (.inr (.inr (.inr (.inr (.inl ⟨_, hi, ?_⟩)))))
    split_ifs at h with hb
    · exact .inl ⟨hb, h⟩
    · exact .inr ⟨by simpa using hb, by simpa using h.symm⟩
  · exact .inr (.inr (.inr (.inr (.inr (.inr (.inl ⟨_, _, _, _, hi, by simpa using h.symm⟩))))))
  · exact .inr (.inr (.inr (.inr (.inr (.inr (.inr ⟨_, hi, by simpa using h.symm⟩))))))

end Sys2Proof.Machine
end

