-- ==== Sys2Proof/Laws/Commands.lean ====
section
/-! SUPPORT. The issue of a command in one equation, what a list of LEDU's micro-operations leaves alone, what one
micro-operation does to each field, the shape of the blocks, and the run of a whole command (spec/10_state.md R14,
R27, spec/40_led_vector.md R53). -/

namespace Sys2Proof.Machine

open Sys2Proof

/-! ## LEDU's micro-operations -/

/-- LEDU does not read the position. -/
theorem runLed_setSeq (ms : List LedMicro) (s : State) (q : Seq) :
    runLed ms (s.setSeq q) = (runLed ms s).setSeq q := by
  induction ms generalizing s with
  | nil => rfl
  | cons m r ih => rw [runLed_cons, runLed_cons, ← ih]; cases m <;> rfl

/-- LEDU does not read the error bits. -/
theorem runLed_setErr (ms : List LedMicro) (s : State) (a b : Bool) :
    runLed ms (s.setErr a b) = (runLed ms s).setErr a b := by
  induction ms generalizing s with
  | nil => rfl
  | cons m r ih => rw [runLed_cons, runLed_cons, ← ih]; cases m <;> rfl

/-- LEDU touches neither the channel, nor SB, nor the count of free values, nor any hidden register but TV. -/
theorem runLed_outside (ms : List LedMicro) (s : State) :
    (runLed ms s).chan = s.chan ∧ (runLed ms s).sb = s.sb ∧ (runLed ms s).draws = s.draws ∧
      { (runLed ms s).hid with tv := s.hid.tv } = s.hid := by
  induction ms generalizing s with
  | nil => exact ⟨rfl, rfl, rfl, rfl⟩
  | cons m r ih =>
    obtain ⟨a, b, c, d⟩ := ih (ledMicro m s)
    rw [runLed_cons, a, b, c]
    have e : { (ledMicro m s).hid with tv := s.hid.tv } = s.hid := by cases m <;> rfl
    refine ⟨by cases m <;> rfl, by cases m <;> rfl, by cases m <;> rfl, ?_⟩
    rw [← e, ← d]

/-! ## The issue of a command -/

/-- A busy block takes no command (R37). -/
theorem exec_busy (i : Instr) {s : State} (h : s.busy = true) : exec i s = .next s := by
  cases hs : i.streaming
  · rw [exec_led hs, issueLed_busy i h]
  · rw [exec_stream hs, issueStream_busy i h]

/-- An LED command on an idle block: its micro-operations, both error bits 0, SEQ idle (R53). -/
theorem exec_led_idle {i : Instr} (hs : i.streaming = false) {s : State} (h : s.isIdle) :
    exec i s = .next (((runLed (ledMicros i) s).setErr false false).setSeq Seq.idle) := by
  rw [exec_led hs, issueLed_idle i h.not_busy]
  simp only [runLed_setSeq, runLed_setErr, accept, clearErrors, complete]
  rfl

theorem runCommands_cons {i : Instr} {s t : State} (h : exec i s = .next t) (r : List Instr) :
    runCommands (i :: r) s = runCommands r t := by simp [runCommands, h]

theorem runCommands_append {a b : List Instr} {s t : State} (h : runCommands a s = .next t) :
    runCommands (a ++ b) s = runCommands b t := by
  induction a generalizing s with
  | nil => simp [runCommands] at h; simp [h]
  | cons i r ih =>
    simp only [List.cons_append, runCommands] at h ⊢
    split at h
    · exact ih h
    · simp at h
    · simp at h

/-! ## One micro-operation -/

/-- What `RxTake()` does (R24). -/
theorem rxTake_spec (f : Hidden → Sample → Hidden) (s : State) :
    (rxTake f s).hid = f s.hid s.chan.rxData ∧ (rxTake f s).history = s.history ++ [.rxTake s.chan.rxData] ∧
      (rxTake f s).sb = s.sb ∧ (rxTake f s).cv = s.cv ∧ (rxTake f s).sr = s.sr ∧ (rxTake f s).clk = s.clk ∧
      (rxTake f s).data = s.data ∧ (rxTake f s).ledrx = s.ledrx ∧
      (rxTake f s).chan.rxReady = s.chan.rxReady ∧ (rxTake f s).chan.txReady = s.chan.txReady ∧
      (∀ x r, s.chan.rxNext = x :: r →
        (rxTake f s).chan.rxData = x ∧ (rxTake f s).chan.rxNext = r ∧ (rxTake f s).draws = s.draws) ∧
      (s.chan.rxNext = [] → (rxTake f s).chan.rxData = s.drawnSample ∧ (rxTake f s).chan.rxNext = [] ∧
        (rxTake f s).draws = s.draws + 1) := by
  unfold rxTake
  cases hn : s.chan.rxNext <;> simp [hn]

/-- CLK after a micro-operation: only `ClkSet` moves it (R58). -/
theorem micro_clk {m : Micro} {s t : State} (h : micro m s = .next t) :
    t.clk = if m = .led (.clkSet true) then true else if m = .led (.clkSet false) then false else s.clk := by
  cases m <;> simp only [micro] at h
  case led l =>
    simp only [Host.Outcome.next.injEq] at h; subst h
    cases l <;> simp [ledMicro, dataSet, clkSet]
    rename_i a; cases a <;> simp
  case rxTakeA => simp only [Host.Outcome.next.injEq] at h; subst h; simp [rxTake_spec]
  case rxTakeB => simp only [Host.Outcome.next.injEq] at h; subst h; simp [rxTake_spec]
  case storeA i => obtain ⟨_, rfl⟩ := seqStore_next.1 h; simp
  case loadMa j => obtain ⟨_, rfl⟩ := seqLoad_next.1 h; rcases s.sbTouch_cases j with e | e <;> simp [e]
  case loadMb j => obtain ⟨_, rfl⟩ := seqLoad_next.1 h; rcases s.sbTouch_cases j with e | e <;> simp [e]
  all_goals simp only [Host.Outcome.next.injEq] at h; subst h; simp [txPut]

/-- SB after a micro-operation: only `MemWrite` changes it (R30). -/
theorem micro_sb {m : Micro} {s t : State} (h : micro m s = .next t) :
    (∀ i, m = .storeA i → t.sb = Memory.put s.sb i s.hid.rxa) ∧ ((∀ i, m ≠ .storeA i) → t.sb = s.sb) := by
  cases m <;> simp only [micro] at h
  case led l => simp only [Host.Outcome.next.injEq] at h; subst h; cases l <;> simp [ledMicro, dataSet, clkSet]
  case rxTakeA => simp only [Host.Outcome.next.injEq] at h; subst h; simp [rxTake_spec]
  case rxTakeB => simp only [Host.Outcome.next.injEq] at h; subst h; simp [rxTake_spec]
  case storeA i => obtain ⟨_, rfl⟩ := seqStore_next.1 h; simp
  case loadMa j => obtain ⟨_, rfl⟩ := seqLoad_next.1 h; rcases s.sbTouch_cases j with e | e <;> simp [e]
  case loadMb j => obtain ⟨_, rfl⟩ := seqLoad_next.1 h; rcases s.sbTouch_cases j with e | e <;> simp [e]
  all_goals simp only [Host.Outcome.next.injEq] at h; subst h; simp [txPut]

/-! ## The register port -/

/-- The reserved register numbers are 4 to 7 and all from 16 on (R25). -/
theorem regOf_reserved (n : Nat) : regOf n = none ↔ (4 ≤ n ∧ n ≤ 7 ∨ 16 ≤ n) := by
  unfold regOf
  split_ifs <;> simp <;> omega

/-! ## The shape of a block -/

/-- Every assertion of CLK in a list is followed at once by its release. -/
def wholePulses : List Micro → Bool
  | [] => true
  | m :: r => (if m = .led (.clkSet true) then decide (r.head? = some (.led (.clkSet false))) else true) && wholePulses r

theorem wholePulses_next {l : List Micro} (h : wholePulses l = true) (k : Nat) (hk : l[k]? = some (.led (.clkSet true))) :
    l[k + 1]? = some (.led (.clkSet false)) := by
  induction l generalizing k with
  | nil => simp at hk
  | cons m r ih =>
    simp only [wholePulses, Bool.and_eq_true] at h
    cases k with
    | zero =>
      simp at hk; subst hk
      simp at h; simp [← List.head?_eq_getElem?, h.1]
    | succ k => exact ih h.2 k (by simpa using hk)

theorem wholePulses_append {a b : List Micro} (ha : wholePulses a = true) (hb : wholePulses b = true) :
    wholePulses (a ++ b) = true := by
  induction a with
  | nil => exact hb
  | cons m r ih =>
    simp only [wholePulses, Bool.and_eq_true, List.cons_append] at ha ⊢
    refine ⟨?_, ih ha.2⟩
    by_cases hm : m = .led (.clkSet true)
    · simp only [hm, if_true] at ha ⊢
      cases r with
      | nil => simp at ha
      | cons x y => simpa using ha.1
    · simp [hm]

theorem pulsesIn_append (a b : List Micro) : pulsesIn (a ++ b) = pulsesIn a + pulsesIn b := List.count_append

theorem wholePulses_tick (i p : Nat) : wholePulses (tickIfDue i p) = true ∧ pulsesIn (tickIfDue i p) % 32 = 0 := by
  unfold tickIfDue; split_ifs
  · exact ⟨by decide, by decide⟩
  · exact ⟨rfl, rfl⟩

/-- Every block pulses the clock in whole pulses, a multiple of 32 of them (R27). -/
theorem block_wholePulses (i : Instr) (len b : Nat) :
    wholePulses (block i len b) = true ∧ pulsesIn (block i len b) % 32 = 0 := by
  unfold block
  split_ifs
  · cases i with
    | setone a b =>
      have frame : pulsesIn (transmitMicros.map .led) % 32 = 0 := by decide
      refine ⟨rfl, ?_⟩
      unfold pulsesIn at *
      simp only [ledMicros, setoneMicros, List.map_append, List.count_append, List.map_cons, List.map_map]
      rw [Nat.add_mod, frame]
      simp [slotIndices]
    | playback e =>
      refine ⟨rfl, ?_⟩
      show pulsesIn (progressInit.map .led) % 32 = 0
      decide
    | _ => exact ⟨rfl, rfl⟩
  · cases i <;> try exact ⟨rfl, rfl⟩
    case capture =>
      obtain ⟨a, c⟩ := wholePulses_tick (b - 1) (len / Config.progressSteps)
      simp only [loopBody, captureBody]
      refine ⟨wholePulses_append rfl a, ?_⟩
      rw [pulsesIn_append, Nat.add_mod, c]; rfl
    case playback e =>
      obtain ⟨a, c⟩ := wholePulses_tick (b - 1) (Config.slotsPerSample * len / Config.progressSteps)
      simp only [loopBody, playbackBody]
      have send : pulsesIn (playbackSend e len (b - 1)) = 0 := by
        unfold playbackSend echoMicros; split_ifs <;> rfl
      refine ⟨wholePulses_append (wholePulses_append ?_ a) rfl, ?_⟩
      · unfold playbackSend echoMicros; split_ifs <;> rfl
      · rw [pulsesIn_append, pulsesIn_append, send, Nat.zero_add, Nat.add_mod, c]; rfl

/-- No command has an empty list. -/
theorem ledMicros_ne_nil (i : Instr) : ledMicros i ≠ [] := by
  cases i <;> simp [ledMicros, encodeMicros, resetvMicros, advanceMicros, setallMicros, setoneMicros, transmitMicros,
    clearMicros, slotIndices, progressInit]

/-- Every block inside the list has a micro-operation. -/
theorem block_length_pos {i : Instr} {len b : Nat} (h : b < blockCount i len) : 0 < (block i len b).length := by
  unfold block
  split_ifs with hb
  · simpa using List.length_pos_of_ne_nil (ledMicros_ne_nil i)
  · cases i <;> simp [blockCount, loopCount] at h <;> try omega
    · simp [loopBody, captureBody]
    · simp [loopBody, playbackBody]

/-- The micro-operations taken, after one more: one more of the block, or the whole block done. -/
theorem takenMicros_advance {s u : State} {i : Instr} {m : Micro} (hop : s.seq.op = some i)
    (hn : s.nextMicro = some m) :
    ((u.setSeq (Seq.advance i s.seq)).takenMicros = s.takenMicros ++ [m] ∧
        s.seq.k + 1 < (block i s.seq.len.toNat s.seq.blk).length) ∨
      ((u.setSeq (Seq.advance i s.seq)).takenMicros = [] ∧
        s.takenMicros ++ [m] = block i s.seq.len.toNat s.seq.blk ∧ m ≠ .led (.clkSet true)) := by
  unfold State.nextMicro at hn
  simp only [hop] at hn
  obtain ⟨hk, he⟩ := List.getElem?_eq_some_iff.1 hn
  have taken : s.takenMicros = (block i s.seq.len.toNat s.seq.blk).take s.seq.k := by simp [State.takenMicros, hop]
  unfold Seq.advance
  by_cases more : s.seq.k + 1 < (block i s.seq.len.toNat s.seq.blk).length
  · left
    simp only [more, if_true]
    refine ⟨?_, trivial⟩
    rw [taken]
    simp only [State.takenMicros, State.setSeq_seq, hop]
    rw [List.take_succ_eq_append_getElem hk, he]
  · right
    simp only [more, if_false]
    refine ⟨by split_ifs <;> simp [State.takenMicros, hop], ?_, ?_⟩
    · rw [taken, ← he, ← List.take_succ_eq_append_getElem hk, List.take_of_length_le (by omega)]
    · rintro rfl
      have next := wholePulses_next (block_wholePulses i s.seq.len.toNat s.seq.blk).1 _ hn
      have := (List.getElem?_eq_some_iff.1 next).1
      omega

/-! ## The run of a whole command -/

theorem microRun_cons {m : Micro} {r : List Micro} {s t : State} (he : m.enabled s = true) (h : micro m s = .next t) :
    microRun (m :: r) s = microRun r t := by
  simp [microRun, he, h]

/-- SEQ runs the first `b` blocks of a list, `f` giving the state before each. -/
theorem run_blocks {i : Instr} {len : Word} (f : Nat → State)
    (hin : ∀ b, b < blockCount i len.toNat → (f b).inputs = [])
    (h : ∀ b, b < blockCount i len.toNat → microRun (block i len.toNat b) (f b) = some (f (b + 1)))
    (b : Nat) (hb : b ≤ blockCount i len.toNat) :
    run ((List.range b).flatMap (block i len.toNat)).length
        ((f 0).setSeq { op := some i, blk := 0, k := 0, len := len }) =
      .next ((f b).setSeq
        (if b < blockCount i len.toNat then { op := some i, blk := b, k := 0, len := len } else Seq.idle)) := by
  induction b with
  | zero => simp [blockCount]
  | succ b ih =>
    have hlt : b < blockCount i len.toNat := by omega
    have before := ih (by omega)
    rw [if_pos hlt] at before
    have here := run_whole_block (List.ne_nil_of_length_pos (block_length_pos hlt)) (hin b hlt) (h b hlt)
    rw [List.range_succ, List.flatMap_append, List.length_append, run_add before]
    simp only [List.flatMap_cons, List.flatMap_nil, List.append_nil]
    rw [here]; rfl

/-- SEQ runs a whole list and is idle at its end (R14). -/
theorem run_microList {i : Instr} {len : Word} (f : Nat → State)
    (hin : ∀ b, b < blockCount i len.toNat → (f b).inputs = [])
    (h : ∀ b, b < blockCount i len.toNat → microRun (block i len.toNat b) (f b) = some (f (b + 1))) :
    run (microList i len.toNat).length ((f 0).setSeq { op := some i, blk := 0, k := 0, len := len }) =
      .next ((f (blockCount i len.toNat)).setSeq Seq.idle) := by
  have whole := run_blocks f hin h _ le_rfl
  rw [if_neg (lt_irrefl _)] at whole
  exact whole

end Sys2Proof.Machine
end

