-- ==== Sys2Proof/Laws/Decode.lean ====
section
/-! SUPPORT. The fields of a command word, and everything a word that decodes can be (spec/30_encoding.md R46 to R49). -/

namespace Sys2Proof

/-- Field OP of an assembled word. -/
theorem commandWord_op (b a op : OperandByte) : fieldOp (commandWord b a op) = op := by
  unfold fieldOp commandWord; ext i hi
  simp only [BitVec.getElem_extractLsb', BitVec.getLsbD_cast, BitVec.getLsbD_append]
  simp [hi]
/-- Field A of an assembled word. -/
theorem commandWord_a (b a op : OperandByte) : fieldA (commandWord b a op) = a := by
  unfold fieldA commandWord; ext i hi
  simp only [BitVec.getElem_extractLsb', BitVec.getLsbD_cast, BitVec.getLsbD_append]
  simp [show ¬ 8+i < 8 by omega, show 8 + i - 8 = i by omega, hi]
/-- Field B of an assembled word. -/
theorem commandWord_b (b a op : OperandByte) : fieldB (commandWord b a op) = b := by
  unfold fieldB commandWord; ext i hi
  simp only [BitVec.getElem_extractLsb', BitVec.getLsbD_cast, BitVec.getLsbD_append]
  simp [show ¬ 16+i < 8 by omega, show ¬ (16+i-8 < 8) by omega, show 16 + i - 8 - 8 = i by omega, hi]
/-- Field Z of an assembled word. -/
theorem commandWord_z (b a op : OperandByte) : fieldZ (commandWord b a op) = 0 := by
  unfold fieldZ commandWord; ext i hi
  simp only [BitVec.getElem_extractLsb', BitVec.getLsbD_cast, BitVec.getLsbD_append]
  simp [show ¬ 24+i < 8 by omega, show ¬ (24+i-8 < 8) by omega, show ¬ (24 + i - 8 - 8 < 8) by omega]

/-- A word with `Z = 0` is the word of its fields. -/
theorem commandWord_fields (w : Word) (hz : fieldZ w = 0) : commandWord (fieldB w) (fieldA w) (fieldOp w) = w := by
  unfold fieldB fieldA fieldOp commandWord
  ext i hi
  simp only [BitVec.getElem_cast, BitVec.getElem_append]
  split_ifs with h1 h2 h3
  · simp [BitVec.getLsbD_eq_getElem hi]
  · simp [show 8 + (i - 8) = i by omega, BitVec.getLsbD_eq_getElem hi]
  · simp [show 16 + (i - 8 - 8) = i by omega, BitVec.getLsbD_eq_getElem hi]
  · have : (fieldZ w).getLsbD (i - 24) = false := by simp [hz]
    unfold fieldZ at this
    rw [BitVec.getLsbD_extractLsb'] at this
    simp [show i - 24 < 8 by omega, show 24 + (i - 24) = i by omega] at this
    simp [← this,BitVec.getLsbD_eq_getElem hi]

/-- Everything a word that decodes can be, by its fields (R47, R48). -/
theorem decode_cases {w : Word} {i : Instr} (h : decode w = .ok i) :
    fieldZ w = 0 ∧
    ((fieldOp w = 1 ∧ fieldA w = 0 ∧ fieldB w = 0 ∧ i = .encode) ∨
     (fieldOp w = 2 ∧ fieldA w = 0 ∧ fieldB w = 0 ∧ i = .transmit) ∨
     (fieldOp w = 3 ∧ fieldA w = 0 ∧ fieldB w = 0 ∧ i = .setall) ∨
     (fieldOp w = 4 ∧ i = .setone (fieldA w).toInt (fieldB w).toInt) ∨
     (fieldOp w = 5 ∧ fieldA w = 0 ∧ fieldB w = 0 ∧ i = .resetv) ∨
     (fieldOp w = 6 ∧ fieldA w = 0 ∧ fieldB w = 0 ∧ i = .advance) ∨
     (fieldOp w = 7 ∧ fieldA w = 0 ∧ fieldB w = 0 ∧ i = .capture) ∨
     (fieldOp w = 8 ∧ fieldA w >>> 1 = 0 ∧ fieldB w = 0 ∧ i = .playback ((fieldA w).getLsbD 0))) := by
  unfold decode at h
  split_ifs at h with hz
  refine ⟨by simpa using hz, ?_⟩
  have e : ∀ n : Nat, n < 256 → (fieldOp w).toNat = n → fieldOp w = BitVec.ofNat 8 n := by
    intro n hn h; apply BitVec.eq_of_toNat_eq; rw [h]; simp; omega
  unfold withoutOperands decodePlayback at h
  split at h <;> rename_i hop
  · split_ifs at h with hc; exact .inl ⟨e _ (by decide) hop, hc.1, hc.2, by simpa using h.symm⟩
  · split_ifs at h with hc; exact .inr (.inl ⟨e _ (by decide) hop, hc.1, hc.2, by simpa using h.symm⟩)
  · split_ifs at h with hc; exact .inr (.inr (.inl ⟨e _ (by decide) hop, hc.1, hc.2, by simpa using h.symm⟩))
  · exact .inr (.inr (.inr (.inl ⟨e _ (by decide) hop, by simpa [sext8] using h.symm⟩)))
  · split_ifs at h with hc; exact .inr (.inr (.inr (.inr (.inl ⟨e _ (by decide) hop, hc.1, hc.2, by simpa using h.symm⟩))))
  · split_ifs at h with hc; exact .inr (.inr (.inr (.inr (.inr (.inl ⟨e _ (by decide) hop, hc.1, hc.2, by simpa using h.symm⟩)))))
  · split_ifs at h with hc; exact .inr (.inr (.inr (.inr (.inr (.inr (.inl ⟨e _ (by decide) hop, hc.1, hc.2, by simpa using h.symm⟩))))))
  · split_ifs at h with hc; exact .inr (.inr (.inr (.inr (.inr (.inr (.inr ⟨e _ (by decide) hop, hc.1, hc.2, by simpa using h.symm⟩))))))
  · simp at h

end Sys2Proof
end

