-- ==== Sys2Proof/Laws/Operands.lean ====
section
/-! SUPPORT. The operand functions as arithmetic: the packer's step, the receiver's shift, ADVANCE's scan, SETONE's
conditional write, the mixer's sum (spec/40_led_vector.md R55, R56; spec/41_led_link.md R61; spec/43_echo_mixer.md R70). -/

namespace Sys2Proof.Machine

open Sys2Proof

/-- One step of the packer as arithmetic: `4 * SR + clamp(v)`, 16 bits of it (R56). -/
theorem packStep_arith (p : Pattern) (v : Slot) : packStep p v = BitVec.ofInt 16 (4 * p.toNat + clamp v.toInt) := by
  have : ∀ v : Slot, clamp v.toInt = ((slotCode v).toNat : Int) := by decide
  rw [this]
  have h4 : (slotCode v).toNat < 4 := (slotCode v).isLt
  apply BitVec.eq_of_toNat_eq
  have e1 : (packStep p v).toNat = (p.toNat * 4) % 65536 ||| (slotCode v).toNat := by
    simp [packStep, Nat.shiftLeft_eq, Nat.mod_eq_of_lt (show (slotCode v).toNat < 65536 by omega)]
  have e2 : (BitVec.ofInt 16 (4 * p.toNat + (slotCode v).toNat)).toNat = (4 * p.toNat + (slotCode v).toNat) % 65536 := by
    rw [show ((4 : Int) * p.toNat + (slotCode v).toNat) = ((4 * p.toNat + (slotCode v).toNat : Nat) : Int) by push_cast; rfl]
    rw [BitVec.ofInt_natCast]; simp
  rw [e1, e2]
  have : (p.toNat * 4) % 65536 = 2 ^ 2 * (p.toNat % 16384) := by omega
  rw [this, ← Nat.two_pow_add_eq_or_of_lt h4]
  omega

/-- The receiver's shift as arithmetic: `2 * RX + DATA`, 16 bits of it (R23). -/
theorem ledrxShift_arith (p : Pattern) (d : Bool) : ledrxShift p d = BitVec.ofNat 16 (2 * p.toNat + d.toNat) := by
  apply BitVec.eq_of_toNat_eq
  have h4 : d.toNat < 2 := by cases d <;> decide
  have e1 : (ledrxShift p d).toNat = (p.toNat * 2) % 65536 ||| d.toNat := by
    simp [ledrxShift, Nat.shiftLeft_eq, Nat.mod_eq_of_lt (show d.toNat < 65536 by omega)]
  rw [e1]
  have : (p.toNat * 2) % 65536 = 2 ^ 1 * (p.toNat % 32768) := by omega
  rw [this, ← Nat.two_pow_add_eq_or_of_lt (by simpa using h4)]
  simp; omega

/-- The scan passes over slots that are not 0 and sets the first that is (R55). -/
theorem advanceFrom_first {v : Slots} {k : Fin 8} (hk : v[k] = 0) (a b : List (Fin 8)) (ha : ∀ j ∈ a, v[j] ≠ 0) :
    advanceFrom v (a ++ k :: b) = v.set k.val 1 k.isLt := by
  induction a with
  | nil => simp only [List.nil_append, advanceFrom, hk, if_true]; rfl
  | cons x r ih =>
    simp only [List.cons_append, advanceFrom, ha x (by simp), if_false]
    exact ih fun j hj => ha j (by simp [hj])

/-- A scan that finds no slot equal to 0 changes nothing (R55). -/
theorem advanceFrom_none {v : Slots} (h : ∀ k : Fin 8, v[k] ≠ 0) (a : List (Fin 8)) : advanceFrom v a = v := by
  induction a with
  | nil => rfl
  | cons x r ih => simp only [advanceFrom, h x, if_false, ih]

/-- ADVANCE's slot write at the first slot equal to 0 (R55). -/
theorem advanceVector_first {v : Slots} {k : Fin 8} (hk : v[k] = 0) (hj : ∀ j : Fin 8, j < k → v[j] ≠ 0) :
    advanceVector v = v.set k.val 1 k.isLt := by
  have split : ∀ k : Fin 8, slotIndices = slotIndices.take k.val ++ k :: slotIndices.drop (k.val + 1) := by decide
  have before : ∀ k j : Fin 8, j ∈ slotIndices.take k.val → j < k := by decide
  rw [advanceVector, split k]
  exact advanceFrom_first hk _ _ fun j h => hj j (before k j h)

/-- ADVANCE on a vector without a slot equal to 0 (R55). -/
theorem advanceVector_none {v : Slots} (h : ∀ k : Fin 8, v[k] ≠ 0) : advanceVector v = v := advanceFrom_none h _

/-- SETONE's write with both operands in range (R61). -/
theorem setoneWrite_inside (k : Fin 8) {c : Int} (h0 : 0 ≤ c) (h4 : c < 4) (tv : Slots) :
    setoneWrite k.val c tv = tv.set k.val (BitVec.ofInt 8 c) k.isLt := by
  have hk := k.isLt
  simp [setoneWrite, setoneInRange, h0, h4]

/-- SETONE's write with an operand out of range changes nothing (R61). -/
theorem setoneWrite_outside {a c : Int} (h : ¬(0 ≤ a ∧ a < 8 ∧ 0 ≤ c ∧ c < 4)) (tv : Slots) :
    setoneWrite a c tv = tv := by
  have : setoneInRange a c = false := by
    simpa only [setoneInRange, Bool.eq_false_iff, ne_eq, Bool.and_eq_true, decide_eq_true_eq, and_assoc] using h
  simp [setoneWrite, this]

/-- Stage 3 of the mixer is the 16-bit sum (R70, R72). -/
theorem mixStage3_eq (a b : Sample) : mixStage3 a b = a + b := by
  unfold mixStage3 wrap16
  apply BitVec.eq_of_toInt_eq
  rw [BitVec.toInt_add, BitVec.toInt_ofInt]
  simp only [Int.bmod]
  omega

end Sys2Proof.Machine
end

