-- ==== Sys2Proof/Laws/PerInstr.lean ====
section
/-! SUPPORT. Statements about every command, made per constructor. -/

namespace Sys2Proof.Laws.EncodeMatchesRow

open Sys2Proof

/-- The encoding of a command matches the command's row of the opcode table (spec/30_encoding.md R48). -/
def Statement (i : Instr) : Prop := Sys2Proof.encode i &&& opcodeMask i = opcodeMatch i

theorem encode : Statement .encode := by unfold Statement; decide

theorem transmit : Statement .transmit := by unfold Statement; decide

theorem setall : Statement .setall := by unfold Statement; decide

theorem setone (ledIndex color : Int) : Statement (.setone ledIndex color) := by
  unfold Statement Sys2Proof.encode commandWord opcodeMask opcodeMatch
  generalize BitVec.ofInt 8 color = b
  generalize BitVec.ofInt 8 ledIndex = a
  ext i hi
  simp only [BitVec.getElem_and, BitVec.getElem_cast, BitVec.getElem_append]
  interval_cases i <;> simp

theorem resetv : Statement .resetv := by unfold Statement; decide

theorem advance : Statement .advance := by unfold Statement; decide

theorem capture : Statement .capture := by unfold Statement; decide

theorem playback (echoEnabled : Bool) : Statement (.playback echoEnabled) := by
  unfold Statement; cases echoEnabled <;> decide

end Sys2Proof.Laws.EncodeMatchesRow
end

