-- ==== Sys2Proof/Tests/Slice0.lean ====
section
/-! SUPPORT. Tests, each about one word, one value or one step, with results from spec/95_test_vectors.md (V1 to V9,
P1 to P4) or worked out by hand from the rules; and, for every statement with hypotheses, a named witness that meets
them. -/

namespace Sys2Proof.Tests

open Sys2Proof Sys2Proof.Machine

/-! ## Small states -/

/-- A colour vector from eight numbers. -/
def vec (a b c d e f g h : Int) : Slots :=
  #v[BitVec.ofInt 8 a, BitVec.ofInt 8 b, BitVec.ofInt 8 c, BitVec.ofInt 8 d, BitVec.ofInt 8 e, BitVec.ofInt 8 f,
    BitVec.ofInt 8 g, BitVec.ofInt 8 h]

/-- Reset with SB_DEPTH 64 and the receiver at 0xBEEF (the start of spec/95's programs). -/
def start : State := { State.reset with params := { sbDepth := 64, rxEdge := .release }, ledrx := 0xBEEF }

/-- `start` with a colour vector, DATA at 1 and both error bits set. -/
def withVec (v : Slots) : State := { start with cv := v, data := true, cfgErr := true }

/-- `start` with LEN. -/
def withLen (n : Word) : State := { start with len := n }

/-- SEQ at a place of a streaming command of length 8. -/
def at8 (i : Instr) (blk k : Nat) : State :=
  { start with len := 8, seq := { op := some i, blk := blk, k := k, len := 8 } }

/-- A view of a next state. -/
def view {α : Type} (f : State → α) : Result → Option α
  | .next s => some (f s)
  | .fault _ => none
  | .refused _ => none

/-- Whether a machine stopped with a refusal. -/
def refusal : Result → Option Refusal
  | .next _ => none
  | .fault _ => none
  | .refused r => some r

/-! ## WellFormed -/

theorem test_wellFormed_setone_bounds :
    (Instr.setone (-128) 127).wellFormed = true ∧ (Instr.setone 127 (-128)).wellFormed = true := by decide

theorem test_wellFormed_refuses_large_index : (Instr.setone 128 0).wellFormed = false := by decide
theorem test_wellFormed_refuses_small_index : (Instr.setone (-129) 0).wellFormed = false := by decide
theorem test_wellFormed_refuses_large_color : (Instr.setone 0 128).wellFormed = false := by decide
theorem test_wellFormed_refuses_small_color : (Instr.setone 0 (-129)).wellFormed = false := by decide

/-! ## Decoding: words written out bit by bit from R46 and R48 (Z, B, A, OP) -/

theorem test_decode_encode : decode 0b00000000_00000000_00000000_00000001 = .ok .encode := by decide
theorem test_decode_transmit : decode 0b00000000_00000000_00000000_00000010 = .ok .transmit := by decide
theorem test_decode_setall : decode 0b00000000_00000000_00000000_00000011 = .ok .setall := by decide
theorem test_decode_setone : decode 0b00000000_00000011_11111111_00000100 = .ok (.setone (-1) 3) := by decide
theorem test_decode_resetv : decode 0b00000000_00000000_00000000_00000101 = .ok .resetv := by decide
theorem test_decode_advance : decode 0b00000000_00000000_00000000_00000110 = .ok .advance := by decide
theorem test_decode_capture : decode 0b00000000_00000000_00000000_00000111 = .ok .capture := by decide
theorem test_decode_playback : decode 0b00000000_00000000_00000001_00001000 = .ok (.playback true) := by decide

/-- V8: the illegal words, each with its reason. -/
theorem test_decode_illegal_words :
    decode 0x00000000 = .error (.unknownOperation 0x00) ∧ decode 0x00000009 = .error (.unknownOperation 0x09) ∧
    decode 0x000000FF = .error (.unknownOperation 0xFF) ∧ decode 0x01000001 = .error .reservedTopByte ∧
    decode 0x00000101 = .error (.reservedOperandBits 0x01) ∧ decode 0x00010003 = .error (.reservedOperandBits 0x03) ∧
    decode 0x00000208 = .error (.reservedOperandBits 0x08) ∧ decode 0x00000308 = .error (.reservedOperandBits 0x08) ∧
    decode 0x00010008 = .error (.reservedOperandBits 0x08) ∧ decode 0x80000004 = .error .reservedTopByte := by decide

/-- V4's words. -/
theorem test_encode_words :
    encode (.setone 2 1) = 0x00010204 ∧ encode (.setone (-1) 3) = 0x0003FF04 ∧
    encode (.setone (-128) (-128)) = 0x00808004 ∧ encode (.setone 2 (-1)) = 0x00FF0204 ∧
    encode (.playback true) = 0x00000108 := by decide

theorem test_decodeTableWord_takes_the_low_bits :
    decodeTableWord 32 0x00010204 = some (.setone 2 1) ∧ decodeTableWord 32 0x100000005 = some .resetv ∧
    decodeTableWord 32 0 = none := by decide

/-- The first step after reset runs the placed word. -/
theorem test_withFetchWord_runs_next :
    view (fun t => (t.cv, t.seq, t.inputs)) (step (State.reset.withFetchWord 32 0x00000006)) =
      some (vec 1 0 0 0 0 0 0 0, Seq.idle, []) := by decide

/-! ## The six LED commands -/

/-- V1, last row. -/
theorem test_encode_clamps : view (fun t => (t.sr, t.cv, t.data, t.events.length, statusWord t))
    (exec .encode (withVec (vec 4 (-1) 3 7 1 (-128) 127 2))) =
      some (0x8130, vec 4 (-1) 3 7 1 (-128) 127 2, true, 0, 0) := by decide

/-- V1, `[0,1,2,3,0,1,2,3]`. -/
theorem test_encode_every_code :
    view (fun t => t.sr) (exec .encode (withVec (vec 0 1 2 3 0 1 2 3))) = some 0xE4E4 := by decide

/-- V2, `[-1,2,3,0,...]`. -/
theorem test_advance_passes_over_values_that_are_not_zero :
    view (fun t => (t.cv, t.sr, t.events.length)) (exec .advance (withVec (vec (-1) 2 3 0 0 0 0 0))) =
      some (vec (-1) 2 3 1 0 0 0 0, 0, 0) := by decide

/-- V2, the ninth call. -/
theorem test_advance_full_vector :
    view (fun t => t.cv) (exec .advance (withVec (vec 1 1 1 1 1 1 1 1))) = some (vec 1 1 1 1 1 1 1 1) := by decide

/-- V2, last row. -/
theorem test_resetv : view (fun t => (t.cv, t.events.length, statusWord t))
    (exec .resetv (withVec (vec 4 (-1) 3 7 1 (-128) 127 2))) = some (vec 0 0 0 0 0 0 0 0, 0, 0) := by decide

/-- V3, row 0x8001, DATA 1 before. -/
theorem test_transmit : view (fun t => (t.sr, t.clk, t.data, t.ledrx, t.events.length))
    (exec .transmit { withVec (vec 0 0 0 0 0 0 0 0) with sr := 0x8001 }) =
      some (0, false, true, 0x8001, 81) := by decide

/-- V3, row 0xA5C3: the data sampled over the 32 pulses. -/
theorem test_transmit_sampled_data : view (fun t => sampledData (false, true) t.history)
    (exec .transmit { withVec (vec 0 0 0 0 0 0 0 0) with sr := 0xA5C3 }) =
      some (List.replicate 16 false ++ [true, false, true, false, false, true, false, true,
        true, true, false, false, false, false, true, true]) := by decide

/-- R60's example: the pattern 0x0015. -/
theorem test_setall : view (fun t => (t.sr, t.data, t.ledrx, t.cv, t.events.length))
    (exec .setall (withVec (vec 1 1 1 0 0 0 0 0))) =
      some (0, true, 0x0015, vec 1 1 1 0 0 0 0 0, 81) := by decide

/-- V4, first row: not additive, CV untouched. -/
theorem test_setone_not_additive : view (fun t => (t.ledrx, t.data, t.cv, statusWord t))
    (exec (.setone 2 1) { withVec (vec 0 0 0 0 0 2 0 0) with ledrx := 0x0800 }) =
      some (0x0010, false, vec 0 0 0 0 0 2 0 0, 0) := by decide

/-- V4, `SETONE 2, 4`: the whole vector off, the frame still sent. -/
theorem test_setone_colour_out_of_range : view (fun t => (t.ledrx, t.hid.tv, t.events.length))
    (exec (.setone 2 4) (withVec (vec 0 0 0 0 0 2 0 0))) = some (0, vec 0 0 0 0 0 0 0 0, 81) := by decide

/-- V3: the receiver after the first two clear pulses. -/
theorem test_receiver_during_clear :
    (runLed (.dataSet false :: pulseMicros) start).ledrx = 0x7DDE ∧
    (runLed (.dataSet false :: (pulseMicros ++ pulseMicros)) start).ledrx = 0xFBBC := by decide

/-- R58, R59 corner case (a): 32 pulses and no data change on the wire. -/
theorem test_waveform_of_the_zero_frame :
    waveform (false, false) (frameEvents 0) = (List.replicate 32 [(true, false), (false, false)]).flatten := by decide

/-- R21: both lines are low when active. -/
theorem test_lines_are_active_low : lineLevel true = .low ∧ lineLevel false = .high := by decide

/-! ## Arithmetic -/

/-- V5. -/
theorem test_att : att 7 = 5 ∧ att (-7) = -5 ∧ att (-5) = -4 ∧ att 100 = 80 ∧ att (-9) = -7 ∧ att 12345 = 9876 ∧
    att (-12345) = -9876 ∧ att 32766 = 26212 ∧ att (-32768) = -26214 := by decide

/-- V6. -/
theorem test_mix : mix 300 100 = 380 ∧ mix 32767 2 = -32768 ∧ mix (-32768) (-2) = 32767 ∧
    mix 30000 30000 = -11536 ∧ mix (-32768) (-32768) = 6554 ∧ mix 5 (-7) = 0 ∧ mix 6555 32767 = -32768 := by decide

/-- V6 through the three stages. -/
theorem test_mixSample : mixSample 0x7FFF 0x7FFF = 0xE664 ∧ mixSample (BitVec.ofInt 16 (-400)) (BitVec.ofInt 16 (-200)) = 0xFDD0
    := by decide

/-- V7. -/
theorem test_lenOk : lenOk 0 64 = false ∧ lenOk 7 64 = false ∧ lenOk 8 64 = true ∧ lenOk 12 64 = false ∧
    lenOk 64 64 = true ∧ lenOk 65 64 = false ∧ lenOk 72 64 = false ∧ lenOk 4294967288 64 = false := by decide

/-! ## Streaming -/

theorem test_capture_rejected_after_reset : view (fun t => (statusWord t, t.seq)) (exec .capture start) =
    some (2, Seq.idle) := by decide

theorem test_capture_stores_the_first_sub_sample :
    view (fun t => (Memory.get t.sb 1, t.seq.k, t.seq.blk))
      (step { at8 .capture 2 4 with hid := { Hidden.zero with rxa := 20, rxb := 0xFFFE } }) =
      some (some 20, 5, 2) := by decide

theorem test_playback_accepted : view (fun t => (statusWord t, t.seq, t.events.length)) (exec (.playback true) (withLen 8)) =
    some (1, { op := some (.playback true), blk := 0, k := 0, len := 8 }, 0) := by decide

/-- P4, frame 8: the tap is SB[0]. -/
theorem test_playback_tap :
    view (fun t => (t.hid.mb, t.events)) (step { at8 (.playback true) 9 1 with sb := [(0, 100), (4, 300)] }) =
      some (100, [.memRead 0 100]) := by decide

/-- P4: what the sixteen frames carry. -/
theorem test_playbackSample :
    ((List.range 16).map (playbackSample true 8
      (fun j => ([100, -100, 200, -200, 300, -300, 400, -400] : List Int).getD j 0))).map BitVec.toInt =
      [100, 0, -100, 0, 200, 0, -200, 0, 380, 0, -380, 0, 560, 0, -560, 0] := by decide

/-- R68: an RxWait that does not pass. -/
theorem test_rxWait_holds :
    view id (seqStep
      { at8 .capture 1 0 with chan := { rxReady := false, rxData := 0, txReady := true, rxNext := [] } }) =
      some { at8 .capture 1 0 with chan := { rxReady := false, rxData := 0, txReady := true, rxNext := [] } } := by decide

/-- The end of a list: SEQ returns to `(IDLE, 0)`. -/
theorem test_last_micro_of_playback : view (fun t => t.seq) (step (at8 (.playback false) 16 1)) = some Seq.idle := by decide

/-! ## Host -/

theorem test_host_writes_a_slot_from_its_low_byte :
    view (fun t => t.cv) (step { start with inputs := [.host (.regWrite 13 0xABCD0102)] }) =
      some (vec 0 0 0 0 0 2 0 0) := by decide

theorem test_host_reads_a_slot_sign_extended :
    view (fun t => t.events) (step { withVec (vec 0 0 0 0 0 0 0 (-1)) with inputs := [.host (.regRead 15)] }) =
      some [.regRead 15 0xFFFFFFFF] := by decide

theorem test_host_reserved_register_refused :
    refusal (step { start with inputs := [.host (.regRead 4)] }) = some (.reservedRegister 4) ∧
    refusal (step { start with inputs := [.host (.sbWrite 64 0)] }) = some (.sbIndexOutside 64) := by decide

theorem test_script_lines :
    scriptInputs [.command (.setone 2 1)] = [.host (.regWrite 0 0x00010204), .hostWait] ∧
    scriptInputs [.wr .cmd 9] = [.host (.regWrite 0 9)] ∧
    (Pseudo.transmitI 0x8001).lines = [.wr .sr 0x8001, .command .transmit] ∧
    scriptInputs (Pseudo.setVec (vec 0 0 0 0 0 2 0 0)).lines =
      [.host (.regWrite 8 0), .host (.regWrite 9 0), .host (.regWrite 10 0), .host (.regWrite 11 0),
        .host (.regWrite 12 0), .host (.regWrite 13 2), .host (.regWrite 14 0), .host (.regWrite 15 0)] := by decide

/-! ## Witnesses: a concrete state and operands that meet the hypotheses of each statement -/

theorem test_witness_MaskAndMatchSelectTheOperation :
    decode 0x00000108 = .ok (.playback true) ∧
    (0x00000108 : Word) &&& opcodeMask (.playback false) = opcodeMatch (.playback false) ∧
    (0x00000108 : Word) &&& opcodeMask (.playback true) = opcodeMatch (.playback true) := by decide

theorem test_witness_OperandFieldsAreAssembled :
    decode 0x0003FF04 = .ok (.setone (-1) 3) ∧ decode 0x00000108 = .ok (.playback true) := by decide

theorem test_witness_DecodeOfEncodeIsIdentity :
    (Instr.setone (-128) 127).wellFormed = true ∧ (Instr.playback true).wellFormed = true := by decide

theorem test_witness_EncodeOfDecodeIsIdentity : decode 0x007F8004 = .ok (.setone (-128) 127) := by decide

/-- `start` about to receive a host write to CMD. -/
def writing (w : Word) : State := { start with inputs := [.host (.regWrite 0 w)] }

theorem test_witness_IllegalWordsAreListedAndRejected :
    (writing 0).busy = false ∧ (¬ ∃ i, decode 0 = .ok i) ∧ (writing 0).inputs = .host (.regWrite 0 0) :: [] ∧
    ({ start with inputs := [.hostStepped 0] } : State).busy = false := by
  refine ⟨by decide, ?_, rfl, rfl⟩
  rw [show decode 0 = .error (.unknownOperation 0) by decide]
  simp

theorem test_witness_StepRunsTheDecodedCommand :
    (writing 7).inputs = .host (.regWrite 0 7) :: [] ∧ decode 7 = .ok .capture ∧ Instr.capture.streaming = true ∧
    decode 5 = .ok .resetv ∧ Instr.resetv.streaming = false ∧ start.busy = false ∧ start.inputs = [] ∧
    ({ start with inputs := [.hostStepped 5] } : State).inputs = .hostStepped 5 :: [] ∧
    ({ start with inputs := [.seq] } : State).inputs = .seq :: [] := by decide

/-- HOST's stepped write of RESETV is accepted, and the turn of SEQ after it clears the first slot (R14, R54). -/
theorem test_stepped_command :
    view (fun t => (t.seq, t.cv)) (step { withVec (vec 1 2 0 0 0 0 0 0) with inputs := [.hostStepped 5] }) =
      some ({ op := some .resetv, blk := 0, k := 0, len := 0 }, vec 1 2 0 0 0 0 0 0) ∧
    view (fun t => (t.seq.k, t.cv, t.inputs)) (step { withVec (vec 1 2 0 0 0 0 0 0) with
      seq := { op := some .resetv, blk := 0, k := 0, len := 0 }, inputs := [.seq] }) =
      some (1, vec 0 2 0 0 0 0 0 0, []) := by decide

theorem test_witness_FetchWordIsRunNext : decodeTableWord 32 0x00808004 = some (.setone (-128) (-128)) := by decide

/-- A block that CAPTURE keeps busy, about to see one input. -/
def busyWith (i : Input) : State := { at8 .capture 1 0 with inputs := [i] }

theorem test_witness_BusyBlockIgnoresCommands :
    (busyWith (.host (.regWrite 0 5))).busy = true ∧
    (busyWith (.host (.regWrite 0 5))).inputs = .host (.regWrite 0 5) :: [] ∧
    (busyWith (.hostStepped 5)).busy = true ∧ (busyWith (.hostStepped 5)).inputs = .hostStepped 5 :: [] ∧
    (busyWith (.host (.regRead 0))).inputs = .host (.regRead 0) :: [] := by decide

/-- One witness for each way to break LenOk, at its boundary. -/
theorem test_witness_BadLengthIsRejected :
    Instr.capture.streaming = true ∧ (Instr.playback true).streaming = true ∧
    (withLen 7).busy = false ∧ (withLen 7).len.toNat < 8 ∧
    (withLen 15).len.toNat % 8 ≠ 0 ∧ (withLen 15).params.sbDepth ≥ (withLen 15).len.toNat ∧
    (withLen 72).params.sbDepth < (withLen 72).len.toNat ∧ (withLen 72).len.toNat % 8 = 0 := by decide

theorem test_witness_IllegalWordComesBeforeBadLength :
    (writing 0).busy = false ∧ (writing 0).inputs = .host (.regWrite 0 0) :: [] ∧
    view (fun t => (t.illCmd, t.cfgErr)) (step (writing 0)) = some (true, false) ∧
    view (fun t => (t.illCmd, t.cfgErr)) (step (writing 7)) = some (false, true) := by decide

theorem inv_start (v : Slots) (l : List Input) : ({ start with cv := v, inputs := l } : State).Inv := by
  refine ⟨?_, ⟨rfl, ?_⟩, ⟨?_, ?_⟩, rfl, ?_⟩
  · change 2 * 64 < 2 ^ 32; decide
  · intro j x h; change none = some x at h; cases h
  · simp [start, State.reset]
  · simp [start, State.reset, State.busy, Seq.idle]
  · unfold State.clkSound; simp [start, State.reset, State.takenMicros, Seq.idle]

/-- A sound state for each clause at its boundary: registers 4, 7 and 16, index SB_DEPTH; 3, 8 and 15 and the last
index of SB are not refused. -/
theorem test_witness_SoundStatesStopOnlyAtReservedHostAccesses :
    ({ start with cv := vec 0 0 0 0 0 0 0 0, inputs := [.host (.regRead 7)] } : State).Inv ∧
    refusal (step { start with inputs := [.host (.regRead 7)] }) = some (.reservedRegister 7) ∧
    refusal (step { start with inputs := [.host (.regWrite 16 0)] }) = some (.reservedRegister 16) ∧
    refusal (step { start with inputs := [.host (.regWrite 4 0)] }) = some (.reservedRegister 4) ∧
    refusal (step { start with inputs := [.host (.sbRead 64)] }) = some (.sbIndexOutside 64) ∧
    refusal (step { start with inputs := [.host (.sbWrite 64 0)] }) = some (.sbIndexOutside 64) ∧
    refusal (step { start with inputs := [.host (.regWrite 3 0)] }) = none ∧
    refusal (step { start with inputs := [.host (.regWrite 8 0)] }) = none ∧
    refusal (step { start with inputs := [.host (.regWrite 15 0)] }) = none ∧
    refusal (step { start with inputs := [.host (.sbWrite 63 0)] }) = none :=
  ⟨inv_start _ _, by decide, by decide, by decide, by decide, by decide, by decide, by decide, by decide, by decide⟩

/-- The hypotheses `isIdle`, `clk = false`, `inputs = []` of the LED statements: ResetvClearsEverySlot,
EncodeLoadsTheClampedSum, TransmitSendsOneFrame, SetallSendsTheVector, SetallEqualsEncodeThenTransmit,
SetoneSendsOneSlotOrNone, LedsShowTheVectorSent, ReceiverShowsThePartialPictures, SamplingEdgeIsUnobservable,
ProgressFillsLeftToRight, IdleBlockDoesNothing. -/
theorem test_witness_idle_states (v : Slots) :
    (withVec v).isIdle ∧ (withVec v).clk = false ∧ (withVec v).inputs = [] := ⟨rfl, rfl, rfl⟩

theorem test_witness_AdvanceLightsTheFirstOffSlot :
    (withVec (vec 1 2 3 4 5 6 7 0)).isIdle ∧ (withVec (vec 1 2 3 4 5 6 7 0)).cv[(7 : Fin 8)] = 0 ∧
    (∀ j : Fin 8, j < 7 → (withVec (vec 1 2 3 4 5 6 7 0)).cv[j] ≠ 0) ∧
    (withVec (vec 0 0 0 0 0 0 0 0)).cv[(0 : Fin 8)] = 0 ∧
    (∀ k : Fin 8, (withVec (vec 1 2 3 4 5 6 7 (-8))).cv[k] ≠ 0) := ⟨rfl, by decide, by decide, by decide, by decide⟩

theorem test_witness_ShiftPatternIsTheClampedVector :
    (∀ k : Fin 8, 0 ≤ (vec 0 1 2 3 0 1 2 3)[k].toInt ∧ (vec 0 1 2 3 0 1 2 3)[k].toInt < 4) ∧
    packVector (vec 0 1 2 3 0 1 2 3) = 0xE4E4 := by decide

/-- RESETV, ADVANCE, SETALL: a run that meets the premises with a result. -/
theorem test_witness_LedCommandsNeverLeaveAGap :
    start.isIdle ∧ (∀ c ∈ [Instr.advance, Instr.setall], c.streaming = false ∧ c ≠ .resetv) ∧
    view (fun t => t.cv) (runCommands [.resetv, .advance, .setall] start) = some (progressVector 1) :=
  ⟨rfl, by decide, by decide⟩

theorem test_witness_EveryLinkCommandIsAGlitchFreeFrame :
    start.isIdle ∧ start.clk = false ∧ (view (fun t => t.clk) (exec .transmit start)).isSome = true ∧
    (view (fun t => t.clk) (exec .setall start)).isSome = true ∧
    (view (fun t => t.clk) (exec (.setone 8 (-1)) start)).isSome = true :=
  ⟨rfl, rfl, by decide, by decide, by decide⟩

/-- The three ranges of MixWrapsSilently at their boundaries (V6), and the samples of absolute value 1. -/
theorem test_witness_MixWrapsSilently :
    (6554 : Int) + att 32767 = 32767 ∧ (6555 : Int) + att 32767 = 32768 ∧ (-6554 : Int) + att (-32768) = -32768 ∧
    (-6555 : Int) + att (-32768) = -32769 ∧ (1 : Int).natAbs ≤ 1 ∧ (-1 : Int).natAbs ≤ 1 := by decide

theorem test_witness_AttenuationTruncatesTowardZero :
    (0 : Int) ≤ 7 ∧ (-7 : Int) ≤ 0 ∧ (0 : Int) ≤ 0 := by decide

theorem test_witness_DelayTapStaysInTheFirstHalf :
    lenOk 8 64 = true ∧ (8 ≤ 8 ∧ 8 < 2 * 8 ∧ 8 % 2 = 0) ∧ (8 ≤ 14 ∧ 14 < 2 * 8 ∧ 14 % 2 = 0) := by decide

theorem test_witness_LenOkConsequences : lenOk 8 8 = true ∧ lenOk 8 7 = false := by decide

theorem test_witness_StreamingCommandIsAccepted :
    Instr.capture.streaming = true ∧ (Instr.playback true).streaming = true ∧ (withLen 8).isIdle ∧
    lenOk (withLen 8).len.toNat (withLen 8).params.sbDepth = true ∧
    lenOk (withLen 64).len.toNat (withLen 64).params.sbDepth = true := ⟨rfl, rfl, rfl, by decide, by decide⟩

theorem test_witness_CaptureStoresTheFirstOfEachPair :
    (withLen 8).isIdle ∧ (withLen 8).clk = false ∧ (withLen 8).inputs = [] ∧ (withLen 8).chan.rxReady = true ∧
    lenOk (withLen 8).len.toNat (withLen 8).params.sbDepth = true := ⟨rfl, rfl, rfl, rfl, by decide⟩

/-- P4's buffer. -/
def p4 : State :=
  { withLen 8 with sb := [(0, 100), (1, -100), (2, 200), (3, -200), (4, 300), (5, -300), (6, 400), (7, -400)] }

theorem test_witness_PlaybackSendsTheBuffer :
    p4.isIdle ∧ p4.clk = false ∧ p4.inputs = [] ∧ p4.chan.txReady = true ∧
    lenOk p4.len.toNat p4.params.sbDepth = true ∧
    ∀ j, j < p4.len.toNat → Memory.get p4.sb j = some (([100, -100, 200, -200, 300, -300, 400, -400] : List Sample).getD j 0) :=
  ⟨rfl, rfl, rfl, rfl, by decide, by decide⟩

/-- A block at RxWait, at TxWait, and at a micro-operation that is no wait. -/
theorem test_witness_WaitsHoldUntilReady :
    (at8 .capture 1 0).seq.op = some .capture ∧ (at8 .capture 1 0).nextMicro = some .rxWait ∧
    (at8 (.playback true) 2 1).seq.op = some (.playback true) ∧ (at8 (.playback true) 2 1).nextMicro = some .txWait ∧
    (at8 .capture 1 0).chan.rxReady = true ∧ (at8 (.playback true) 2 1).chan.txReady = true ∧
    (at8 .capture 1 1).nextMicro = some .rxTakeA := by decide

theorem inv_at8 : (at8 .capture 1 1).Inv := by
  refine ⟨?_, ⟨rfl, ?_⟩, ⟨?_, ?_⟩, ?_, ?_⟩
  · unfold State.paramsSound; decide
  · intro j x h; change none = some x at h; cases h
  · simp [at8, start, State.reset]
  · simp [at8, start, State.reset]
  · exact ⟨rfl, fun _ => by decide, by decide, by decide⟩
  · unfold State.clkSound; decide

/-- A sound busy state, for WaitsHoldUntilReady's last clause and SequencerFollowsTheList. -/
theorem test_witness_SequencerFollowsTheList :
    (at8 .capture 1 1).Inv ∧ (at8 .capture 1 1).seqSound ∧ (at8 .capture 1 1).seq.op = some .capture ∧
    Micro.rxTakeA.enabled (at8 .capture 1 1) = true ∧
    (view (fun t => t.seq.k) (seqStep (at8 .capture 1 1))) = some 2 := ⟨inv_at8, inv_at8.2.2.2.1, by decide, by decide, by decide⟩

theorem test_witness_OnlyWaitsReadTheReadyFlags :
    (at8 .capture 1 1).nextMicro ≠ some .rxWait ∧ (at8 .capture 1 1).nextMicro ≠ some .txWait ∧
    (view (fun t => t.seq.k) (seqStep (at8 .capture 1 1))) = some 2 := by decide

theorem test_witness_SteppedLedCommandEqualsItsBigStep :
    start.isIdle ∧ start.inputs = [] ∧ (Instr.setone 7 3).streaming = false ∧ Instr.advance.streaming = false :=
  ⟨rfl, rfl, rfl, rfl⟩

theorem test_witness_CommandsLeaveTheRestAlone :
    (withLen 8).isIdle ∧ (view (fun t => t.len) (exec .capture (withLen 8))) = some 8 ∧
    (view (fun t => t.len) (exec (.setone 0 1) (withLen 8))) = some 8 := ⟨rfl, by decide, by decide⟩

theorem test_witness_SequencerTurnFrame :
    (at8 .capture 2 4).nextMicro = some (.storeA 1) ∧
    (view (fun t => Memory.get t.sb 1) (seqStep (at8 .capture 2 4))) = some (some 0) ∧
    (at8 (.playback false) 1 0).seq.op ≠ some .capture ∧ (at8 .capture 0 0).nextMicro = some (.led (.cvClear 0)) ∧
    (at8 .capture 1 5).nextMicro = some (.led .cvAdvance) ∧
    (view (fun t => t.seq.k) (seqStep (at8 .capture 0 0))) = some 1 := by decide

/-- SEQ at place `k` of a command's first block. -/
def atLed (i : Instr) (k : Nat) : State := { start with seq := { op := some i, blk := 0, k := k, len := 0 } }

/-- Each micro-operation of LEDU as the next one of some state: RESETV, ADVANCE, ENCODE, SETONE and TRANSMIT. -/
theorem test_witness_MicroOperationsHaveTheirEffects_led :
    (atLed .resetv 7).nextMicro = some (.led (.cvClear 7)) ∧ (atLed .advance 0).nextMicro = some (.led .cvAdvance) ∧
    (atLed .advance 0).cv[(0 : Fin 8)] = 0 ∧
    (∀ k : Fin 8, ({ atLed .advance 0 with cv := vec 1 2 3 4 5 6 7 8 } : State).cv[k] ≠ 0) ∧
    (atLed .encode 0).nextMicro = some (.led .srClear) ∧ (atLed .encode 1).nextMicro = some (.led (.packCv 7)) ∧
    (atLed (.setone 7 3) 0).nextMicro = some (.led (.tvClear 0)) ∧
    (atLed (.setone 7 3) 8).nextMicro = some (.led (.tvSet 7 3)) ∧
    (atLed (.setone 8 4) 8).nextMicro = some (.led (.tvSet 8 4)) ∧
    (atLed (.setone 7 3) 17).nextMicro = some (.led (.packTv 0)) ∧
    (atLed .transmit 0).nextMicro = some (.led (.dataSet false)) ∧
    (atLed .transmit 1).nextMicro = some (.led (.clkSet true)) ∧
    (atLed .transmit 2).nextMicro = some (.led (.clkSet false)) ∧
    (atLed .transmit 33).nextMicro = some (.led .dataSetSr) ∧
    (atLed .transmit 36).nextMicro = some (.led .srShift) ∧ (atLed .transmit 0).seq.op = some .transmit := by decide

/-- Each micro-operation of STRU and MIXU as the next one of some state, at both ends of SB where it names an index;
CHAN with and without a later value, a word written and a word that was not. -/
theorem test_witness_MicroOperationsHaveTheirEffects_stream :
    (at8 .capture 1 1).nextMicro = some .rxTakeA ∧ (at8 .capture 1 3).nextMicro = some .rxTakeB ∧
    (at8 .capture 1 1).chan.rxNext = [] ∧
    ({ at8 .capture 1 1 with chan := { rxReady := true, rxData := 1, txReady := true, rxNext := [2] } } : State).chan.rxNext
      = 2 :: [] ∧
    (at8 .capture 1 4).nextMicro = some (.storeA 0) ∧ (at8 .capture 8 4).nextMicro = some (.storeA 7) ∧
    7 < (at8 .capture 8 4).params.sbDepth ∧ (at8 (.playback true) 15 0).nextMicro = some (.loadMa 7) ∧
    (at8 (.playback true) 15 1).nextMicro = some (.loadMb 3) ∧ Memory.get (at8 (.playback true) 15 1).sb 3 = none ∧
    Memory.get p4.sb 3 = some (-200) ∧ (at8 (.playback true) 15 2).nextMicro = some .mixMp ∧
    (at8 (.playback true) 15 3).nextMicro = some .mixMq ∧ (at8 (.playback true) 15 4).nextMicro = some .mixMy ∧
    (at8 (.playback true) 15 5).nextMicro = some (.txPut .my) ∧ (at8 (.playback true) 1 1).nextMicro = some (.txPut .ma) ∧
    (at8 (.playback true) 2 0).nextMicro = some (.txPut .zero) := by decide

theorem test_witness_StatusWordHasThreeBits :
    (busyWith (.host (.regRead 1))).inputs = .host (.regRead 1) :: [] := rfl

/-- Each register the two host-port statements speak of, at both ends of CV. -/
theorem test_witness_RegisterWrites_and_RegisterReads (v : Word) (n : Nat) :
    ({ start with inputs := [.host (.regWrite n v)] } : State).busy = false ∧
    ({ start with inputs := [.host (.regWrite n v)] } : State).inputs = .host (.regWrite n v) :: [] ∧
    ({ start with inputs := [.host (.regRead n)] } : State).inputs = .host (.regRead n) :: [] := ⟨rfl, rfl, rfl⟩

theorem test_witness_BusyRule (a : HostAccess) :
    (busyWith (.host a)).busy = true ∧ (busyWith (.host a)).inputs = .host a :: [] ∧
    (63 : Nat) < (busyWith (.host a)).params.sbDepth ∧ start.busy = false := ⟨rfl, rfl, by change 63 < 64; decide, rfl⟩

theorem test_witness_BufferReadReturnsTheLatestWrite (v : Sample) :
    ({ start with inputs := [.host (.sbWrite 63 v), .host (.sbRead 63)] } : State).busy = false ∧
    63 < start.params.sbDepth ∧ Memory.get start.sb 63 = none ∧
    Memory.get ({ start with sb := [(63, v)], inputs := [.host (.sbRead 63)] } : State).sb 63 = some v ∧
    ({ start with sb := [(63, v)], inputs := [.host (.sbRead 63)] } : State).busy = false := ⟨rfl, by decide, rfl, rfl, rfl⟩

theorem test_witness_SetvecLoadsTheVector (v : Slots) :
    ({ start with inputs := scriptInputs (Pseudo.setVec v).lines } : State).busy = false ∧
    ({ start with inputs := scriptInputs (Pseudo.setVec v).lines } : State).inputs =
      scriptInputs (Pseudo.setVec v).lines ++ [] := ⟨rfl, (List.append_nil _).symm⟩

theorem test_witness_WaitAndChannelInputs :
    (busyWith .hostWait).inputs = .hostWait :: [] ∧ (busyWith .hostWait).busy = true ∧
    (view (fun t => t.seq.k) (step (busyWith .hostWait))) = some 1 ∧
    ({ start with inputs := [.hostWait] } : State).busy = false ∧
    (busyWith (.chan true 5 false)).inputs = .chan true 5 false :: [] := by decide

theorem test_witness_ResetInputClearsTheBlock :
    (busyWith .reset).inputs = .reset :: [] ∧ (busyWith .reset).clk = false := ⟨rfl, rfl⟩

/-- A sound state whose step goes on, for StepKeepsTheInvariant and StepKeepsTheParameters. -/
theorem test_witness_StepKeepsTheInvariant :
    (at8 .capture 1 1).Inv ∧ (view (fun t => t.seq.k) (step (at8 .capture 1 1))) = some 2 := ⟨inv_at8, by decide⟩

/-- The premises of the two history statements in one state, before a step that moves a pin. -/
theorem test_witness_history_statements :
    ({ start with cv := vec 1 0 0 0 0 0 0 0, inputs := [.host (.regWrite 0 3)] } : State).Inv ∧
    ({ start with cv := vec 1 0 0 0 0 0 0 0, inputs := [.host (.regWrite 0 3)] } : State).pinsRecorded ∧
    ({ start with cv := vec 1 0 0 0 0 0 0 0, inputs := [.host (.regWrite 0 3)] } : State).pulsesSound ∧
    glitchFree (false, false)
      ({ start with cv := vec 1 0 0 0 0 0 0 0, inputs := [.host (.regWrite 0 3)] } : State).history = true ∧
    (view (fun t => t.events.length)
      (step { start with cv := vec 1 0 0 0 0 0 0 0, inputs := [.host (.regWrite 0 3)] })) = some 81 :=
  ⟨inv_start _ _, rfl, rfl, rfl, by decide⟩

end Sys2Proof.Tests
end

section
/-! PROOFS. The reset state (spec/10_state.md R26). -/

namespace Sys2Proof.Machine

open Sys2Proof

/-- The state after reset is idle (R26's row for SEQ). -/
theorem State.reset_isIdle : State.reset.isIdle := rfl

/-- STATUS reads 0 when the block is idle and neither error bit is set (R17). -/
theorem statusWord_eq_zero {s : State} (hidle : s.isIdle) (hcfg : s.cfgErr = false) (hill : s.illCmd = false) :
    statusWord s = 0 := by
  rw [statusWord, hill, hcfg, hidle.not_busy]
  decide

/-- Settles O53: STATUS is 0 because the reset state is idle with both error bits clear, SB holds no word because it is
the empty memory, and the other values are fields of `State.reset`. -/
theorem resetValues : Obligations.ResetValues := by
  have hstatus : statusWord State.reset = 0 := statusWord_eq_zero State.reset_isIdle rfl rfl
  exact ⟨rfl, rfl, rfl, hstatus, State.reset_isIdle, rfl, rfl, Memory.get_nil⟩

end Sys2Proof.Machine
end

section
/-! PROOFS. The ShiftPattern of a colour vector and the frame that carries it (spec/30_encoding.md R42, R43). -/

namespace Sys2Proof.Machine

open Sys2Proof

/-! ## The packer's value in base 4 -/

/-- Packing any at most eight slots gives the number whose base-4 digits are their codes, the first slot the lowest. -/
theorem foldr_packStep_toNat (v : Slots) (ks : List (Fin 8)) (hlen : ks.length ≤ 8) :
    (ks.foldr (fun k p => packStep p v[k]) 0).toNat = Nat.ofDigits 4 (ks.map fun k => (slotCode v[k]).toNat) := by
  induction ks with
  | nil => rfl
  | cons k ks ih =>
    rw [List.length_cons] at hlen
    have hrest := ih (by omega)
    have hdigits : ∀ d ∈ ks.map fun k => (slotCode v[k]).toNat, d < 4 := by
      intro d hd
      obtain ⟨j, -, rfl⟩ := List.mem_map.mp hd
      exact (slotCode v[j]).isLt
    have hbound := Nat.ofDigits_lt_base_pow_length (by omega) hdigits
    rw [List.length_map] at hbound
    have hfits : 4 ^ ks.length ≤ 4 ^ 7 := Nat.pow_le_pow_right (by omega) (by omega)
    rw [List.foldr_cons, packStep_toNat _ _ (by omega), hrest, List.map_cons, Nat.ofDigits_cons,
      Nat.mul_comm, Nat.add_comm]

/-- The pattern of a vector is the sum of its slots' codes, slot `k` with weight `4 ^ k` (R42). -/
theorem packVector_toNat (v : Slots) : (packVector v).toNat = ∑ k : Fin 8, (slotCode v[k]).toNat * 4 ^ k.val := by
  rw [packVector, List.foldl_reverse, foldr_packStep_toNat v slotIndices (by decide), Fin.sum_univ_eight]
  simp only [slotIndices, List.map_cons, List.map_nil, Nat.ofDigits_cons, Nat.ofDigits_nil, Fin.coe_ofNat_eq_mod,
    Nat.reduceMod, Nat.reducePow]
  omega

/-! ## Clamped vectors and patterns -/

/-- A stored code widened to a slot is sent as itself. -/
@[simp] theorem slotCode_setWidth (c : BitVec 2) : slotCode (c.setWidth 8) = c := by revert c; decide

/-- A stored code, read as a slot, is in 0..3. -/
theorem setWidth_toInt_range (c : BitVec 2) : 0 ≤ (c.setWidth 8).toInt ∧ (c.setWidth 8).toInt < 4 := by
  revert c; decide

/-- A slot in 0..3 is its own code. -/
theorem setWidth_slotCode {x : Slot} (h : 0 ≤ x.toInt ∧ x.toInt < 4) : (slotCode x).setWidth 8 = x := by
  revert x; decide

/-- Every pattern is the pattern of its own fields (R42). -/
@[simp] theorem packVector_unpackPattern (p : Pattern) : packVector (unpackPattern p) = p :=
  pattern_ext fun k => by rw [patternSlot_packVector, unpackPattern_slot, slotCode_setWidth]

/-- A vector with all slots in 0..3 is given back by the fields of its pattern (R42). -/
theorem unpackPattern_packVector {v : Slots} (h : ∀ k : Fin 8, 0 ≤ v[k].toInt ∧ v[k].toInt < 4) :
    unpackPattern (packVector v) = v := by
  refine Vector.ext fun i hi => ?_
  have hslot := unpackPattern_slot (packVector v) ⟨i, hi⟩
  rw [patternSlot_packVector, setWidth_slotCode (h ⟨i, hi⟩)] at hslot
  exact hslot

/-- Settles O17: the packer's digits are the clamped slots, and on vectors with all slots in 0..3 `unpackPattern` is its
two-sided inverse. -/
theorem shiftPatternIsTheClampedVector : Obligations.ShiftPatternIsTheClampedVector := by
  refine ⟨fun v k => ?field, fun v => ?sum, fun p => ⟨unpackPattern p, ⟨fun k => ?range, ?packs⟩, fun u hu hp => ?unique⟩⟩
  case field => rw [patternSlot_packVector, slotCode_toNat]
  case sum =>
    rw [packVector_toNat]
    push_cast
    simp only [slotCode_toNat]
  case range =>
    rw [unpackPattern_slot]
    exact setWidth_toInt_range _
  case packs => exact packVector_unpackPattern p
  case unique => rw [← hp, unpackPattern_packVector hu]

/-! ## The frame on the link -/

/-- Pulse `n` of the second half of a frame carries bit `15 - n` of the pattern (R43). -/
theorem patternBits_getElem? (p : Pattern) {n : Nat} (h : n < 16) : (patternBits p)[n]? = some (p.getLsbD (15 - n)) := by
  simp [patternBits, h]

@[simp] theorem patternBits_length (p : Pattern) : (patternBits p).length = 16 := by simp [patternBits]

/-- Settles O22: the data sampled along a frame are sixteen zeros followed by the pattern's bits, bit 15 first. -/
theorem frameCarriesThePatternMsbFirst : Obligations.FrameCarriesThePatternMsbFirst := by
  intro p d
  rw [sampledData_frameEvents]
  refine ⟨?length, fun n hn => ?zeros, fun n hlo hhi => ?bits⟩
  case length => simp
  case zeros => rw [List.getElem?_append_left (by simpa using hn), List.getElem?_replicate_of_lt hn]
  case bits =>
    have hbit : 15 - (n - 16) = 31 - n := by omega
    rw [List.getElem?_append_right (by simpa using hlo), List.length_replicate,
      patternBits_getElem? p (by omega), hbit]

end Sys2Proof.Machine
end

section
/-! PROOFS. RESETV, ADVANCE and ENCODE as one step of an idle block (spec/40_led_vector.md R54 to R56). -/

namespace Sys2Proof.Machine

open Sys2Proof

/-! ## The next state of each command -/

/-- LEDU does not move SEQ: its micro-operations commute with writing the position the state already has. -/
theorem runLed_seq (ms : List LedMicro) (s : State) : (runLed ms s).seq = s.seq := by
  have hsame : s.setSeq s.seq = s := rfl
  rw [← hsame, runLed_setSeq, State.setSeq_seq, State.setSeq_seq]

/-- An LED command on an idle block leaves what its micro-operations make of the state, with both error bits 0 (R53). -/
theorem exec_led_idle_eq {i : Instr} (hs : i.streaming = false) {s : State} (h : s.isIdle) :
    exec i s = .next { runLed (ledMicros i) s with cfgErr := false, illCmd := false } := by
  have hseq : (runLed (ledMicros i) s).seq = Seq.idle := (runLed_seq _ s).trans h
  rw [exec_led_idle hs h, ← hseq]
  rfl

/-- RESETV on an idle block (R54). -/
theorem exec_resetv_idle {s : State} (h : s.isIdle) :
    exec .resetv s = .next { s with cv := Vector.replicate 8 0, cfgErr := false, illCmd := false } := by
  rw [exec_led_idle_eq rfl h, ledMicros, runLed_resetv]

/-- ADVANCE on an idle block (R55). -/
theorem exec_advance_idle {s : State} (h : s.isIdle) :
    exec .advance s = .next { s with cv := advanceVector s.cv, cfgErr := false, illCmd := false } := by
  rw [exec_led_idle_eq rfl h, ledMicros, runLed_advance]

/-- ENCODE on an idle block (R56). -/
theorem exec_encode_idle {s : State} (h : s.isIdle) :
    exec .encode s = .next { s with sr := packVector s.cv, cfgErr := false, illCmd := false } := by
  rw [exec_led_idle_eq rfl h, ledMicros, runLed_encode]

/-- The pattern of a vector is the sum of its clamped slots, slot `k` with weight `4 ^ k`, as a 16-bit word (R42). -/
theorem packVector_eq_ofInt (v : Slots) :
    packVector v = BitVec.ofInt 16 (∑ k : Fin 8, clamp v[k].toInt * 4 ^ k.val) := by
  have hsum : ∑ k : Fin 8, clamp v[k].toInt * 4 ^ k.val = ((packVector v).toNat : Int) := by
    rw [packVector_toNat]
    push_cast
    simp only [slotCode_toNat]
  rw [hsum, BitVec.ofInt_natCast, BitVec.ofNat_toNat, BitVec.setWidth_eq]

/-! ## The obligations -/

/-- Settles O15: with the first slot equal to 0 at `k` the scan writes slot `k`, and without one it writes nothing. -/
theorem advanceLightsTheFirstOffSlot : Obligations.AdvanceLightsTheFirstOffSlot := by
  intro s hidle
  refine ⟨fun k hk hbelow => ?first, fun hnone => ?none⟩
  case first => rw [exec_advance_idle hidle, advanceVector_first hk hbelow]
  case none => rw [exec_advance_idle hidle, advanceVector_none hnone]

/-- Settles O16: ENCODE leaves the packed vector in SR, which is the sum of the clamped slots. -/
theorem encodeLoadsTheClampedSum : Obligations.EncodeLoadsTheClampedSum := by
  intro s hidle
  rw [exec_encode_idle hidle, packVector_eq_ofInt]

/-- Settles O14: the state after RESETV is idle again, and clearing a cleared vector gives the same state. -/
theorem resetvClearsEverySlot : Obligations.ResetvClearsEverySlot := by
  intro s hidle
  refine ⟨exec_resetv_idle hidle, fun t ht => ?_⟩
  rw [exec_resetv_idle hidle] at ht
  cases ht
  exact exec_resetv_idle hidle

end Sys2Proof.Machine
end

section
/-! PROOFS. SETALL as one step of an idle block with CLK 0 (spec/41_led_link.md R60). -/

namespace Sys2Proof.Machine

open Sys2Proof

/-- Bit 0 of a slot's code is 1 exactly for the stored values 1 and 3: any value outside 0..3 is sent as 0 (R41, R42). -/
theorem slotCode_getLsbD_zero (x : Slot) : (slotCode x).getLsbD 0 = decide (x = 1 ∨ x = 3) := by
  revert x; decide

/-- Bit 0 of a pattern is bit 0 of the field of slot 0. -/
theorem patternSlot_zero_getLsbD_zero (p : Pattern) : (patternSlot p 0).getLsbD 0 = p.getLsbD 0 := by
  simp [patternSlot]

/-- The last bit of a packed vector on the link is bit 0 of slot 0's code (R60). -/
theorem packVector_getLsbD_zero (v : Slots) : (packVector v).getLsbD 0 = decide (v[0] = 1 ∨ v[0] = 3) := by
  rw [← patternSlot_zero_getLsbD_zero, patternSlot_packVector, slotCode_getLsbD_zero]
  rfl

/-- SETALL on an idle block with CLK 0: one frame that carries the packed vector (R60). -/
theorem exec_setall_idle {s : State} (h : s.isIdle) (hclk : s.clk = false) :
    exec .setall s = .next { s with
      sr := 0, data := decide (s.cv[0] = 1 ∨ s.cv[0] = 3), ledrx := packVector s.cv, cfgErr := false, illCmd := false
      events := (frameEvents (packVector s.cv)).reverse ++ s.events } := by
  rw [exec_led_idle_eq rfl h, ledMicros, runLed_setall hclk, packVector_getLsbD_zero]

/-- Settles O23: the frame SETALL sends carries the packed vector, which is the sum of the clamped slots, and DATA stays
at its last bit, bit 0 of slot 0's code. -/
theorem setallSendsTheVector : Obligations.SetallSendsTheVector := by
  intro s hidle hclk
  exact ⟨packVector s.cv, packVector_eq_ofInt s.cv, exec_setall_idle hidle hclk⟩

end Sys2Proof.Machine
end

section
/-! PROOFS. What a turn of SEQ answers: only a wait can hold it, and in a sound state every SB access of a list lies
inside SB (spec/42_stream.md R68, spec/10_state.md R14, R22). -/

namespace Sys2Proof.Machine

open Sys2Proof

/-! ## The indices of SB in a list -/

/-- The index of SB a micro-operation accesses, when it accesses SB (R66, R67, R73). -/
def Micro.sbIndex? : Micro → Option Nat
  | .storeA j | .loadMa j | .loadMb j => some j
  | _ => none

/-- LEDU accesses no SB. -/
@[simp] theorem Micro.sbIndex?_led (l : LedMicro) : (Micro.led l).sbIndex? = none := rfl

/-- An access inside SB is the only thing a micro-operation needs to answer a next state (R29). -/
theorem micro_next {m : Micro} {s : State} (h : ∀ j, m.sbIndex? = some j → j < s.params.sbDepth) :
    ∃ t, micro m s = .next t := by
  cases m with
  | storeA j => exact ⟨_, if_pos (h j rfl)⟩
  | loadMa j => exact ⟨_, if_pos (h j rfl)⟩
  | loadMb j => exact ⟨_, if_pos (h j rfl)⟩
  | _ => exact ⟨_, rfl⟩

/-- A tick is LEDU's work only: it accesses no SB (R65). -/
theorem sbIndex?_ne_of_mem_tickIfDue {m : Micro} {i p : Nat} (h : m ∈ tickIfDue i p) (j : Nat) :
    m.sbIndex? ≠ some j := by
  unfold tickIfDue at h
  split_ifs at h
  · obtain ⟨l, -, rfl⟩ := List.mem_map.1 h
    simp
  · exact absurd h List.not_mem_nil

/-- Iteration `n` of CAPTURE accesses the word `n` only (R66). -/
theorem sbIndex?_of_mem_captureBody {m : Micro} {len n j : Nat} (h : m ∈ captureBody len n)
    (hj : m.sbIndex? = some j) : j = n := by
  rcases List.mem_append.1 h with hloop | htick
  · simp only [List.mem_cons, List.not_mem_nil, or_false] at hloop
    rcases hloop with rfl | rfl | rfl | rfl | rfl <;> simp_all [Micro.sbIndex?]
  · exact absurd hj (sbIndex?_ne_of_mem_tickIfDue htick j)

/-- Up to `TxPut`, iteration `n` of PLAYBACK accesses the word of its frame and its delayed tap only (R67, R73). -/
theorem sbIndex?_of_mem_playbackSend {m : Micro} {e : Bool} {len n j : Nat} (h : m ∈ playbackSend e len n)
    (hj : m.sbIndex? = some j) : j = n / 2 ∨ j = delayTap (n / 2) len := by
  unfold playbackSend at h
  split_ifs at h with hodd hecho
  · simp only [List.mem_singleton] at h
    subst h
    simp [Micro.sbIndex?] at hj
  · simp only [echoMicros, List.mem_cons, List.mem_append, List.not_mem_nil, or_false] at h
    rcases h with rfl | (rfl | rfl | rfl | rfl) | rfl <;> simp_all [Micro.sbIndex?]
  · simp only [List.mem_cons, List.not_mem_nil, or_false] at h
    rcases h with rfl | rfl <;> simp_all [Micro.sbIndex?]

/-- The SB accesses of iteration `n` of PLAYBACK have an index of at most `n / 2` (R67, R73). -/
theorem sbIndex?_of_mem_playbackBody {m : Micro} {e : Bool} {len n j : Nat} (h : m ∈ playbackBody e len n)
    (hj : m.sbIndex? = some j) : j ≤ n / 2 := by
  simp only [playbackBody, List.mem_append, List.mem_singleton] at h
  rcases h with (hsend | htick) | rfl
  · have htap : delayTap (n / 2) len ≤ n / 2 := Nat.sub_le _ _
    have hword := sbIndex?_of_mem_playbackSend hsend hj
    omega
  · exact absurd hj (sbIndex?_ne_of_mem_tickIfDue htick j)
  · simp [Micro.sbIndex?] at hj

/-- Only a streaming command's list accesses SB, and only at indices below the latched length (R66, R67). -/
theorem sbIndex?_of_mem_block {m : Micro} {i : Instr} {len b j : Nat} (hb : b < blockCount i len)
    (h : m ∈ block i len b) (hj : m.sbIndex? = some j) : i.streaming = true ∧ j < len := by
  unfold block at h
  split_ifs at h with h0
  · obtain ⟨l, -, rfl⟩ := List.mem_map.1 h
    simp at hj
  · cases i with
    | capture =>
      have hjn := sbIndex?_of_mem_captureBody h hj
      simp only [blockCount, loopCount] at hb
      exact ⟨rfl, by omega⟩
    | playback e =>
      have hjn := sbIndex?_of_mem_playbackBody h hj
      simp only [blockCount, loopCount, Config.slotsPerSample] at hb
      exact ⟨rfl, by omega⟩
    | _ => simp [loopBody] at h

/-! ## A turn of SEQ -/

/-- The next micro-operation stands in the present block. -/
theorem State.nextMicro_mem {s : State} {i : Instr} {m : Micro} (hop : s.seq.op = some i)
    (hn : s.nextMicro = some m) : m ∈ block i s.seq.len.toNat s.seq.blk := by
  simp only [State.nextMicro, hop] at hn
  exact List.mem_of_getElem? hn

/-- In a sound position the next micro-operation accesses SB inside, since LenOk bounds the latched length (R14, R64). -/
theorem State.seqSound.sbIndex?_lt {s : State} {m : Micro} {j : Nat} (h : s.seqSound)
    (hn : s.nextMicro = some m) (hj : m.sbIndex? = some j) : j < s.params.sbDepth := by
  cases hop : s.seq.op with
  | none => simp [State.nextMicro, hop] at hn
  | some i =>
    simp only [State.seqSound, hop] at h
    obtain ⟨-, hlen, hblk, -⟩ := h
    obtain ⟨hstream, hlt⟩ := sbIndex?_of_mem_block hblk (State.nextMicro_mem hop hn) hj
    obtain ⟨-, -, hdepth⟩ := (lenOk_iff _ _).1 (hlen hstream)
    exact hlt.trans_le hdepth

/-- A micro-operation that cannot be taken holds SEQ, and nothing changes (R68). -/
theorem seqStep_held {s : State} {i : Instr} {m : Micro} (hop : s.seq.op = some i) (hn : s.nextMicro = some m)
    (he : m.enabled s = false) : seqStep s = .next s := by
  simp [seqStep, hop, hn, he]

/-- Only the two waits can hold SEQ (R68). -/
theorem Micro.enabled_of_not_wait {m : Micro} (hrx : m ≠ .rxWait) (htx : m ≠ .txWait) (s : State) :
    m.enabled s = true := by
  cases m with
  | rxWait => exact absurd rfl hrx
  | txWait => exact absurd rfl htx
  | _ => rfl

/-- Settles O39: a wait is enabled by its flag and has no effect, every other micro-operation is enabled, and in a sound
state its SB access lies inside SB, so it answers a next state. -/
theorem waitsHoldUntilReady : Obligations.WaitsHoldUntilReady := by
  intro s i hop
  refine ⟨fun hn hready => ?rxHeld, fun hn hready => ?txHeld, fun hn hready => ?rxPassed, fun hn hready => ?txPassed,
    fun m hinv hn hrx htx => ?taken⟩
  case rxHeld => exact seqStep_held hop hn hready
  case txHeld => exact seqStep_held hop hn hready
  case rxPassed => exact seqStep_micro hop hn hready rfl
  case txPassed => exact seqStep_micro hop hn hready rfl
  case taken =>
    obtain ⟨-, -, -, hseq, -⟩ := hinv
    obtain ⟨u, hu⟩ := micro_next fun j hj => hseq.sbIndex?_lt hn hj
    exact ⟨_, seqStep_micro hop hn (Micro.enabled_of_not_wait hrx htx s) hu, rfl⟩

end Sys2Proof.Machine
end

section
/-! PROOFS. The echo mixer's stages and its wrapping sum (spec/43_echo_mixer.md R70, R71, R72). -/

namespace Sys2Proof.Machine

open Sys2Proof

/-! ## Attenuation -/

/-- Truncating division is odd in the dividend (R11). -/
theorem tdiv_neg (a b : Int) : tdiv (-a) b = -tdiv a b := by
  simp only [tdiv, Int.sign_neg, Int.natAbs_neg, Int.neg_mul]

/-- On operands that are not negative, truncating division is the rounding-down one (R11). -/
theorem tdiv_of_nonneg {a b : Int} (ha : 0 ≤ a) (hb : 0 < b) : tdiv a b = a / b := by
  obtain rfl | ha := ha.eq_or_lt
  · simp [tdiv]
  · rw [tdiv, Int.sign_eq_one_of_pos ha, Int.sign_eq_one_of_pos hb, Int.natCast_ediv, Int.natAbs_of_nonneg ha.le,
      Int.natAbs_of_nonneg hb.le, one_mul, one_mul]

/-- `Att` is odd (R71). -/
theorem att_neg (x : Int) : att (-x) = -att x := by rw [att, att, Int.mul_neg, tdiv_neg]

/-- `Att` of a number that is not negative, as a quotient (R71). -/
theorem att_of_nonneg {x : Int} (hx : 0 ≤ x) : att x = 4 * x / 5 :=
  tdiv_of_nonneg (Int.mul_nonneg (by decide) hx) (by decide)

/-- `Att` of a number that is not positive: the quotient of its absolute value, negated (R71). -/
theorem att_of_nonpos {x : Int} (hx : x ≤ 0) : att x = -(4 * -x / 5) := by
  rw [← att_of_nonneg (by omega : 0 ≤ -x), att_neg, Int.neg_neg]

/-- `Att` truncates toward zero: `4x/5` lies between `Att(x)` and the next integer away from zero (R71). -/
theorem att_truncates (x : Int) :
    (0 ≤ x → 5 * att x ≤ 4 * x ∧ 4 * x < 5 * att x + 5) ∧
    (x ≤ 0 → 4 * x ≤ 5 * att x ∧ 5 * att x < 4 * x + 5) := by
  refine ⟨fun hx => ?nonneg, fun hx => ?nonpos⟩
  case nonneg => rw [att_of_nonneg hx]; omega
  case nonpos => rw [att_of_nonpos hx]; omega

/-! ## Ranges of samples -/

/-- The range of a sample (R8). -/
theorem sample_range (x : Sample) : -32768 ≤ x.toInt ∧ x.toInt ≤ 32767 := by
  have hlow := x.le_toInt
  have hhigh := x.toInt_lt
  omega

/-- The attenuated sample lies in -26214 .. 26213 (R71). -/
theorem att_sample_range (x : Sample) : -26214 ≤ att x.toInt ∧ att x.toInt ≤ 26213 := by
  have hx := sample_range x
  have htrunc := att_truncates x.toInt
  omega

/-! ## The stages -/

/-- Stage 1 is exact: `4 * MB` fits 18 bits (R70). -/
@[simp] theorem mixStage1_toInt (b : Sample) : (mixStage1 b).toInt = 4 * b.toInt := by
  have hb := sample_range b
  rw [mixStage1, Config.attNum]
  exact BitVec.toInt_ofInt_eq_self (by decide) (by omega) (by omega)

/-- After stage 1, stage 2 holds the attenuated sample (R70, R71). -/
theorem mixStage2_mixStage1 (b : Sample) : mixStage2 (mixStage1 b) = BitVec.ofInt 16 (att b.toInt) := by
  rw [mixStage2, mixStage1_toInt, att, Config.attNum]

/-- Stage 2 is exact: `Att(MB)` fits 16 bits (R70, R71). -/
@[simp] theorem mixStage2_mixStage1_toInt (b : Sample) : (mixStage2 (mixStage1 b)).toInt = att b.toInt := by
  have hb := att_sample_range b
  rw [mixStage2_mixStage1]
  exact BitVec.toInt_ofInt_eq_self (by decide) (by omega) (by omega)

/-- `wrap16` is the number in the range of a sample that is congruent to the given one (R11). -/
theorem wrap16_eq_bmod (v : Int) : wrap16 v = v.bmod (2 ^ 16) := by
  simp only [wrap16, Int.bmod]
  omega

/-- Stage 3, read as an integer, is the wrapped sum (R70, R72). -/
theorem mixStage3_toInt (a q : Sample) : (mixStage3 a q).toInt = wrap16 (a.toInt + q.toInt) := by
  rw [mixStage3_eq, BitVec.toInt_add, wrap16_eq_bmod]

/-- Settles O31: stages 1 and 2 are exact because `4 * MB` and `Att(MB)` fit their widths, so stage 3 wraps the sum
`Mix` wraps. -/
theorem mixerStagesComputeMix : Obligations.MixerStagesComputeMix := by
  intro a b
  refine ⟨mixStage1_toInt b, mixStage2_mixStage1_toInt b, ?_⟩
  rw [mixSample, mixStage3_toInt, mixStage2_mixStage1_toInt, mix]

/-! ## The sum -/

/-- A number in the range of a sample wraps to itself (R11). -/
theorem wrap16_of_fits {v : Int} (hlow : -32768 ≤ v) (hhigh : v ≤ 32767) : wrap16 v = v := by
  unfold wrap16; omega

/-- Less than one turn above the range of a sample, wrapping takes 65536 away (R11, R72). -/
theorem wrap16_of_above {v : Int} (hlow : 32767 < v) (hhigh : v ≤ 98303) : wrap16 v = v - 65536 := by
  unfold wrap16; omega

/-- Less than one turn below the range of a sample, wrapping adds 65536 (R11, R72). -/
theorem wrap16_of_below {v : Int} (hlow : -98304 ≤ v) (hhigh : v < -32768) : wrap16 v = v + 65536 := by
  unfold wrap16; omega

/-- A delayed sample of absolute value at most 1 is attenuated to 0 (R71). -/
theorem att_eq_zero {x : Int} (hx : x.natAbs ≤ 1) : att x = 0 := by
  have htrunc := att_truncates x
  omega

/-- Settles O32: the sum of a sample and an attenuated one is less than one turn outside the range of a sample, on a
side that both terms are on. -/
theorem mixWrapsSilently : Obligations.MixWrapsSilently := by
  intro a b
  obtain ⟨halow, hahigh⟩ := sample_range a
  have hb := att_sample_range b
  refine ⟨?range, fun hsmall => ?small, fun hlow hhigh => wrap16_of_fits hlow hhigh, fun habove => ?above,
    fun hbelow => ?below, ?lowBits⟩
  case range => omega
  case small => rw [mix, att_eq_zero hsmall, Int.add_zero, wrap16_of_fits halow hahigh]
  case above => exact ⟨wrap16_of_above habove (by omega), by omega, by omega⟩
  case below => exact ⟨wrap16_of_below (by omega) hbelow, by omega, by omega⟩
  case lowBits => rw [mixSample, mixStage3_eq, mixStage2_mixStage1]

end Sys2Proof.Machine
end

section
/-! PROOFS. The rejected streaming command (spec/60_exceptions.md R80, R84). -/

namespace Sys2Proof.Machine

open Sys2Proof

/-- The three ways to break LenOk (R64, R80). -/
theorem lenOk_eq_false_iff (len depth : Nat) :
    lenOk len depth = false ↔ len < 8 ∨ len % 8 ≠ 0 ∨ depth < len := by
  rw [← Bool.not_eq_true, lenOk_iff]
  omega

/-- Settles O10: `exec` issues a streaming command by `issueStream`, which rejects it when LenOk is false. -/
theorem badLengthIsRejected : Obligations.BadLengthIsRejected := by
  intro s i hstream hidle hbad
  rw [exec_stream hstream]
  exact issueStream_rejected i hidle ((lenOk_eq_false_iff _ _).2 hbad)

end Sys2Proof.Machine
end

section
/-! PROOFS. The RESET input (spec/70_reset_and_hazards.md R90, R91 (a)). -/

namespace Sys2Proof.Machine

open Sys2Proof

/-- RESET is taken in whatever state the block is (R90). -/
theorem step_reset {s : State} {rest : List Input} (h : s.inputs = .reset :: rest) :
    step s = .next (resetBlock (s.setInputs rest)) := by
  rw [step, h]

/-- Forcing CLK to 0 is no edge of CLK when CLK is 0 already, so LEDRX does not sample, whichever edge it samples on
(R23, R91 (a)). -/
theorem State.ledrxAfterClk_false_of_clk_false {s : State} (h : s.clk = false) : s.ledrxAfterClk false = s.ledrx := by
  have hedge : samplesOn s.params.rxEdge s.clk false = false := by
    rw [h]
    cases s.params.rxEdge with
    | assert => rfl
    | release => rfl
  simp [State.ledrxAfterClk, hedge]

/-- RESET leaves SEQ idle, whatever command it cut short (R90). -/
theorem resetBlock_isIdle (s : State) : (resetBlock s).isIdle := rfl

/-- STATUS reads 0 after RESET: the block is idle and both error bits are clear (R17, R90). -/
theorem resetBlock_statusWord (s : State) : statusWord (resetBlock s) = 0 :=
  statusWord_eq_zero (resetBlock_isIdle s) rfl rfl

/-- RESET's one entry in the history (log 11). -/
theorem resetBlock_history (s : State) : (resetBlock s).history = s.history ++ [.reset] :=
  history_append (l := [.reset]) rfl

/-- With CLK at 0 RESET cuts no pulse short, and the receiver keeps its picture (R90, R91 (a)). -/
theorem resetBlock_ledrx_of_clk_false {s : State} (h : s.clk = false) : (resetBlock s).ledrx = s.ledrx :=
  State.ledrxAfterClk_false_of_clk_false h

/-- Settles O54: the step is `resetBlock` on the state that has taken the input. STATUS, SEQ, SB, the history and the
receiver are the lemmas above; the other values are fields that `resetBlock` writes or leaves alone. -/
theorem resetInputClearsTheBlock : Obligations.ResetInputClearsTheBlock := by
  intro s rest hinputs
  exact ⟨resetBlock (s.setInputs rest), step_reset hinputs, rfl, rfl, rfl, resetBlock_statusWord _,
    resetBlock_isIdle _, rfl, rfl, Memory.get_nil, rfl, rfl, rfl, resetBlock_history _, resetBlock_ledrx_of_clk_false⟩

end Sys2Proof.Machine
end

section
/-! PROOFS. Command words: the decoder against the encoder and against the opcode table (spec/30_encoding.md R46 to
R49). -/

namespace Sys2Proof

/-! ## Decoding an encoded command -/

/-- A word without operand bits is the operation it is asked to be (R47 (c)). -/
theorem withoutOperands_of_fields {w : Word} (i : Instr) (ha : fieldA w = 0) (hb : fieldB w = 0) :
    withoutOperands w i = .ok i := if_pos ⟨ha, hb⟩

/-- A signed operand byte survives its 8-bit encoding (R47). -/
theorem sext8_ofInt {v : Int} (h : signedByte v = true) : sext8 (BitVec.ofInt 8 v) = v := by
  simp only [signedByte, Bool.and_eq_true, decide_eq_true_eq] at h
  exact BitVec.toInt_ofInt_eq_self (by decide) (by omega) (by omega)

/-- Every signed operand byte is in the range of its operand (R47). -/
theorem signedByte_sext8 (v : OperandByte) : signedByte (sext8 v) = true := by revert v; decide

/-- Settles O4: the decoder reads back the fields the encoder wrote, and a signed byte survives its 8 bits. -/
theorem decodeOfEncodeIsIdentity : Obligations.DecodeOfEncodeIsIdentity := by
  intro i hwf
  cases i with
  | setone ledIndex color =>
    simp only [Instr.wellFormed, Bool.and_eq_true] at hwf
    obtain ⟨hled, hcolor⟩ := hwf
    simp [decode, encode, commandWord_z, commandWord_op, commandWord_a, commandWord_b, sext8_ofInt hled,
      sext8_ofInt hcolor]
  | playback e => cases e <;> decide
  | _ => decide

/-! ## Encoding a decoded word -/

/-- PLAYBACK's operand byte with its seven upper bits 0 is its echo bit (R47 (b)). -/
theorem echoByte_eq {a : OperandByte} (h : a >>> 1 = 0) : (if a.getLsbD 0 then 1 else 0) = a := by
  revert a; decide

/-- A word with `Z = 0` and no operand bits is its OP alone (R46). -/
theorem commandWord_plain {w : Word} {op : OperandByte} (hz : fieldZ w = 0) (hop : fieldOp w = op)
    (ha : fieldA w = 0) (hb : fieldB w = 0) : commandWord 0 0 op = w := by
  have hw := commandWord_fields w hz
  rwa [hop, ha, hb] at hw

/-- Settles O5: by the fields of a word that decodes; the word is `commandWord` of them. -/
theorem encodeOfDecodeIsIdentity : Obligations.EncodeOfDecodeIsIdentity := by
  intro w i h
  obtain ⟨hz, hfields⟩ := decode_cases h
  rcases hfields with ⟨hop, ha, hb, rfl⟩ | ⟨hop, ha, hb, rfl⟩ | ⟨hop, ha, hb, rfl⟩ | ⟨hop, rfl⟩ | ⟨hop, ha, hb, rfl⟩ |
    ⟨hop, ha, hb, rfl⟩ | ⟨hop, ha, hb, rfl⟩ | ⟨hop, ha, hb, rfl⟩
  · exact ⟨commandWord_plain hz hop ha hb, rfl⟩
  · exact ⟨commandWord_plain hz hop ha hb, rfl⟩
  · exact ⟨commandWord_plain hz hop ha hb, rfl⟩
  · refine ⟨?_, by simp only [Instr.wellFormed, Bool.and_eq_true]; exact ⟨signedByte_sext8 _, signedByte_sext8 _⟩⟩
    rw [encode, BitVec.ofInt_toInt, BitVec.ofInt_toInt, ← hop]
    exact commandWord_fields w hz
  · exact ⟨commandWord_plain hz hop ha hb, rfl⟩
  · exact ⟨commandWord_plain hz hop ha hb, rfl⟩
  · exact ⟨commandWord_plain hz hop ha hb, rfl⟩
  · have hw := commandWord_fields w hz
    rw [hop, hb] at hw
    exact ⟨by rw [encode, echoByte_eq ha]; exact hw, rfl⟩

/-! ## Mask and match -/

/-- A command's encoding masked with its own row's mask is the row's match (R48). -/
theorem encode_and_opcodeMask (i : Instr) : encode i &&& opcodeMask i = opcodeMatch i := by
  cases i with
  | encode => exact Laws.EncodeMatchesRow.encode
  | transmit => exact Laws.EncodeMatchesRow.transmit
  | setall => exact Laws.EncodeMatchesRow.setall
  | setone ledIndex color => exact Laws.EncodeMatchesRow.setone ledIndex color
  | resetv => exact Laws.EncodeMatchesRow.resetv
  | advance => exact Laws.EncodeMatchesRow.advance
  | capture => exact Laws.EncodeMatchesRow.capture
  | playback echoEnabled => exact Laws.EncodeMatchesRow.playback echoEnabled

/-- A word that decodes matches the row of what it decodes to (R48). -/
theorem and_opcodeMask_of_decode {w : Word} {i : Instr} (h : decode w = .ok i) :
    w &&& opcodeMask i = opcodeMatch i := by
  rw [← (encodeOfDecodeIsIdentity w i h).1]
  exact encode_and_opcodeMask i

/-- The fields of a masked word are the masked fields. -/
theorem field_and (w m : Word) :
    fieldOp (w &&& m) = fieldOp w &&& fieldOp m ∧ fieldA (w &&& m) = fieldA w &&& fieldA m ∧
      fieldB (w &&& m) = fieldB w &&& fieldB m ∧ fieldZ (w &&& m) = fieldZ w &&& fieldZ m :=
  ⟨BitVec.extractLsb'_and, BitVec.extractLsb'_and, BitVec.extractLsb'_and, BitVec.extractLsb'_and⟩

/-- An operand byte is kept whole by a mask byte of ones. -/
theorem and_ones (a : OperandByte) : a &&& 0xFF#8 = a := BitVec.and_allOnes

/-- The bits of PLAYBACK's operand byte that its mask tests are those above bit 0. -/
theorem ushiftRight_one_of_and {a : OperandByte} (h : a &&& 0xFE#8 = 0) : a >>> 1 = 0 := by
  revert a; decide

/-- SETONE by its fields (R47 (a)). -/
theorem decode_setone_fields {w : Word} (hz : fieldZ w = 0) (hop : fieldOp w = 4) :
    decode w = .ok (.setone (sext8 (fieldA w)) (sext8 (fieldB w))) := by
  simp [decode, hz, hop]

/-- PLAYBACK by its fields (R47 (b)). -/
theorem decode_playback_fields {w : Word} (hz : fieldZ w = 0) (hop : fieldOp w = 8) (ha : fieldA w >>> 1 = 0)
    (hb : fieldB w = 0) : decode w = .ok (.playback ((fieldA w).getLsbD 0)) := by
  simp [decode, decodePlayback, hz, hop, ha, hb]

/-- A word that matches SETONE's row decodes to a SETONE (R47 (a), R48). -/
theorem decode_of_setone_row {w : Word} (h : w &&& 0xFF0000FF = 0x00000004) :
    decode w = .ok (.setone (sext8 (fieldA w)) (sext8 (fieldB w))) := by
  obtain ⟨hop, -, -, hz⟩ := field_and w 0xFF0000FF
  rw [h] at hop hz
  exact decode_setone_fields ((and_ones _).symm.trans hz.symm) ((and_ones _).symm.trans hop.symm)

/-- A word that matches PLAYBACK's row decodes to a PLAYBACK (R47 (b), R48). -/
theorem decode_of_playback_row {w : Word} (h : w &&& 0xFFFFFEFF = 0x00000008) :
    decode w = .ok (.playback ((fieldA w).getLsbD 0)) := by
  obtain ⟨hop, ha, hb, hz⟩ := field_and w 0xFFFFFEFF
  rw [h] at hop ha hb hz
  exact decode_playback_fields ((and_ones _).symm.trans hz.symm) ((and_ones _).symm.trans hop.symm)
    (ushiftRight_one_of_and ha.symm) ((and_ones _).symm.trans hb.symm)

/-- A word that matches a row decodes to a command of that row (R48). -/
theorem decode_of_and_opcodeMask {w : Word} {i : Instr} (h : w &&& opcodeMask i = opcodeMatch i) :
    ∃ j, decode w = .ok j ∧ opcodeMask j = opcodeMask i ∧ opcodeMatch j = opcodeMatch i := by
  cases i with
  | setone _ _ => exact ⟨_, decode_of_setone_row h, rfl, rfl⟩
  | playback _ => exact ⟨_, decode_of_playback_row h, rfl, rfl⟩
  | _ =>
    have hw := BitVec.and_allOnes.symm.trans h
    exact ⟨_, by rw [hw]; rfl, rfl, rfl⟩

/-- Settles O2: a word that decodes is an encoding, and encodings match their rows; a word that matches a row decodes
to a command of that row; so two rows of one word are the row of the one command it decodes to. -/
theorem maskAndMatchSelectTheOperation : Obligations.MaskAndMatchSelectTheOperation := by
  refine ⟨fun w i h => and_opcodeMask_of_decode h, fun w i h => decode_of_and_opcodeMask h, fun w i j hi hj => ?_⟩
  obtain ⟨a, ha, -, hai⟩ := decode_of_and_opcodeMask hi
  obtain ⟨b, hb, -, hbj⟩ := decode_of_and_opcodeMask hj
  have hab : a = b := by rw [ha] at hb; exact Except.ok.inj hb
  rw [← hai, ← hbj, hab]

/-! ## The legal words -/

/-- The operation without operands a word names by its OP (R47 (c), R48). -/
theorem decode_plain_fields {w : Word} (hz : fieldZ w = 0) (hop : (fieldOp w).toNat ∈ [1, 2, 3, 5, 6, 7])
    (ha : fieldA w = 0) (hb : fieldB w = 0) : ∃ i, decode w = .ok i := by
  simp only [List.mem_cons, List.not_mem_nil, or_false] at hop
  rcases hop with h | h | h | h | h | h <;>
    exact ⟨_, by simp only [decode, hz, h, withoutOperands_of_fields _ ha hb]; rfl⟩

/-- Which words decode, by their fields (R47, R48). -/
theorem decodes_iff (w : Word) :
    (∃ i, decode w = .ok i) ↔ fieldZ w = 0 ∧
      ((fieldOp w).toNat ∈ [1, 2, 3, 5, 6, 7] ∧ fieldA w = 0 ∧ fieldB w = 0 ∨ fieldOp w = 4 ∨
        fieldOp w = 8 ∧ fieldA w >>> 1 = 0 ∧ fieldB w = 0) := by
  constructor
  · rintro ⟨i, h⟩
    obtain ⟨hz, hfields⟩ := decode_cases h
    have hplain {op : OperandByte} (hop : fieldOp w = op) (hmem : op.toNat ∈ [1, 2, 3, 5, 6, 7]) :
        (fieldOp w).toNat ∈ [1, 2, 3, 5, 6, 7] := hop ▸ hmem
    refine ⟨hz, ?_⟩
    rcases hfields with ⟨hop, ha, hb, -⟩ | ⟨hop, ha, hb, -⟩ | ⟨hop, ha, hb, -⟩ | ⟨hop, -⟩ | ⟨hop, ha, hb, -⟩ |
      ⟨hop, ha, hb, -⟩ | ⟨hop, ha, hb, -⟩ | ⟨hop, ha, hb, -⟩
    · exact .inl ⟨hplain hop (by decide), ha, hb⟩
    · exact .inl ⟨hplain hop (by decide), ha, hb⟩
    · exact .inl ⟨hplain hop (by decide), ha, hb⟩
    · exact .inr (.inl hop)
    · exact .inl ⟨hplain hop (by decide), ha, hb⟩
    · exact .inl ⟨hplain hop (by decide), ha, hb⟩
    · exact .inl ⟨hplain hop (by decide), ha, hb⟩
    · exact .inr (.inr ⟨hop, ha, hb⟩)
  · rintro ⟨hz, ⟨hop, ha, hb⟩ | hop | ⟨hop, ha, hb⟩⟩
    · exact decode_plain_fields hz hop ha hb
    · exact ⟨_, decode_setone_fields hz hop⟩
    · exact ⟨_, decode_playback_fields hz hop ha hb⟩

/-- The bits of operand byte A above bit 0 are bits 15:9 of the word (R46). -/
theorem fieldA_ushiftRight_one (w : Word) : fieldA w >>> 1 = 0 ↔ w.extractLsb' 9 7 = 0 := by
  have hshift : fieldA w >>> 1 = (w.extractLsb' 9 7).setWidth 8 := by
    ext i hi
    simp only [fieldA, BitVec.getElem_ushiftRight, BitVec.getLsbD_extractLsb', BitVec.getElem_setWidth]
    by_cases h7 : i < 7
    · simp [h7, show 1 + i < 8 by omega, show 8 + (1 + i) = 9 + i by omega]
    · simp [h7, show ¬ 1 + i < 8 by omega]
  rw [hshift]
  generalize w.extractLsb' 9 7 = x
  revert x
  decide

/-- Which words are no command (R49). -/
theorem not_decodes_iff (w : Word) :
    (¬ ∃ i, decode w = .ok i) ↔
      (w.extractLsb' 24 8 ≠ 0 ∨ w.extractLsb' 0 8 = 0 ∨ 9 ≤ (w.extractLsb' 0 8).toNat ∨
        ((w.extractLsb' 0 8).toNat ∈ [1, 2, 3, 5, 6, 7] ∧ (w.extractLsb' 8 8 ≠ 0 ∨ w.extractLsb' 16 8 ≠ 0)) ∨
        ((w.extractLsb' 0 8).toNat = 8 ∧ (w.extractLsb' 9 7 ≠ 0 ∨ w.extractLsb' 16 8 ≠ 0))) := by
  have hop (n : Nat) (hn : n < 256) : fieldOp w = BitVec.ofNat 8 n ↔ (fieldOp w).toNat = n := by
    rw [← BitVec.toNat_inj, BitVec.toNat_ofNat, Nat.mod_eq_of_lt (by omega)]
  have hop0 : w.extractLsb' 0 8 = 0 ↔ _ := hop 0 (by decide)
  have hop4 : fieldOp w = 4 ↔ _ := hop 4 (by decide)
  have hop8 : fieldOp w = 8 ↔ _ := hop 8 (by decide)
  rw [decodes_iff, hop0, hop4, hop8, fieldA_ushiftRight_one]
  simp only [fieldZ, fieldOp, fieldA, fieldB, List.mem_cons, List.not_mem_nil, or_false, not_and_or, not_or, ne_eq]
  generalize (w.extractLsb' 0 8).toNat = n
  obtain hn | hn := Nat.lt_or_ge n 9
  · interval_cases n <;> simp
  · simp [hn]
    omega

/-- Settles O1: each word decodes by computation. -/
theorem wordsOfTheSpecDecode : Obligations.WordsOfTheSpecDecode := by
  unfold Obligations.WordsOfTheSpecDecode
  decide

/-- Settles O3: of the rows a word that decodes can be in, SETONE's and PLAYBACK's fix the operands. -/
theorem operandFieldsAreAssembled : Obligations.OperandFieldsAreAssembled := by
  refine ⟨fun w ledIndex color h => ?setone, fun w e h => ?playback⟩
  case setone =>
    obtain ⟨-, hfields⟩ := decode_cases h
    simp only [reduceCtorEq, and_false, false_or, or_false, Instr.setone.injEq] at hfields
    exact hfields.2
  case playback =>
    obtain ⟨-, hfields⟩ := decode_cases h
    simp only [reduceCtorEq, and_false, false_or, Instr.playback.injEq] at hfields
    obtain ⟨-, -, -, he⟩ := hfields
    rw [he, fieldA, BitVec.getLsbD_extractLsb']
    rfl

end Sys2Proof
end

section
/-! PROOFS. The step at each kind of input, and the issue of a command (spec/10_state.md R12, R16, R37;
spec/40_led_vector.md R53; spec/60_exceptions.md R80 to R84). -/

namespace Sys2Proof.Machine

open Sys2Proof

/-! ## The step at each kind of input -/

section
variable {s : State} {rest : List Input}

/-- A host write to CMD (R16). -/
theorem step_commandWrite {w : Word} (h : s.inputs = .host (.regWrite 0 w) :: rest) :
    step s = commandWrite w (s.setInputs rest) := by rw [step, h]; rfl

/-- A stepped host write to CMD (log 8). -/
theorem step_hostStepped {w : Word} (h : s.inputs = .hostStepped w :: rest) :
    step s = commandStepped w (s.setInputs rest) := by rw [step, h]

/-- A host access that is no write to CMD. -/
theorem step_hostAccess {a : HostAccess} (h : s.inputs = .host a :: rest) (ha : a.commandWord = none) :
    step s = hostAccess a (s.setInputs rest) := by
  simp [step, h, hostTurn, ha]

/-- A host write of a register that is not CMD. -/
theorem step_regWrite {n : Nat} {v : Word} (hn : n ≠ 0) (h : s.inputs = .host (.regWrite n v) :: rest) :
    step s = regWrite n v (s.setInputs rest) := step_hostAccess h (if_neg hn)

/-- The input that gives SEQ the turn. -/
theorem step_seqTurn (h : s.inputs = .seq :: rest) : step s = seqStep (s.setInputs rest) := by rw [step, h]

/-- WAIT on a busy block is a turn of SEQ (R51). -/
theorem step_hostWait_busy (h : s.inputs = .hostWait :: rest) (hb : s.busy = true) : step s = seqStep s := by
  simp [step, h, hb]

/-- WAIT is over when BUSY is 0 (R51). -/
theorem step_hostWait_done (h : s.inputs = .hostWait :: rest) (hb : s.busy = false) :
    step s = .next (s.setInputs rest) := by simp [step, h, hb]

/-- An input of the channel (R24). -/
theorem step_chan {a b : Bool} {v : Sample} (h : s.inputs = .chan a v b :: rest) :
    step s = .next (chanSet a v b (s.setInputs rest)) := by rw [step, h]

end

/-! ## The word written to CMD -/

theorem commandWrite_legal {w : Word} {i : Instr} (h : decode w = .ok i) (s : State) :
    commandWrite w s = exec i s := by rw [commandWrite, h]

theorem commandStepped_legal {w : Word} {i : Instr} (h : decode w = .ok i) (s : State) :
    commandStepped w s = issueStepped i s := by rw [commandStepped, h]

/-- A word that is no command is rejected in either form of the write (R81). -/
theorem commandWrite_illegal {w : Word} (h : ¬ ∃ i, decode w = .ok i) (s : State) :
    commandWrite w s = issueIllegal s ∧ commandStepped w s = issueIllegal s := by
  cases hd : decode w with
  | ok i => exact absurd ⟨i, hd⟩ h
  | error r => exact ⟨by rw [commandWrite, hd], by rw [commandStepped, hd]⟩

/-- The rejection of a word by an idle block (R81, R84). -/
theorem issueIllegal_not_busy {s : State} (h : s.busy = false) :
    issueIllegal s = .next { s with cfgErr := false, illCmd := true } := by
  simp [issueIllegal, h, reject, clearErrors, State.setErr]

theorem issueIllegal_busy {s : State} (h : s.busy = true) : issueIllegal s = .next s := by simp [issueIllegal, h]

/-- Settles O6: the words are those of `not_decodes_iff`, and either form of the write rejects them. -/
theorem illegalWordsAreListedAndRejected : Obligations.IllegalWordsAreListedAndRejected := by
  refine ⟨not_decodes_iff, fun s w rest hidle hw hinputs => ?_⟩
  obtain ⟨hwrite, hstepped⟩ := commandWrite_illegal hw (s.setInputs rest)
  have hreject := issueIllegal_not_busy (s := s.setInputs rest) hidle
  rcases hinputs with h | h
  · rw [step_commandWrite h, hwrite, hreject]; rfl
  · rw [step_hostStepped h, hstepped, hreject]; rfl

/-! ## The issue of a command -/

/-- LEDU leaves SEQ, LEN, the error bits, the parameters and the inputs alone. -/
theorem runLed_frame (ms : List LedMicro) (s : State) :
    (runLed ms s).seq = s.seq ∧ (runLed ms s).len = s.len ∧ (runLed ms s).cfgErr = s.cfgErr ∧
      (runLed ms s).illCmd = s.illCmd ∧ (runLed ms s).params = s.params ∧ (runLed ms s).inputs = s.inputs :=
  microRun_frame (microRun_led ms s)

/-- An LED command on a block that is not busy: its micro-operations, both error bits 0, SEQ idle (R53). -/
theorem exec_led_not_busy {i : Instr} (hs : i.streaming = false) {s : State} (h : s.busy = false) :
    exec i s = .next (((runLed (ledMicros i) s).setErr false false).setSeq Seq.idle) := by
  rw [exec_led hs, issueLed_idle i h]
  simp only [runLed_setSeq, runLed_setErr, accept, clearErrors, complete]
  rfl

/-- An LED command issued stepped to a block that is not busy is accepted (R53, log 8). -/
theorem issueStepped_led_not_busy {i : Instr} (hs : i.streaming = false) {s : State} (h : s.busy = false) :
    issueStepped i s = .next (accept i s) := by simp [issueStepped, hs, h]

/-- A streaming command is always stepped (R53, log 8). -/
theorem issueStepped_stream {i : Instr} (hs : i.streaming = true) (s : State) : issueStepped i s = exec i s := by
  rw [issueStepped, if_pos hs, exec_stream hs]

/-- A busy block takes no stepped command (R37). -/
theorem issueStepped_busy (i : Instr) {s : State} (h : s.busy = true) : issueStepped i s = .next s := by
  cases hs : i.streaming with
  | true => rw [issueStepped_stream hs, exec_busy i h]
  | false => simp [issueStepped, hs, h]

/-- A command issued to a block that is not busy: an LED command has run, a streaming one is accepted or rejected. -/
theorem exec_not_busy (i : Instr) {s : State} (h : s.busy = false) :
    (i.streaming = false ∧ exec i s = .next (((runLed (ledMicros i) s).setErr false false).setSeq Seq.idle)) ∨
    (i.streaming = true ∧ lenOk s.len.toNat s.params.sbDepth = true ∧ exec i s = .next (accept i s)) ∨
    (i.streaming = true ∧ lenOk s.len.toNat s.params.sbDepth = false ∧
      exec i s = .next { s with cfgErr := true, illCmd := false }) := by
  cases hs : i.streaming with
  | false => exact .inl ⟨rfl, exec_led_not_busy hs h⟩
  | true =>
    rw [exec_stream hs]
    cases hl : lenOk s.len.toNat s.params.sbDepth with
    | true => exact .inr (.inl ⟨rfl, rfl, issueStream_accepted i h hl⟩)
    | false => exact .inr (.inr ⟨rfl, rfl, issueStream_rejected i h hl⟩)

/-- Settles O12: on a busy block and in each of the three cases of the issue on one that is not. -/
theorem everyCommandAnswersANextState : Obligations.EveryCommandAnswersANextState := by
  intro i s
  cases hb : s.busy with
  | true => exact ⟨s, exec_busy i hb⟩
  | false =>
    rcases exec_not_busy i hb with ⟨-, h⟩ | ⟨-, -, h⟩ | ⟨-, -, h⟩
    · exact ⟨_, h⟩
    · exact ⟨_, h⟩
    · exact ⟨_, h⟩

/-- Settles O36: acceptance writes the error bits and SEQ only. -/
theorem streamingCommandIsAccepted : Obligations.StreamingCommandIsAccepted := by
  intro s i hstream hidle hlen
  rw [exec_stream hstream, issueStream_accepted i hidle.not_busy hlen]
  exact ⟨accept i s, rfl, rfl, rfl⟩

/-- Settles O11: the write is rejected by `issueIllegal`, or handled by `exec` in one of its three cases. -/
theorem illegalWordComesBeforeBadLength : Obligations.IllegalWordComesBeforeBadLength := by
  intro s t w rest hidle hinputs hstep
  rw [step_commandWrite hinputs] at hstep
  by_cases hw : ∃ i, decode w = .ok i
  case neg =>
    rw [(commandWrite_illegal hw _).1, issueIllegal_not_busy (s := s.setInputs rest) hidle] at hstep
    cases hstep
    exact ⟨by simp [hw], by simpa using fun i hi => absurd ⟨i, hi⟩ hw, by simp⟩
  case pos =>
    obtain ⟨i, hi⟩ := hw
    rw [commandWrite_legal hi] at hstep
    rcases exec_not_busy i (s := s.setInputs rest) hidle with ⟨hs, h⟩ | ⟨hs, hl, h⟩ | ⟨hs, hl, h⟩ <;>
      rw [h] at hstep <;> cases hstep <;> simp_all [accept, clearErrors]

/-- Settles O7: the step at each input, the decoded word, and the two forms of the issue. -/
theorem stepRunsTheDecodedCommand : Obligations.StepRunsTheDecodedCommand := by
  refine ⟨fun s w i rest hw => ⟨fun h => ?write, fun h => ?stepped⟩, fun s i hs => issueStepped_stream hs s,
    fun s i hs hb => issueStepped_led_not_busy hs hb, fun s rest => ⟨step_seqTurn, step_seq⟩⟩
  case write => rw [step_commandWrite h, commandWrite_legal hw]; rfl
  case stepped => rw [step_hostStepped h, commandStepped_legal hw]; rfl

/-- The word of a table question is decoded as it is placed (log 18). -/
theorem decode_of_decodeTableWord {nbits w : Nat} {i : Instr} (h : decodeTableWord nbits w = some i) :
    decode (BitVec.ofNat 32 (w % 2 ^ nbits)) = .ok i := by
  unfold decodeTableWord at h
  dsimp only at h
  split_ifs at h
  split at h
  · rename_i j hj
    rw [hj, Option.some.inj h]
  · cases h

/-- Settles O8: the placed word is the next input, and it decodes to `i`. -/
theorem fetchWordIsRunNext : Obligations.FetchWordIsRunNext := by
  intro s nbits w i h
  rw [step_commandWrite (s := s.withFetchWord nbits w) rfl, commandWrite_legal (decode_of_decodeTableWord h)]
  rfl

end Sys2Proof.Machine
end

section
/-! PROOFS. The host's ports: the registers, the buffer and the busy rule (spec/10_state.md R16 to R19, R25;
spec/20_memory.md R28, R29, R37; spec/30_encoding.md R51, R52). -/

namespace Sys2Proof.Machine

open Sys2Proof

/-! ## A turn of SEQ on a block that is not busy -/

/-- A block that executes no command has no micro-operation to take (R89). -/
theorem seqStep_not_busy {s : State} (h : s.busy = false) : seqStep s = .next s := by
  have hop : s.seq.op = none := by simpa [State.busy] using h
  simp [seqStep, hop]

/-- Settles O43: an idle block executes no command. -/
theorem idleBlockDoesNothing : Obligations.IdleBlockDoesNothing := fun _ h => seqStep_not_busy h.not_busy

/-! ## The register port -/

/-- A register's number names it (R25). -/
theorem regOf_number (r : RegName) : regOf r.number = some r := by
  cases r with
  | cv k => revert k; decide
  | _ => rfl

section
variable {s : State} {rest : List Input}

/-- A read of a register that a read gives exactly: any while BUSY is 0, CMD and STATUS always (R25, R37). -/
theorem step_regRead_exact {r : RegName} (hr : (s.busy && r.hiddenWhileBusy) = false)
    (h : s.inputs = .host (.regRead r.number) :: rest) :
    step s = .next { s with inputs := rest, events := .regRead r.number (regValue s r) :: s.events } := by
  rw [step_hostAccess h rfl, hostAccess, regRead, regOf_number]
  simp only [State.setInputs_busy, hr]
  cases r <;> rfl

/-- A read, while BUSY is 1, of a register that is then hidden: a free value of its type (R37, log 23). -/
theorem step_regRead_hidden {r : RegName} (hb : s.busy = true) (hr : r.hiddenWhileBusy = true)
    (h : s.inputs = .host (.regRead r.number) :: rest) :
    step s = .next { s with
      inputs := rest, events := .regRead r.number (regDrawn s r) :: s.events, draws := s.draws + 1 } := by
  rw [step_hostAccess h rfl, hostAccess, regRead, regOf_number]
  simp only [State.setInputs_busy, hb, hr]
  cases r <;> rfl

/-- A write of a register that is not CMD (R25). -/
theorem step_regWrite_number {r : RegName} {v : Word} (hr : r ≠ .cmd)
    (h : s.inputs = .host (.regWrite r.number v) :: rest) :
    step s = .next (regStore r v (s.setInputs rest)) := by
  have hn : r.number ≠ 0 := by
    cases r with
    | cmd => exact absurd rfl hr
    | cv k => exact Nat.ne_of_gt (Nat.add_pos_left (by decide) _)
    | _ => decide
  rw [step_regWrite hn h, regWrite, regOf_number]

/-- A write of a register while BUSY is 1 is ignored (R37). -/
theorem regStore_busy (r : RegName) (v : Word) (h : s.busy = true) : regStore r v s = s := by simp [regStore, h]

end

/-- Settles O9: no form of the issue takes a command on a busy block, and CMD is read exactly, as 0. -/
theorem busyBlockIgnoresCommands : Obligations.BusyBlockIgnoresCommands := by
  refine ⟨fun s w rest hb hinputs => ?write, fun s rest h => ?read⟩
  case write =>
    have hb' : (s.setInputs rest).busy = true := hb
    by_cases hw : ∃ i, decode w = .ok i
    · obtain ⟨i, hi⟩ := hw
      rcases hinputs with h | h
      · rw [step_commandWrite h, commandWrite_legal hi, exec_busy i hb']; rfl
      · rw [step_hostStepped h, commandStepped_legal hi, issueStepped_busy i hb']; rfl
    · obtain ⟨hwrite, hstepped⟩ := commandWrite_illegal hw (s.setInputs rest)
      rcases hinputs with h | h
      · rw [step_commandWrite h, hwrite, issueIllegal_busy hb']; rfl
      · rw [step_hostStepped h, hstepped, issueIllegal_busy hb']; rfl
  case read => exact step_regRead_exact (r := .cmd) (Bool.and_false _) h

/-- Three bits in a row, bit 0 written last. -/
theorem threeBits_getLsbD (a b c : Bool) (n : Fin 3) :
    (BitVec.ofBool a ++ BitVec.ofBool b ++ BitVec.ofBool c).getLsbD n =
      if n.val = 0 then c else if n.val = 1 then b else a := by
  revert a b c n; decide

/-- The word of STATUS, bit by bit (R17). -/
theorem statusWord_getLsbD (s : State) (n : Nat) :
    (statusWord s).getLsbD n =
      if n = 0 then s.busy else if n = 1 then s.cfgErr else if n = 2 then s.illCmd else false := by
  rw [statusWord, BitVec.getLsbD_setWidth]
  by_cases h : n < 3
  · rw [threeBits_getLsbD _ _ _ ⟨n, h⟩]
    interval_cases n <;> rfl
  · rw [BitVec.getLsbD_of_ge _ _ (by omega)]
    simp [show n ≠ 0 by omega, show n ≠ 1 by omega, show n ≠ 2 by omega]

/-- Settles O46: the bits of the word are those of `statusWord_getLsbD`, and STATUS is read exactly. -/
theorem statusWordHasThreeBits : Obligations.StatusWordHasThreeBits := by
  refine ⟨fun s => ⟨statusWord_getLsbD s 0, statusWord_getLsbD s 1, statusWord_getLsbD s 2, fun n hn => ?_⟩,
    fun s rest h => step_regRead_exact (r := .status) (Bool.and_false _) h⟩
  rw [statusWord_getLsbD, if_neg (by omega), if_neg (by omega), if_neg (by omega)]

/-- The low bits a register of 16 or 8 bits takes from the word written (R25). -/
theorem setWidth_eq_extractLsb' {n : Nat} (v : Word) : v.setWidth n = v.extractLsb' 0 n := by
  ext i hi; simp

/-- Settles O47: each write is `regStore`'s case for the register. -/
theorem registerWritesTakeTheLowBits : Obligations.RegisterWritesTakeTheLowBits := by
  intro s v rest hb
  have hstore (r : RegName) (hr : r ≠ .cmd) (h : s.inputs = .host (.regWrite r.number v) :: rest) :
      step s = .next (regStore r v (s.setInputs rest)) := step_regWrite_number hr h
  refine ⟨fun h => ?status, fun h => ?len, fun h => ?sr, fun k h => ?cv⟩
  case status => rw [hstore .status nofun h]; simp only [regStore, State.setInputs_busy, hb]; rfl
  case len => rw [hstore .len nofun h]; simp only [regStore, State.setInputs_busy, hb]; rfl
  case sr =>
    rw [hstore .sr nofun h, ← setWidth_eq_extractLsb']
    simp only [regStore, State.setInputs_busy, hb]; rfl
  case cv =>
    rw [hstore (.cv k) nofun h, ← setWidth_eq_extractLsb']
    simp only [regStore, State.setInputs_busy, hb]; rfl

/-- Settles O48: while BUSY is 0 every register is read exactly. -/
theorem registerReadsAreExtended : Obligations.RegisterReadsAreExtended := by
  intro s rest hb
  have hread (r : RegName) (h : s.inputs = .host (.regRead r.number) :: rest) :
      step s = .next { s with inputs := rest, events := .regRead r.number (regValue s r) :: s.events } :=
    step_regRead_exact (by rw [hb]; rfl) h
  rw [BitVec.ofNat_toNat]
  exact ⟨hread .len, hread .sr, fun k => hread (.cv k)⟩

/-! ## The buffer port -/

section
variable {s : State} {rest : List Input} {j : Nat}

theorem step_sbRead_not_busy (hb : s.busy = false) (hj : j < s.params.sbDepth)
    (h : s.inputs = .host (.sbRead j) :: rest) :
    step s = .next (((s.setInputs rest).sbTouch j).emit (.sbRead j (s.sbValue j))) := by
  rw [step_hostAccess h rfl, hostAccess, sbRead, if_neg (by simpa using hj), if_neg (by simp [hb])]
  rfl

/-- A read of a written word while BUSY is 0 (R29, R36 (b)). -/
theorem step_sbRead_written {v : Sample} (hb : s.busy = false) (hj : j < s.params.sbDepth)
    (hv : Memory.get s.sb j = some v) (h : s.inputs = .host (.sbRead j) :: rest) :
    step s = .next { s with inputs := rest, events := .sbRead j v :: s.events } := by
  rw [step_sbRead_not_busy hb hj h, State.sbValue_written hv, State.sbTouch_written (s := s.setInputs rest) hv]
  rfl

/-- A read of an unwritten word while BUSY is 0 draws its value (R29). -/
theorem step_sbRead_unwritten (hb : s.busy = false) (hj : j < s.params.sbDepth)
    (hv : Memory.get s.sb j = none) (h : s.inputs = .host (.sbRead j) :: rest) :
    step s = .next { s with inputs := rest, events := .sbRead j s.drawnSample :: s.events, draws := s.draws + 1 } := by
  rw [step_sbRead_not_busy hb hj h]
  simp only [State.sbTouch, State.sbValue, State.setInputs_sb, hv]
  rfl

/-- A read while BUSY is 1 draws its value (R37). -/
theorem step_sbRead_busy (hb : s.busy = true) (hj : j < s.params.sbDepth)
    (h : s.inputs = .host (.sbRead j) :: rest) :
    step s = .next { s with inputs := rest, events := .sbRead j s.drawnSample :: s.events, draws := s.draws + 1 } := by
  rw [step_hostAccess h rfl, hostAccess, sbRead, if_neg (by simpa using hj), if_pos (by exact hb)]
  rfl

/-- A write while BUSY is 0 (R29). -/
theorem step_sbWrite_not_busy {v : Sample} (hb : s.busy = false) (hj : j < s.params.sbDepth)
    (h : s.inputs = .host (.sbWrite j v) :: rest) :
    step s = .next { s with inputs := rest, sb := Memory.put s.sb j v, events := .sbWrite j v :: s.events } := by
  rw [step_hostAccess h rfl, hostAccess, sbWrite, if_neg (by simpa using hj), if_neg (by simp [hb])]
  rfl

/-- A write while BUSY is 1 is ignored (R37). -/
theorem step_sbWrite_busy {v : Sample} (hb : s.busy = true) (hj : j < s.params.sbDepth)
    (h : s.inputs = .host (.sbWrite j v) :: rest) : step s = .next { s with inputs := rest } := by
  rw [step_hostAccess h rfl, hostAccess, sbWrite, if_neg (by simpa using hj), if_pos (by exact hb)]
  rfl

end

/-- Settles O50: the write puts the word into SB, and `Memory.get` of what was put gives it back at that index only. -/
theorem bufferReadReturnsTheLatestWrite : Obligations.BufferReadReturnsTheLatestWrite := by
  refine ⟨fun s j v rest hb hj h => ?writeRead, fun s j v rest hb hj h => ?write,
    fun s j v rest hb hj hv h => step_sbRead_written hb hj hv h,
    fun s j rest hb hj hv h => ⟨_, step_sbRead_unwritten hb hj hv h⟩⟩
  case writeRead =>
    refine ⟨_, step_sbWrite_not_busy hb hj h, fun l hl => Memory.get_put_other _ v hl, ?_⟩
    exact step_sbRead_written hb hj (Memory.get_put_same s.sb j v) rfl
  case write =>
    exact ⟨_, step_sbWrite_not_busy hb hj h, Memory.get_put_same _ _ _, fun l hl => Memory.get_put_other _ v hl⟩

/-- Every register number that is not reserved is the number of a register (R25). -/
theorem exists_number {n : Nat} (h : n ≤ 3 ∨ 8 ≤ n ∧ n ≤ 15) : ∃ r : RegName, n = r.number := by
  have hn : n < 16 := by omega
  rcases h with h | ⟨h, -⟩
  · interval_cases n
    exacts [⟨.cmd, rfl⟩, ⟨.status, rfl⟩, ⟨.len, rfl⟩, ⟨.sr, rfl⟩]
  · exact ⟨.cv ⟨n - 8, by omega⟩, by simp [RegName.number]; omega⟩

/-- Settles O49: a write of CMD is ignored by `busyBlockIgnoresCommands`, of another register by `regStore_busy`; reads
are exact for STATUS and draw a value for the others. -/
theorem busyRule : Obligations.BusyRule := by
  refine ⟨fun s a rest hb h => ⟨?regWrite, ?sbWrite, ?status, ?len, ?sr, ?cv, ?sbRead⟩, fun s => seqStep_not_busy⟩
  case regWrite =>
    rintro n v rfl hn
    obtain ⟨r, rfl⟩ := exists_number hn
    by_cases hr : r = .cmd
    · subst hr
      exact busyBlockIgnoresCommands.1 s v rest hb (.inl h)
    · rw [step_regWrite_number hr h, regStore_busy r v (s := s.setInputs rest) hb]
      rfl
  case sbWrite => rintro j v rfl hj; exact step_sbWrite_busy hb hj h
  case status => rintro rfl; exact step_regRead_exact (r := .status) (Bool.and_false _) h
  case len => rintro rfl; exact ⟨_, step_regRead_hidden (r := .len) hb rfl h⟩
  case sr => rintro rfl; exact ⟨_, step_regRead_hidden (r := .sr) hb rfl h⟩
  case cv => rintro k rfl; exact ⟨_, step_regRead_hidden (r := .cv k) hb rfl h⟩
  case sbRead => rintro j rfl hj; exact ⟨_, step_sbRead_busy hb hj h⟩

/-! ## WAIT and the channel's input -/

/-- A turn of SEQ leaves the inputs alone. -/
theorem seqStep_inputs {s t : State} (h : seqStep s = .next t) : t.inputs = s.inputs := by
  rcases seqStep_cases h with ⟨-, rfl⟩ | ⟨i, m, -, -, ⟨-, rfl⟩ | ⟨-, u, hu, rfl⟩⟩
  · rfl
  · rfl
  · obtain ⟨-, -, -, -, -, hinputs⟩ := micro_frame hu
    rw [State.setSeq_inputs, hinputs]

/-- Settles O52: the step at WAIT and at an input of the channel. -/
theorem waitAndChannelInputs : Obligations.WaitAndChannelInputs := by
  refine ⟨fun s rest h => ⟨fun hb => ⟨step_hostWait_busy h hb, fun t ht => ?_⟩, fun hb => step_hostWait_done h hb⟩,
    fun s a b v rest h => step_chan h⟩
  rw [step_hostWait_busy h hb] at ht
  exact seqStep_inputs ht

/-! ## SETVEC -/

/-- The accesses of the `WR` lines that write the listed slots of `v` (R52). -/
def slotWrites (v : Slots) (ks : List (Fin 8)) : List Input :=
  ks.map fun k => .host (.regWrite (RegName.cv k).number (v[k].signExtend 32))

theorem scriptInputs_setVec (v : Slots) : scriptInputs (Pseudo.setVec v).lines = slotWrites v slotIndices := by
  simp only [scriptInputs, Pseudo.lines, setVecLines, slotWrites, Line.inputs, WrReg.regName, List.flatMap_map]
  exact List.flatMap_pure_eq_map _ _

/-- The low byte of an extended slot is the slot (R25). -/
theorem setWidth_signExtend (x : Slot) : (x.signExtend 32).setWidth 8 = x := by
  revert x; decide

/-- One line a step, the listed slots are written in order. -/
theorem run_slotWrites (v : Slots) (ks : List (Fin 8)) {s : State} {rest : List Input} (hb : s.busy = false)
    (h : s.inputs = slotWrites v ks ++ rest) :
    run ks.length s = .next { s with
      inputs := rest, cv := ks.foldl (fun c k => c.set k.val v[k] k.isLt) s.cv } := by
  induction ks generalizing s with
  | nil => cases s; simp_all [slotWrites]
  | cons k ks ih =>
    have hstep := step_regWrite_number (r := .cv k) nofun h
    rw [List.length_cons, run_succ hstep]
    rw [ih (by simp [regStore, hb]) (by simp [regStore, hb]; rfl)]
    simp only [regStore, State.setInputs_busy, hb, setWidth_signExtend]
    rfl

/-- Writing every slot of a vector gives the vector. -/
theorem foldl_set_slots (c v : Slots) : slotIndices.foldl (fun c k => c.set k.val v[k] k.isLt) c = v := by
  ext i hi
  interval_cases i <;> simp [slotIndices]

/-- Settles O51: the eight lines write the eight slots. -/
theorem setvecLoadsTheVector : Obligations.SetvecLoadsTheVector := by
  intro s v rest hb h
  rw [scriptInputs_setVec] at h
  rw [show 8 = slotIndices.length from rfl, run_slotWrites v slotIndices hb h, foldl_set_slots]

end Sys2Proof.Machine
end

section
/-! PROOFS. What a step of the machine can do, as a relation with one constructor a kind of move
(spec/10_state.md R12), and what one micro-operation adds to the history (R58). -/

namespace Sys2Proof.Machine

open Sys2Proof

/-! ## The events of a micro-operation -/

/-- The entry a micro-operation makes in the history, if any (log 11). -/
def microEvents (m : Micro) (s : State) : List Event :=
  match m with
  | .led (.dataSet a) => [.dataSet a]
  | .led .dataSetSr => [.dataSet (s.sr.getLsbD 15)]
  | .led (.clkSet a) => [.clkSet a]
  | .rxTakeA => [.rxTake s.chan.rxData]
  | .rxTakeB => [.rxTake s.chan.rxData]
  | .storeA i => [.memWrite i s.hid.rxa]
  | .loadMa j => [.memRead j (s.sbValue j)]
  | .loadMb j => [.memRead j (s.sbValue j)]
  | .txPut src => [.txPut (txValue src s)]
  | _ => []

theorem microEvents_length (m : Micro) (s : State) : (microEvents m s).length ≤ 1 := by
  unfold microEvents; split <;> simp

/-- A micro-operation makes its entry in the history, and the pins follow the entry (R21, R58). -/
theorem micro_history {m : Micro} {s t : State} (h : micro m s = .next t) :
    t.history = s.history ++ microEvents m s ∧ (t.clk, t.data) = (microEvents m s).foldl pinsAfter (s.clk, s.data) := by
  cases m <;> simp only [micro] at h
  case led l =>
    simp only [Host.Outcome.next.injEq] at h; subst h
    cases l <;> simp [ledMicro, dataSet, clkSet, microEvents, pinsAfter]
  case rxTakeA => simp only [Host.Outcome.next.injEq] at h; subst h; simp [rxTake_spec, microEvents, pinsAfter]
  case rxTakeB => simp only [Host.Outcome.next.injEq] at h; subst h; simp [rxTake_spec, microEvents, pinsAfter]
  case storeA i => obtain ⟨_, rfl⟩ := seqStore_next.1 h; simp [microEvents, pinsAfter]
  case loadMa j =>
    obtain ⟨_, rfl⟩ := seqLoad_next.1 h
    rcases s.sbTouch_cases j with e | e <;> simp [e, microEvents, pinsAfter]
  case loadMb j =>
    obtain ⟨_, rfl⟩ := seqLoad_next.1 h
    rcases s.sbTouch_cases j with e | e <;> simp [e, microEvents, pinsAfter]
  all_goals simp only [Host.Outcome.next.injEq] at h; subst h; simp [txPut, microEvents, pinsAfter]

/-! ## The host's accesses -/

/-- What an access of HOST can do when it answers a next state: it writes a register or SB, or adds an entry to the
history that is no pin-driver call (R25, R28, R29). -/
theorem hostAccess_frame {a : HostAccess} {s t : State} (h : hostAccess a s = .next t) :
    t.params = s.params ∧ t.seq = s.seq ∧ t.cfgErr = s.cfgErr ∧ t.illCmd = s.illCmd ∧ t.clk = s.clk ∧
      t.data = s.data ∧ (t.sb = s.sb ∨ ∃ j v, j < s.params.sbDepth ∧ t.sb = Memory.put s.sb j v) ∧
      ∃ l : List Event, t.history = s.history ++ l ∧ ∀ e ∈ l, e.isPinCall = false ∧ e ≠ .reset := by
  cases a with
  | regRead n =>
    change regRead n s = .next t at h
    unfold regRead at h
    split at h
    · cases h
    · split_ifs at h <;> cases h <;> simp [Event.isPinCall]
  | regWrite n v =>
    change regWrite n v s = .next t at h
    unfold regWrite at h
    split at h
    · cases h
    · rename_i r _
      cases h
      unfold regStore
      split_ifs
      · simp
      · cases r <;> simp
  | sbRead j =>
    change sbRead j s = .next t at h
    unfold sbRead at h
    split_ifs at h
    · cases h; simp [Event.isPinCall]
    · cases h
      rcases s.sbTouch_cases j with e | e <;> simp [e, Event.isPinCall]
  | sbWrite j v =>
    change sbWrite j v s = .next t at h
    unfold sbWrite at h
    split_ifs at h with hj
    · cases h; simp
    · cases h
      exact ⟨rfl, rfl, rfl, rfl, rfl, rfl, .inr ⟨j, v, by simpa using hj, rfl⟩, [.sbWrite j v], by simp,
        by simp [Event.isPinCall]⟩

/-! ## The moves of the machine -/

/-- What a step does once the input it consumes is off the list: nothing, one micro-operation of SEQ, the issue of a
command with its three outcomes, an access of HOST, an input of the channel, or RESET (R12, R53, R84). -/
inductive Move : State → State → Prop
  | stay (s : State) : Move s s
  | taken {s u : State} {i : Instr} {m : Micro} (hop : s.seq.op = some i) (hn : s.nextMicro = some m)
      (hu : micro m s = .next u) : Move s (u.setSeq (Seq.advance i s.seq))
  | ledCommand {s : State} {i : Instr} (hb : s.busy = false) :
      Move s (((runLed (ledMicros i) s).setErr false false).setSeq Seq.idle)
  | accepted {s : State} {i : Instr} (hb : s.busy = false) (hwf : i.wellFormed = true)
      (hl : i.streaming = true → lenOk s.len.toNat s.params.sbDepth = true) : Move s (accept i s)
  | rejected {s : State} {cfg ill : Bool} (hb : s.busy = false) (hexcl : (cfg && ill) = false) :
      Move s (s.setErr cfg ill)
  | access {s t : State} {a : HostAccess} (h : hostAccess a s = .next t) : Move s t
  | chan (s : State) (a : Bool) (v : Sample) (b : Bool) : Move s (chanSet a v b s)
  | reset (s : State) : Move s (resetBlock s)

/-- A turn of SEQ is a move. -/
theorem move_of_seqStep {s t : State} (h : seqStep s = .next t) : Move s t := by
  rcases seqStep_cases h with ⟨-, rfl⟩ | ⟨i, m, hop, hn, ⟨-, rfl⟩ | ⟨-, u, hu, rfl⟩⟩
  · exact .stay _
  · exact .stay _
  · exact .taken hop hn hu

/-- The issue of a command that a word can say is a move. -/
theorem move_of_exec {i : Instr} {s t : State} (hwf : i.wellFormed = true) (h : exec i s = .next t) : Move s t := by
  cases hb : s.busy with
  | true => rw [exec_busy i hb] at h; cases h; exact .stay _
  | false =>
    rcases exec_not_busy i hb with ⟨-, he⟩ | ⟨-, hl, he⟩ | ⟨-, -, he⟩ <;> rw [he] at h <;> cases h
    · exact .ledCommand hb
    · exact .accepted hb hwf fun _ => hl
    · exact .rejected hb rfl

/-- The stepped issue of a command that a word can say is a move. -/
theorem move_of_issueStepped {i : Instr} {s t : State} (hwf : i.wellFormed = true) (h : issueStepped i s = .next t) :
    Move s t := by
  cases hs : i.streaming with
  | true => rw [issueStepped_stream hs] at h; exact move_of_exec hwf h
  | false =>
    cases hb : s.busy with
    | true => rw [issueStepped_busy i hb] at h; cases h; exact .stay _
    | false =>
      rw [issueStepped_led_not_busy hs hb] at h; cases h
      exact .accepted hb hwf fun he => by rw [hs] at he; cases he

/-- The rejection of a word that is no command is a move. -/
theorem move_of_issueIllegal {s t : State} (h : issueIllegal s = .next t) : Move s t := by
  cases hb : s.busy with
  | true => rw [issueIllegal_busy hb] at h; cases h; exact .stay _
  | false => rw [issueIllegal_not_busy hb] at h; cases h; exact .rejected hb rfl

/-- Every step takes at most an input off the list and makes one move. -/
theorem step_move {s t : State} (h : step s = .next t) : ∃ r, Move (s.setInputs r) t := by
  have hsame : s.setInputs s.inputs = s := rfl
  rcases step_cases h with ⟨-, h⟩ | ⟨r, -, h⟩ | ⟨w, r, -, h⟩ | ⟨a, r, -, -, h⟩ | ⟨w, r, -, h⟩ |
    ⟨r, -, ⟨-, h⟩ | ⟨-, rfl⟩⟩ | ⟨a, v, b, r, -, rfl⟩ | ⟨r, -, rfl⟩
  · exact ⟨s.inputs, move_of_seqStep (by rwa [hsame])⟩
  · exact ⟨r, move_of_seqStep h⟩
  · refine ⟨r, ?_⟩
    by_cases hw : ∃ i, decode w = .ok i
    · obtain ⟨i, hi⟩ := hw
      rw [commandWrite_legal hi] at h
      exact move_of_exec (encodeOfDecodeIsIdentity w i hi).2 h
    · rw [(commandWrite_illegal hw _).1] at h
      exact move_of_issueIllegal h
  · exact ⟨r, .access h⟩
  · refine ⟨r, ?_⟩
    by_cases hw : ∃ i, decode w = .ok i
    · obtain ⟨i, hi⟩ := hw
      rw [commandStepped_legal hi] at h
      exact move_of_issueStepped (encodeOfDecodeIsIdentity w i hi).2 h
    · rw [(commandWrite_illegal hw _).2] at h
      exact move_of_issueIllegal h
  · exact ⟨s.inputs, move_of_seqStep (by rwa [hsame])⟩
  · exact ⟨r, .stay _⟩
  · exact ⟨r, .chan _ _ _ _⟩
  · exact ⟨r, .reset _⟩

/-! ## The parameters -/

theorem Move.params {s t : State} (h : Move s t) : t.params = s.params := by
  cases h with
  | taken _ _ hu => obtain ⟨-, -, -, -, hparams, -⟩ := micro_frame hu; exact hparams
  | @ledCommand i _ => obtain ⟨-, -, -, -, hparams, -⟩ := runLed_frame (ledMicros i) s; exact hparams
  | access h => obtain ⟨hparams, -⟩ := hostAccess_frame h; exact hparams
  | _ => rfl

/-- Settles O59: no move changes the parameters. -/
theorem stepKeepsTheParameters : Obligations.StepKeepsTheParameters := by
  intro s t h
  obtain ⟨r, hmove⟩ := step_move h
  exact hmove.params

/-! ## A whole LED list -/

/-- A command's first list leaves CLK 0, and its calls are none or one frame (R54 to R61, R65). -/
theorem runLed_ledMicros_calls (i : Instr) {s : State} (h : s.clk = false) :
    (runLed (ledMicros i) s).clk = false ∧
      ∃ calls, (runLed (ledMicros i) s).events = calls.reverse ++ s.events ∧
        (calls = [] ∨ ∃ p, calls = frameEvents p) := by
  cases i with
  | encode => rw [ledMicros, runLed_encode]; exact ⟨h, [], rfl, .inl rfl⟩
  | transmit => rw [ledMicros, runLed_transmit h]; exact ⟨h, _, rfl, .inr ⟨_, rfl⟩⟩
  | setall => rw [ledMicros, runLed_setall h]; exact ⟨h, _, rfl, .inr ⟨_, rfl⟩⟩
  | setone a b => rw [ledMicros, runLed_setone a b h]; exact ⟨h, _, rfl, .inr ⟨_, rfl⟩⟩
  | resetv => rw [ledMicros, runLed_resetv]; exact ⟨h, [], rfl, .inl rfl⟩
  | advance => rw [ledMicros, runLed_advance]; exact ⟨h, [], rfl, .inl rfl⟩
  | capture => rw [ledMicros, runLed_progressInit h]; exact ⟨h, _, rfl, .inr ⟨_, rfl⟩⟩
  | playback e => rw [ledMicros, runLed_progressInit h]; exact ⟨h, _, rfl, .inr ⟨_, rfl⟩⟩

end Sys2Proof.Machine
end

section
/-! PROOFS. The invariant of the machine (spec/10_state.md R14, R17, R22, R27). -/

namespace Sys2Proof.Machine

open Sys2Proof

/-! ## CLK and the position -/

/-- In a list of whole pulses what comes after an assertion of CLK is its release. -/
theorem wholePulses_after_assert {l : List Micro} {k : Nat} {m : Micro} (h : wholePulses l = true)
    (hlast : (l.take k).getLast? = some (.led (.clkSet true))) (hm : l[k]? = some m) : m = .led (.clkSet false) := by
  have hk : k < l.length := (List.getElem?_eq_some_iff.1 hm).1
  rw [List.getLast?_take] at hlast
  split_ifs at hlast with h0
  rw [List.getElem?_eq_getElem (by omega), Option.some_or] at hlast
  have hnext := wholePulses_next h (k - 1) (by rw [List.getElem?_eq_getElem (by omega), hlast])
  rw [Nat.sub_add_cancel (by omega), hm] at hnext
  exact Option.some.inj hnext

/-- At every micro-operation but the release of a pulse CLK is 0 (R27 (a)). -/
theorem State.clkSound.clk_false {s : State} {m : Micro} (h : s.clkSound) (hn : s.nextMicro = some m)
    (hm : m ≠ .led (.clkSet false)) : s.clk = false := by
  cases hclk : s.clk with
  | false => rfl
  | true =>
    have hlast := h.1 hclk
    unfold State.takenMicros at hlast
    unfold State.nextMicro at hn
    cases hop : s.seq.op with
    | none => simp [hop] at hn
    | some i =>
      simp only [hop] at hlast hn
      exact absurd (wholePulses_after_assert (block_wholePulses i _ _).1 hlast hn) hm

/-- While BUSY is 0 CLK is 0 (R27 (a)). -/
theorem State.clkSound.clk_false_of_not_busy {s : State} (h : s.clkSound) (hb : s.busy = false) : s.clk = false := by
  cases hclk : s.clk with
  | false => rfl
  | true => have hlast := h.1 hclk; simp [State.takenMicros_of_not_busy hb] at hlast

/-- With CLK 0 and nothing taken the clock is sound. -/
theorem State.clkSound_of_nothing_taken {s : State} (hclk : s.clk = false) (htaken : s.takenMicros = []) :
    s.clkSound := by simp [State.clkSound, hclk, htaken]

/-! ## The invariant under a move -/

/-- The invariant reads the parameters, SB, the error bits, SEQ and CLK only. -/
theorem State.Inv.congr {s t : State} (h : s.Inv) (hparams : t.params = s.params) (hsb : t.sb = s.sb)
    (hcfg : t.cfgErr = s.cfgErr) (hill : t.illCmd = s.illCmd) (hseq : t.seq = s.seq) (hclk : t.clk = s.clk) :
    t.Inv := by
  obtain ⟨a, b, c, d, e⟩ := h
  refine ⟨?_, ?_, ?_, ?_, ?_⟩
  · rwa [State.paramsSound, hparams]
  · rwa [State.sbSound, hparams, hsb]
  · rwa [State.statusSound, State.busy, hcfg, hill, hseq]
  · rwa [State.seqSound, hparams, hseq]
  · rwa [State.clkSound, State.takenMicros, hclk, hseq]

/-- SEQ's move to the next position keeps it at a place of its command's list, or makes it idle (R14). -/
theorem State.seqSound_advance {s t : State} {i : Instr} (h : s.seqSound) (hop : s.seq.op = some i)
    (hparams : t.params = s.params) (hseq : t.seq = Seq.advance i s.seq) : t.seqSound := by
  simp only [State.seqSound, hop] at h
  obtain ⟨hwf, hlen, hblk, hk⟩ := h
  unfold State.seqSound
  rw [hseq, hparams]
  unfold Seq.advance
  split_ifs with hplace hblock
  · simp only [hop]; exact ⟨hwf, hlen, hblk, hplace⟩
  · simp only [hop]; exact ⟨hwf, hlen, hblock, block_length_pos hblock⟩
  · rfl

/-- A micro-operation of SEQ keeps SB sound (R22, R29). -/
theorem micro_sbSound {m : Micro} {s t : State} (h : s.sbSound) (hu : micro m s = .next t) : t.sbSound := by
  obtain ⟨hstore, hother⟩ := micro_sb hu
  obtain ⟨-, -, -, -, hparams, -⟩ := micro_frame hu
  by_cases hm : ∃ i, m = .storeA i
  · obtain ⟨i, rfl⟩ := hm
    have hput := State.sbSound_put s.hid.rxa h (seqStore_next.1 hu).1
    rw [State.sbSound, hstore i rfl, hparams]
    exact hput
  · rwa [State.sbSound, hother fun i hi => hm ⟨i, hi⟩, hparams]

/-- A micro-operation and the move of the position keep CLK 1 exactly inside a pulse (R27 (a)). -/
theorem clkSound_taken {s u : State} {i : Instr} {m : Micro} (h : s.clkSound) (hop : s.seq.op = some i)
    (hn : s.nextMicro = some m) (hu : micro m s = .next u) : (u.setSeq (Seq.advance i s.seq)).clkSound := by
  have hclk : u.clk = decide (m = .led (.clkSet true)) := by
    rw [micro_clk hu]
    split_ifs with hset hrelease
    · simp [hset]
    · simp [hset]
    · simp [hset, h.clk_false hn hrelease]
  rcases takenMicros_advance (u := u) hop hn with ⟨htaken, -⟩ | ⟨htaken, -, hm⟩
  · rw [State.clkSound, htaken]
    simp [hclk]
  · exact State.clkSound_of_nothing_taken (by simp [hclk, hm]) htaken

theorem Move.inv {s t : State} (hmove : Move s t) (h : s.Inv) : t.Inv := by
  have hinv := h
  obtain ⟨hp, hsb, hst, hseq, hclk⟩ := h
  cases hmove with
  | stay => exact hinv
  | @taken u i m hop hn hu =>
    obtain ⟨-, -, hcfg, hill, hparams, -⟩ := micro_frame hu
    have hsb' := micro_sbSound hsb hu
    refine ⟨?_, hsb', ?_, State.seqSound_advance hseq hop hparams rfl, clkSound_taken hclk hop hn hu⟩
    · rwa [State.paramsSound, State.setSeq_params, hparams]
    · have hbits := hst.2 (by simp [State.busy, hop])
      simp [State.statusSound, hcfg, hill, hbits]
  | @ledCommand i hb =>
    have hclk0 := hclk.clk_false_of_not_busy hb
    obtain ⟨-, hsb', -, -⟩ := runLed_outside (ledMicros i) s
    obtain ⟨-, -, -, -, hparams, -⟩ := runLed_frame (ledMicros i) s
    refine ⟨?_, ?_, by simp [State.statusSound], rfl,
      State.clkSound_of_nothing_taken (runLed_ledMicros_calls i hclk0).1 rfl⟩
    · simpa [State.paramsSound, hparams] using hp
    · simpa [State.sbSound, hparams, hsb'] using hsb
  | @accepted i hb hwf hl =>
    exact ⟨hp, hsb, by simp [State.statusSound, accept, clearErrors],
      ⟨hwf, hl, by simp [accept, blockCount], block_length_pos (by simp [accept, blockCount])⟩,
      State.clkSound_of_nothing_taken (hclk.clk_false_of_not_busy hb) rfl⟩
  | @rejected cfg ill hb hexcl =>
    exact ⟨hp, hsb, ⟨by simpa using hexcl, by simp [hb]⟩, hseq, hclk⟩
  | access ha =>
    obtain ⟨hparams, hseq', hcfg, hill, hclk', -, hmem, -⟩ := hostAccess_frame ha
    rcases hmem with hmem | ⟨j, v, hj, hmem⟩
    · exact hinv.congr hparams hmem hcfg hill hseq' hclk'
    · have hput : (s.setSb (Memory.put s.sb j v)).Inv := ⟨hp, State.sbSound_put v hsb hj, hst, hseq, hclk⟩
      exact hput.congr hparams hmem hcfg hill hseq' hclk'
  | chan => exact hinv.congr rfl rfl rfl rfl rfl rfl
  | reset =>
    exact ⟨hp, ⟨rfl, nofun⟩, by simp [State.statusSound, resetBlock], rfl, State.clkSound_of_nothing_taken rfl rfl⟩

/-- Settles O56: taking an input off the list touches nothing the invariant reads, and every move keeps it. -/
theorem stepKeepsTheInvariant : Obligations.StepKeepsTheInvariant := by
  intro s t hinv h
  obtain ⟨r, hmove⟩ := step_move h
  exact hmove.inv (hinv.congr rfl rfl rfl rfl rfl rfl)

end Sys2Proof.Machine
end

section
/-! PROOFS. The invariants of the history: the pins, the count of pulses and the glitch-free data line
(spec/10_state.md R21, R27; spec/41_led_link.md R62). -/

namespace Sys2Proof.Machine

open Sys2Proof

/-! ## Growing a history -/

theorem pinsOf_append (h l : List Event) : pinsOf (h ++ l) = l.foldl pinsAfter (pinsOf h) := List.foldl_append

/-- Without a RESET among them, new events only add the pulses they begin. -/
theorem pulsesSinceReset_append (h l : List Event) (hl : .reset ∉ l) :
    pulsesSinceReset (h ++ l) = pulsesSinceReset h + l.count (.clkSet true) := by
  induction l using List.reverseRecOn with
  | nil => simp
  | append_singleton l e ih =>
    simp only [List.mem_append, List.mem_singleton, not_or] at hl
    obtain ⟨hl, he⟩ := hl
    have ih := ih hl
    unfold pulsesSinceReset at ih ⊢
    rw [← List.append_assoc, List.foldl_append, ih, List.count_append, List.foldl_cons, List.foldl_nil,
      if_neg (Ne.symm he), List.count_singleton']
    split_ifs <;> simp_all; omega

/-- A glitch-free history, grown by events that are glitch-free from the pins it ends with. -/
theorem glitchFree_append (p : Bool × Bool) (a b : List Event) :
    glitchFree p (a ++ b) = (glitchFree p a && glitchFree (a.foldl pinsAfter p) b) := by
  induction a generalizing p with
  | nil => rfl
  | cons e a ih => simp only [List.cons_append, glitchFree, ih, List.foldl_cons, Bool.and_assoc]

/-- An event that is neither a pin-driver call nor RESET leaves the pins alone. -/
theorem pinsAfter_of_not_pinCall {e : Event} (h : e.isPinCall = false ∧ e ≠ .reset) (p : Bool × Bool) :
    pinsAfter p e = p := by
  obtain ⟨hcall, hreset⟩ := h
  cases e with
  | dataSet a => cases hcall
  | clkSet a => cases hcall
  | reset => exact absurd rfl hreset
  | _ => rfl

section
variable {l : List Event} (hl : ∀ e ∈ l, e.isPinCall = false ∧ e ≠ .reset)
include hl

/-- Events that are neither pin-driver calls nor RESET leave the pins alone. -/
theorem foldl_pinsAfter_of_not_pinCalls (p : Bool × Bool) : l.foldl pinsAfter p = p := by
  induction l with
  | nil => rfl
  | cons e l ih =>
    rw [List.forall_mem_cons] at hl
    rw [List.foldl_cons, pinsAfter_of_not_pinCall hl.1, ih hl.2]

/-- Events that are neither pin-driver calls nor RESET make no glitch. -/
theorem glitchFree_of_not_pinCalls (p : Bool × Bool) : glitchFree p l = true := by
  induction l with
  | nil => rfl
  | cons e l ih =>
    rw [List.forall_mem_cons] at hl
    simp [glitchFree, pinsAfter_of_not_pinCall hl.1, ih hl.2]

/-- Events that are neither pin-driver calls nor RESET begin no pulse. -/
theorem count_clkSet_of_not_pinCalls : l.count (.clkSet true) = 0 :=
  List.count_eq_zero.2 fun h => by simpa [Event.isPinCall] using (hl _ h).1

end

/-! ## The pins and the pulses along micro-operations -/

/-- The entry of a micro-operation begins a pulse exactly at `ClkSet(1)`, and is never RESET's (R58). -/
theorem microEvents_pulses (m : Micro) (s : State) :
    (microEvents m s).count (.clkSet true) = pulsesIn [m] ∧ .reset ∉ microEvents m s := by
  cases m with
  | led l => cases l <;> simp [microEvents, pulsesIn, List.count_singleton']
  | _ => simp [microEvents, pulsesIn]

/-- A micro-operation keeps the pins recorded and begins the pulses it is (R21, R58). -/
theorem micro_recorded {m : Micro} {s t : State} (h : micro m s = .next t) :
    (s.pinsRecorded → t.pinsRecorded) ∧
      pulsesSinceReset t.history = pulsesSinceReset s.history + pulsesIn [m] := by
  obtain ⟨hhist, hpins⟩ := micro_history h
  obtain ⟨hcount, hreset⟩ := microEvents_pulses m s
  refine ⟨fun hs => ?_, ?_⟩
  · rw [State.pinsRecorded, hhist, pinsOf_append, hs, hpins]
  · rw [hhist, pulsesSinceReset_append _ _ hreset, hcount]

/-- A list of micro-operations keeps the pins recorded and begins its pulses (R21, R58). -/
theorem microRun_recorded {ms : List Micro} {s t : State} (h : microRun ms s = some t) :
    (s.pinsRecorded → t.pinsRecorded) ∧ pulsesSinceReset t.history = pulsesSinceReset s.history + pulsesIn ms := by
  induction ms generalizing s with
  | nil => cases h; exact ⟨id, rfl⟩
  | cons m ms ih =>
    simp only [microRun] at h
    split_ifs at h
    split at h
    · rename_i u hu
      obtain ⟨hpins, hpulses⟩ := micro_recorded hu
      obtain ⟨hpins', hpulses'⟩ := ih h
      refine ⟨hpins' ∘ hpins, ?_⟩
      rw [hpulses', hpulses, Nat.add_assoc, ← pulsesIn_append, List.singleton_append]
    · cases h
    · cases h

/-! ## The moves -/

theorem Move.pinsRecorded {s t : State} (hmove : Move s t) (h : s.pinsRecorded) : t.pinsRecorded := by
  cases hmove with
  | taken _ _ hu => exact (micro_recorded hu).1 h
  | @ledCommand i _ => exact (microRun_recorded (microRun_led (ledMicros i) s)).1 h
  | access ha =>
    obtain ⟨-, -, -, -, hclk, hdata, -, l, hhist, hl⟩ := hostAccess_frame ha
    rw [State.pinsRecorded, hhist, pinsOf_append, foldl_pinsAfter_of_not_pinCalls hl, hclk, hdata, h]
  | reset => rw [State.pinsRecorded, resetBlock_history, pinsOf_append]; rfl
  | _ => exact h

theorem Move.pulsesSound {s t : State} (hmove : Move s t) (h : s.pulsesSound) : t.pulsesSound := by
  cases hmove with
  | @taken u i m hop hn hu =>
    have hcount := (micro_recorded hu).2
    unfold State.pulsesSound at h ⊢
    rw [State.setSeq_history, hcount, Nat.add_mod, h, ← Nat.add_mod, ← pulsesIn_append]
    rcases takenMicros_advance (u := u) hop hn with ⟨htaken, -⟩ | ⟨htaken, hblock, -⟩
    · rw [htaken]
    · rw [htaken, hblock, (block_wholePulses i _ _).2]; rfl
  | @ledCommand i hb =>
    have hcount := (microRun_recorded (microRun_led (ledMicros i) s)).2
    have hwhole : pulsesIn ((ledMicros i).map .led) % 32 = 0 := (block_wholePulses i 0 0).2
    unfold State.pulsesSound at h ⊢
    rw [State.takenMicros_of_not_busy hb] at h
    rw [State.takenMicros_of_not_busy (by rfl)]
    change pulsesSinceReset (runLed (ledMicros i) s).history % 32 = _
    rw [hcount, Nat.add_mod, h, hwhole]; rfl
  | accepted hb =>
    unfold State.pulsesSound at h ⊢
    rw [State.takenMicros_of_not_busy hb] at h
    exact h
  | access ha =>
    obtain ⟨-, hseq, -, -, -, -, -, l, hhist, hl⟩ := hostAccess_frame ha
    unfold State.pulsesSound at h ⊢
    rw [hhist, pulsesSinceReset_append _ _ fun hr => (hl _ hr).2 rfl, count_clkSet_of_not_pinCalls hl, Nat.add_zero, h,
      State.takenMicros, State.takenMicros, hseq]
  | reset => rw [State.pulsesSound, resetBlock_history, pulsesSinceReset, List.foldl_append]; rfl
  | _ => exact h

/-- Settles O57: every move keeps both, from any state; with nothing taken the count is that of an empty list. -/
theorem stepKeepsPinsAndPulseCount : Obligations.StepKeepsPinsAndPulseCount := by
  intro s t h
  obtain ⟨r, hmove⟩ := step_move h
  refine ⟨hmove.pinsRecorded, hmove.pulsesSound, fun ht hb => ?_⟩
  rw [State.pulsesSound, State.takenMicros_of_not_busy hb] at ht
  exact ht

/-! ## The data line -/

/-- The entry of a micro-operation makes no glitch while CLK is 0, nor does the release of a pulse (R62). -/
theorem glitchFree_microEvents {m : Micro} {s : State} (h : m = .led (.clkSet false) ∨ s.clk = false) :
    glitchFree (s.clk, s.data) (microEvents m s) = true := by
  rcases h with rfl | hclk
  · simp [microEvents, glitchFree, pinsAfter]
  · unfold microEvents
    split <;> simp [glitchFree, pinsAfter, hclk]

/-- From a sound state a move adds to the history events that are glitch-free from the present pins (R27 (b)). -/
theorem Move.adds_glitchFree {s t : State} (hmove : Move s t) (h : s.Inv) :
    ∃ l, t.history = s.history ++ l ∧ glitchFree (s.clk, s.data) l = true := by
  obtain ⟨-, -, -, -, hclk⟩ := h
  cases hmove with
  | @taken u i m hop hn hu =>
    refine ⟨_, (micro_history hu).1, glitchFree_microEvents ?_⟩
    by_cases hm : m = .led (.clkSet false)
    · exact .inl hm
    · exact .inr (hclk.clk_false hn hm)
  | @ledCommand i hb =>
    have hclk0 := hclk.clk_false_of_not_busy hb
    obtain ⟨-, calls, hevents, hcalls⟩ := runLed_ledMicros_calls i hclk0
    refine ⟨calls, history_append hevents, ?_⟩
    rcases hcalls with rfl | ⟨p, rfl⟩
    · rfl
    · rw [hclk0]; exact glitchFree_frameEvents p s.data
  | access ha =>
    obtain ⟨-, -, -, -, -, -, -, l, hhist, hl⟩ := hostAccess_frame ha
    exact ⟨l, hhist, glitchFree_of_not_pinCalls hl _⟩
  | reset => exact ⟨[.reset], resetBlock_history s, by simp [glitchFree]⟩
  | _ => exact ⟨[], (List.append_nil _).symm, rfl⟩

/-- Settles O58: the history grows by events that are glitch-free from the pins it recorded. -/
theorem stepKeepsTheHistoryGlitchFree : Obligations.StepKeepsTheHistoryGlitchFree := by
  intro s t hinv hpins hfree h
  obtain ⟨r, hmove⟩ := step_move h
  obtain ⟨l, hhist, hl⟩ := hmove.adds_glitchFree (hinv.congr rfl rfl rfl rfl rfl rfl)
  rw [State.setInputs_history] at hhist
  have hstart : s.history.foldl pinsAfter (false, false) = (s.clk, s.data) := hpins
  rw [hhist, glitchFree_append, hfree, hstart, Bool.true_and]
  exact hl

/-- Settles O55: the reset state is idle with CLK 0, an empty SB and an empty history. -/
theorem resetStateIsSound : Obligations.ResetStateIsSound := by
  refine ⟨⟨?params, ⟨rfl, nofun⟩, ⟨nofun, nofun⟩, rfl, State.clkSound_of_nothing_taken rfl rfl⟩, rfl, rfl⟩
  case params =>
    change 2 * 25000 < 2 ^ 32
    decide

end Sys2Proof.Machine
end

section
/-! PROOFS. Where the machine stops (spec/10_state.md R29; spec/93_implementation_defined.md U9). -/

namespace Sys2Proof.Machine

open Sys2Proof

/-- A turn of SEQ from a sound position answers a next state (R14, R29). -/
theorem seqStep_next {s : State} (h : s.seqSound) : ∃ t, seqStep s = .next t := by
  cases hop : s.seq.op with
  | none => exact ⟨s, seqStep_not_busy (by simp [State.busy, hop])⟩
  | some i =>
    have hplace := h
    simp only [State.seqSound, hop] at hplace
    obtain ⟨-, -, -, hk⟩ := hplace
    obtain ⟨m, hn⟩ : ∃ m, s.nextMicro = some m := by
      simp only [State.nextMicro, hop]
      exact ⟨_, List.getElem?_eq_getElem hk⟩
    obtain ⟨u, hu⟩ := micro_next fun j hj => h.sbIndex?_lt hn hj
    cases he : m.enabled s with
    | true => exact ⟨_, seqStep_micro hop hn he hu⟩
    | false => exact ⟨s, seqStep_held hop hn he⟩

/-- An access of HOST answers a next state unless it names a reserved register or an index outside SB (U9). -/
theorem hostAccess_outcome (a : HostAccess) (s : State) :
    (∃ t, hostAccess a s = .next t) ∨
    (∃ n v, (a = .regRead n ∨ a = .regWrite n v) ∧ regOf n = none ∧ hostAccess a s = .refused (.reservedRegister n)) ∨
    (∃ j v, (a = .sbRead j ∨ a = .sbWrite j v) ∧ s.params.sbDepth ≤ j ∧
      hostAccess a s = .refused (.sbIndexOutside j)) := by
  cases a with
  | regRead n =>
    cases hr : regOf n with
    | none => exact .inr (.inl ⟨n, 0, .inl rfl, hr, by simp [hostAccess, regRead, hr]⟩)
    | some r => left; simp only [hostAccess, regRead, hr]; split_ifs <;> exact ⟨_, rfl⟩
  | regWrite n v =>
    cases hr : regOf n with
    | none => exact .inr (.inl ⟨n, v, .inr rfl, hr, by simp [hostAccess, regWrite, hr]⟩)
    | some r => exact .inl ⟨_, by simp only [hostAccess, regWrite, hr]; rfl⟩
  | sbRead j =>
    by_cases hj : s.params.sbDepth ≤ j
    · exact .inr (.inr ⟨j, 0, .inl rfl, hj, if_pos hj⟩)
    · left; rw [hostAccess, sbRead, if_neg hj]; split_ifs <;> exact ⟨_, rfl⟩
  | sbWrite j v =>
    by_cases hj : s.params.sbDepth ≤ j
    · exact .inr (.inr ⟨j, v, .inr rfl, hj, if_pos hj⟩)
    · left; rw [hostAccess, sbWrite, if_neg hj]; split_ifs <;> exact ⟨_, rfl⟩

/-- A write to CMD answers a next state, in either form (R76). -/
theorem commandWrite_next (w : Word) (s : State) :
    (∃ t, commandWrite w s = .next t) ∧ ∃ t, commandStepped w s = .next t := by
  by_cases hw : ∃ i, decode w = .ok i
  · obtain ⟨i, hi⟩ := hw
    rw [commandWrite_legal hi, commandStepped_legal hi]
    refine ⟨everyCommandAnswersANextState i s, ?_⟩
    cases hs : i.streaming with
    | true => rw [issueStepped_stream hs]; exact everyCommandAnswersANextState i s
    | false =>
      cases hb : s.busy with
      | true => exact ⟨_, issueStepped_busy i hb⟩
      | false => exact ⟨_, issueStepped_led_not_busy hs hb⟩
  · obtain ⟨hwrite, hstepped⟩ := commandWrite_illegal hw s
    rw [hwrite, hstepped]
    cases hb : s.busy with
    | true => exact ⟨⟨_, issueIllegal_busy hb⟩, _, issueIllegal_busy hb⟩
    | false => exact ⟨⟨_, issueIllegal_not_busy hb⟩, _, issueIllegal_not_busy hb⟩

/-- From a sound state a step answers a next state, or is an access of HOST that is no write to CMD (R76, U9). -/
theorem step_next_or_access {s : State} (h : s.seqSound) :
    (∃ t, step s = .next t) ∨
      ∃ a rest, s.inputs = .host a :: rest ∧ step s = hostAccess a (s.setInputs rest) := by
  match hi : s.inputs with
  | [] => rw [step_seq hi]; exact .inl (seqStep_next h)
  | .seq :: rest => rw [step_seqTurn hi]; exact .inl (seqStep_next (s := s.setInputs rest) h)
  | .host a :: rest =>
    cases hw : a.commandWord with
    | none => exact .inr ⟨a, rest, rfl, step_hostAccess hi hw⟩
    | some w =>
      left
      have hstep : step s = commandWrite w (s.setInputs rest) := by simp [step, hi, hostTurn, hw]
      rw [hstep]; exact (commandWrite_next w _).1
  | .hostStepped w :: rest => rw [step_hostStepped hi]; exact .inl (commandWrite_next w _).2
  | .hostWait :: rest =>
    cases hb : s.busy with
    | true => rw [step_hostWait_busy hi hb]; exact .inl (seqStep_next h)
    | false => exact .inl ⟨_, step_hostWait_done hi hb⟩
  | .chan a v b :: rest => exact .inl ⟨_, step_chan hi⟩
  | .reset :: rest => exact .inl ⟨_, step_reset hi⟩

/-- Settles O13: only an access of HOST can stop a sound state, and only at a reserved register or outside SB; there
it is refused from any state. -/
theorem soundStatesStopOnlyAtReservedHostAccesses : Obligations.SoundStatesStopOnlyAtReservedHostAccesses := by
  refine ⟨fun s hinv => ?sound, fun s n v rest hn h => ?register, fun s j v rest hj h => ?buffer⟩
  case sound =>
    obtain ⟨-, -, -, hseq, -⟩ := hinv
    rcases step_next_or_access hseq with ⟨t, ht⟩ | ⟨a, rest, hi, hstep⟩
    · rw [ht]; exact ⟨nofun, nofun⟩
    · rw [hstep]
      rcases hostAccess_outcome a (s.setInputs rest) with ⟨t, ht⟩ | ⟨n, v, ha, hn, ht⟩ | ⟨j, v, ha, hj, ht⟩
      · rw [ht]; exact ⟨nofun, nofun⟩
      · rw [ht]
        exact ⟨nofun, fun r hr => ⟨a, rest, hi, .inl ⟨n, v, ha, (regOf_reserved n).1 hn, by cases hr; rfl⟩⟩⟩
      · rw [ht]
        exact ⟨nofun, fun r hr => ⟨a, rest, hi, .inr ⟨j, v, ha, hj, by cases hr; rfl⟩⟩⟩
  case register =>
    have hr := (regOf_reserved n).2 hn
    rcases h with h | h
    · rw [step_hostAccess h rfl]; simp [hostAccess, regRead, hr]
    · rw [step_regWrite (by omega) h]; simp [regWrite, hr]
  case buffer =>
    rcases h with h | h
    · rw [step_hostAccess h rfl]; exact if_pos hj
    · rw [step_hostAccess h rfl]; exact if_pos hj

end Sys2Proof.Machine
end

section
/-! PROOFS. The arithmetic of lengths and of the attenuation (spec/42_stream.md R64, spec/43_echo_mixer.md R71, R73,
R74). -/

namespace Sys2Proof.Machine

open Sys2Proof

/-- Settles O35: LenOk is its three parts, and the rest is arithmetic on a multiple of 8. -/
theorem lenOkConsequences : Obligations.LenOkConsequences := by
  intro len depth
  refine ⟨lenOk_iff len depth, fun h => ?_⟩
  obtain ⟨hmin, hmul, -⟩ := (lenOk_iff len depth).1 h
  omega

/-- Settles O33: LEN is even, so half of an even frame and half of LEN are exact. -/
theorem delayTapStaysInTheFirstHalf : Obligations.DelayTapStaysInTheFirstHalf := by
  intro len depth i h hlow hhigh heven
  obtain ⟨hmin, hmul, -⟩ := (lenOk_iff len depth).1 h
  unfold delayTap
  omega

/-- Settles O30: all but the two end values and oddness are linear consequences of the truncation bounds. -/
theorem attenuationTruncatesTowardZero : Obligations.AttenuationTruncatesTowardZero := by
  refine ⟨att_truncates, att_sample_range, by decide, by decide, att_neg, fun x => ?zeros, fun x => ?shrinks,
    fun k => ?multiples⟩
  case zeros => have htrunc := att_truncates x; omega
  case shrinks => have htrunc := att_truncates x; omega
  case multiples => have htrunc := att_truncates (5 * k); omega

/-- The constant 52429 is `4 * 2^16 / 5` rounded up, close enough for every magnitude of a sample (R74). -/
theorem mul_52429_div (n : Nat) (h : n ≤ 32768) : n * 52429 / 2 ^ 16 = 4 * n / 5 := by omega

/-- Settles O34: on the magnitude the constant divides exactly, and both sides are odd in the sample. -/
theorem fixedPointRealisationIsExact : Obligations.FixedPointRealisationIsExact := by
  intro x
  have hx := sample_range x
  unfold attFixed
  rw [mul_52429_div _ (by omega)]
  dsimp only
  split_ifs with h
  · rw [att_of_nonneg h]; omega
  · rw [att_of_nonpos (by omega)]; omega

end Sys2Proof.Machine
end

section
/-! PROOFS. The vector commands in sequence: progress, gaps, and the inverse of the packer (spec/40_led_vector.md R57;
spec/10_state.md R27 (e)). -/

namespace Sys2Proof.Machine

open Sys2Proof

/-! ## The inverse of the packer -/

/-- A slot's code, read back as a slot, is the clamped value (R42). -/
theorem setWidth_slotCode_toInt (x : Slot) : ((slotCode x).setWidth 8).toInt = clamp x.toInt := by
  revert x; decide

/-- Settles O18: the fields of a packed vector are its slots' codes; packing the fields of a pattern gives it back. -/
theorem unpackInvertsThePacker : Obligations.UnpackInvertsThePacker := by
  refine ⟨fun v k => ?_, packVector_unpackPattern⟩
  rw [unpackPattern_slot, patternSlot_packVector, setWidth_slotCode_toInt]

/-! ## Progress vectors -/

/-- Clearing every slot gives the progress vector without a lit slot. -/
theorem progressVector_zero : progressVector 0 = Vector.replicate 8 0 := by decide

/-- ADVANCE lights one more slot, until all eight are lit (R55, R57 (c)). -/
theorem advanceVector_progressVector {m : Nat} (h : m ≤ 8) :
    advanceVector (progressVector m) = progressVector (min (m + 1) 8) := by
  have hall : ∀ m : Fin 9, advanceVector (progressVector m) = progressVector (min (m + 1) 8) := by decide
  exact hall ⟨m, by omega⟩

/-- A progress vector is sent as the pattern of its progress picture (R57 (e)). -/
theorem packVector_progressVector {m : Nat} (h : m ≤ 8) : packVector (progressVector m) = progressPattern m := by
  have hall : ∀ m : Fin 9, packVector (progressVector m) = progressPattern m := by decide
  exact hall ⟨m, by omega⟩

/-- RESETV and `n` ADVANCEs (R57 (c), (d)). -/
theorem runCommands_progress {s : State} (h : s.isIdle) (n : Nat) :
    runCommands (.resetv :: List.replicate n .advance) s =
      .next { s with cv := progressVector (min n 8), cfgErr := false, illCmd := false } := by
  induction n with
  | zero => rw [runCommands_cons (exec_resetv_idle h), Nat.zero_min, progressVector_zero]; rfl
  | succ n ih =>
    rw [List.replicate_succ', ← List.cons_append, runCommands_append ih,
      runCommands_cons (exec_advance_idle (by exact h)), advanceVector_progressVector (Nat.min_le_right n 8), show min (min n 8 + 1) 8 = min (n + 1) 8 by omega]
    rfl

/-- Settles O19: each ADVANCE lights one more slot, and ENCODE packs the progress vector. -/
theorem progressFillsLeftToRight : Obligations.ProgressFillsLeftToRight := by
  intro s n h
  refine ⟨runCommands_progress h n, ?_⟩
  rw [← List.cons_append, runCommands_append (runCommands_progress h n),
    runCommands_cons (exec_encode_idle (by exact h)), packVector_progressVector (Nat.min_le_right n 8)]
  rfl

/-! ## Which micro-operations write CV and TV -/

/-- The micro-operations that write CV (R54, R55). -/
def LedMicro.writesCv : LedMicro → Bool
  | .cvClear _ => true
  | .cvAdvance => true
  | _ => false

/-- The micro-operations that write TV (R61). -/
def LedMicro.writesTv : LedMicro → Bool
  | .tvClear _ => true
  | .tvSet _ _ => true
  | _ => false

/-- A list without a write of CV leaves CV alone. -/
theorem runLed_cv {ms : List LedMicro} (h : ms.all (fun m => !m.writesCv) = true) (s : State) :
    (runLed ms s).cv = s.cv := by
  induction ms generalizing s with
  | nil => rfl
  | cons m ms ih =>
    simp only [List.all_cons, Bool.and_eq_true] at h
    rw [runLed_cons, ih h.2]
    cases m with
    | cvClear k => cases h.1
    | cvAdvance => cases h.1
    | _ => rfl

/-- A list without a write of TV leaves every hidden register alone. -/
theorem runLed_hid {ms : List LedMicro} (h : ms.all (fun m => !m.writesTv) = true) (s : State) :
    (runLed ms s).hid = s.hid := by
  induction ms generalizing s with
  | nil => rfl
  | cons m ms ih =>
    simp only [List.all_cons, Bool.and_eq_true] at h
    rw [runLed_cons, ih h.2]
    cases m with
    | tvClear k => cases h.1
    | tvSet a b => cases h.1
    | _ => rfl

/-- Of the LED commands only RESETV and ADVANCE write CV (R30). -/
theorem runLed_ledMicros_cv {i : Instr} (hs : i.streaming = false) (hr : i ≠ .resetv) (ha : i ≠ .advance) (s : State) :
    (runLed (ledMicros i) s).cv = s.cv := by
  refine runLed_cv ?_ s
  cases i with
  | resetv => exact absurd rfl hr
  | advance => exact absurd rfl ha
  | capture => cases hs
  | playback e => cases hs
  | _ => rfl

/-- Of the LED commands only SETONE writes a hidden register (R30). -/
theorem runLed_ledMicros_hid {i : Instr} (hs : i.streaming = false) (hone : ∀ a b, i ≠ .setone a b) (s : State) :
    (runLed (ledMicros i) s).hid = s.hid := by
  refine runLed_hid ?_ s
  cases i with
  | setone a b => exact absurd rfl (hone a b)
  | capture => cases hs
  | playback e => cases hs
  | _ => rfl

/-! ## No gap -/

/-- An LED command but RESETV keeps a vector without a gap one without a gap, and the block idle (R27 (e)). -/
theorem exec_keeps_progressVector {i : Instr} (hs : i.streaming = false) (hr : i ≠ .resetv) {s t : State} {m : Nat}
    (h : s.isIdle) (hm : m ≤ 8) (hcv : s.cv = progressVector m) (he : exec i s = .next t) :
    t.isIdle ∧ ∃ n, n ≤ 8 ∧ t.cv = progressVector n := by
  rw [exec_led_idle hs h] at he
  cases he
  refine ⟨rfl, ?_⟩
  by_cases ha : i = .advance
  · subst ha
    exact ⟨min (m + 1) 8, Nat.min_le_right _ _, by rw [← advanceVector_progressVector hm, ← hcv]; rfl⟩
  · exact ⟨m, hm, (runLed_ledMicros_cv hs hr ha s).trans hcv⟩

/-- A list of such commands keeps a vector without a gap one without a gap (R27 (e)). -/
theorem runCommands_keeps_progressVector {cs : List Instr} (hcs : ∀ c ∈ cs, c.streaming = false ∧ c ≠ .resetv)
    {s t : State} {m : Nat} (h : s.isIdle) (hm : m ≤ 8) (hcv : s.cv = progressVector m)
    (hrun : runCommands cs s = .next t) : ∃ n, n ≤ 8 ∧ t.cv = progressVector n := by
  induction cs generalizing s m with
  | nil => cases hrun; exact ⟨m, hm, hcv⟩
  | cons c cs ih =>
    rw [List.forall_mem_cons] at hcs
    obtain ⟨⟨hs, hr⟩, hcs⟩ := hcs
    obtain ⟨u, hu⟩ := everyCommandAnswersANextState c s
    obtain ⟨hidle, n, hn, hcv'⟩ := exec_keeps_progressVector hs hr h hm hcv hu
    rw [runCommands_cons hu] at hrun
    exact ih hcs hidle hn hcv' hrun

/-- Settles O20: RESETV leaves the progress vector 0, and every later command keeps some progress vector. -/
theorem ledCommandsNeverLeaveAGap : Obligations.LedCommandsNeverLeaveAGap := by
  intro s t cs h hcs hrun
  rw [runCommands_cons (exec_resetv_idle h)] at hrun
  exact runCommands_keeps_progressVector hcs (by exact h) (Nat.zero_le 8) progressVector_zero.symm hrun

end Sys2Proof.Machine
end

section
/-! PROOFS. TRANSMIT, SETALL and SETONE as one frame each (spec/41_led_link.md R59 to R63). -/

namespace Sys2Proof.Machine

open Sys2Proof

/-! ## TRANSMIT -/

/-- TRANSMIT on an idle block with CLK 0: one frame that carries SR (R59). -/
theorem exec_transmit_idle {s : State} (h : s.isIdle) (hclk : s.clk = false) :
    exec .transmit s = .next { s with
      sr := 0, data := s.sr.getLsbD 0, ledrx := s.sr, cfgErr := false, illCmd := false
      events := (frameEvents s.sr).reverse ++ s.events } := by
  rw [exec_led_idle_eq rfl h, ledMicros, runLed_transmit hclk]

/-- The calls of one frame, written out (R59). -/
theorem frameEvents_eq (p : Pattern) :
    frameEvents p = .dataSet false :: (List.replicate 16 [Event.clkSet true, Event.clkSet false]).flatten ++
      (List.range 16).flatMap fun n => [Event.dataSet (p.getLsbD (15 - n)), Event.clkSet true, Event.clkSet false] := by
  rw [frameEvents, patternBits, List.flatMap_map]
  rfl

/-- The calls of the data sequence: a `DataSet` and a pulse for each bit (R59). -/
theorem bitEvents_counts (bs : List Bool) :
    (bs.flatMap bitEvents).length = 3 * bs.length ∧ (bs.flatMap bitEvents).count (.clkSet true) = bs.length ∧
      (bs.flatMap bitEvents).count (.clkSet false) = bs.length ∧
      (bs.flatMap bitEvents).count (.dataSet true) + (bs.flatMap bitEvents).count (.dataSet false) = bs.length := by
  induction bs with
  | nil => simp
  | cons b bs ih =>
    obtain ⟨hlen, hrise, hfall, hdata⟩ := ih
    rw [List.flatMap_cons]
    simp only [List.length_append, List.count_append, hlen, hrise, hfall, List.length_cons]
    cases b <;> simp [bitEvents, pulseEvents] <;> omega

/-- The 81 calls of a frame by their kinds (R59). -/
theorem frameEvents_counts (p : Pattern) :
    (frameEvents p).length = 81 ∧ (frameEvents p).count (.clkSet true) = 32 ∧
      (frameEvents p).count (.clkSet false) = 32 ∧
      (frameEvents p).count (.dataSet true) + (frameEvents p).count (.dataSet false) = 17 := by
  obtain ⟨hlen, hrise, hfall, hdata⟩ := bitEvents_counts (patternBits p)
  rw [patternBits_length] at hlen hrise hfall hdata
  rw [frameEvents]
  simp only [List.length_append, List.count_append, hlen, hrise, hfall]
  refine ⟨by decide, by decide, by decide, ?_⟩
  rw [Nat.add_add_add_comm, hdata]
  decide

/-- Settles O21: the frame's calls written out, and counted by kinds. -/
theorem transmitSendsOneFrame : Obligations.TransmitSendsOneFrame := by
  refine ⟨fun s hidle hclk => ?_, frameEvents_counts⟩
  rw [exec_transmit_idle hidle hclk, frameEvents_eq]

/-! ## SETALL as ENCODE and TRANSMIT -/

/-- Writing the error bits and SEQ a second time changes nothing. -/
theorem State.setErr_setSeq_twice (u : State) (a b : Bool) (q : Seq) :
    (((u.setErr a b).setSeq q).setErr a b).setSeq q = (u.setErr a b).setSeq q := rfl

/-- Settles O24: LEDU reads neither the error bits nor SEQ, so what stands between the two commands is not seen. -/
theorem setallEqualsEncodeThenTransmit : Obligations.SetallEqualsEncodeThenTransmit := by
  intro s h
  have hmicros : ledMicros .setall = ledMicros .encode ++ ledMicros .transmit := rfl
  rw [runCommands_cons (exec_led_idle rfl h), runCommands_cons (exec_led_idle rfl (by rfl)), exec_led_idle rfl h,
    hmicros, runLed_append, runLed_setSeq, runLed_setErr, State.setErr_setSeq_twice, runCommands]

/-! ## SETONE -/

/-- The vector SETONE builds: the colour in the one slot when both operands are in range, 0 elsewhere (R61). -/
theorem setoneWrite_slot (ledIndex color : Int) (k : Fin 8) :
    (setoneWrite ledIndex color (Vector.replicate 8 0))[k] =
      if 0 ≤ ledIndex ∧ ledIndex = k.val ∧ 0 ≤ color ∧ color < 4 then BitVec.ofInt 8 color else 0 := by
  by_cases hin : 0 ≤ ledIndex ∧ ledIndex < 8 ∧ 0 ≤ color ∧ color < 4
  · obtain ⟨hi0, hi8, hc0, hc4⟩ := hin
    obtain ⟨n, rfl⟩ := Int.eq_ofNat_of_zero_le hi0
    have hwrite := setoneWrite_inside ⟨n, by omega⟩ hc0 hc4 (Vector.replicate 8 0)
    simp only at hwrite
    rw [hwrite, Fin.getElem_fin, Vector.getElem_set]
    simp [hc0, hc4]
  · rw [setoneWrite_outside hin]
    have hout : ¬(0 ≤ ledIndex ∧ ledIndex = k.val ∧ 0 ≤ color ∧ color < 4) := by have := k.isLt; omega
    simp [hout]

/-- A vector with one lit slot is packed as the colour times that slot's weight (R61). -/
theorem packVector_set (k : Fin 8) (c : Fin 4) :
    packVector ((Vector.replicate 8 0).set k.val (BitVec.ofInt 8 c.val) k.isLt) =
      BitVec.ofInt 16 ((c.val : Int) * 4 ^ k.val) := by
  revert k c; decide

/-- The pattern SETONE sends, in closed form (R61). -/
theorem packVector_setoneWrite (ledIndex color : Int) :
    packVector (setoneWrite ledIndex color (Vector.replicate 8 0)) =
      if 0 ≤ ledIndex ∧ ledIndex < 8 ∧ 0 ≤ color ∧ color < 4
        then BitVec.ofInt 16 (color * 4 ^ ledIndex.toNat) else 0 := by
  split_ifs with hin
  · obtain ⟨hi0, hi8, hc0, hc4⟩ := hin
    obtain ⟨n, rfl⟩ := Int.eq_ofNat_of_zero_le hi0
    obtain ⟨c, rfl⟩ := Int.eq_ofNat_of_zero_le hc0
    have hwrite := setoneWrite_inside ⟨n, by omega⟩ hc0 hc4 (Vector.replicate 8 0)
    simp only at hwrite
    rw [hwrite, packVector_set ⟨n, by omega⟩ ⟨c, by omega⟩]
    rfl
  · rw [setoneWrite_outside hin]
    decide

/-- SETONE on an idle block with CLK 0: one frame that carries the packed temporary vector (R61). -/
theorem exec_setone_idle (ledIndex color : Int) {s : State} (h : s.isIdle) (hclk : s.clk = false) :
    exec (.setone ledIndex color) s = .next { s with
      hid := { s.hid with tv := setoneWrite ledIndex color (Vector.replicate 8 0) }
      sr := 0
      data := (packVector (setoneWrite ledIndex color (Vector.replicate 8 0))).getLsbD 0
      ledrx := packVector (setoneWrite ledIndex color (Vector.replicate 8 0))
      cfgErr := false, illCmd := false
      events :=
        (frameEvents (packVector (setoneWrite ledIndex color (Vector.replicate 8 0)))).reverse ++ s.events } := by
  rw [exec_led_idle_eq rfl h, ledMicros, runLed_setone ledIndex color hclk]

/-- Settles O25: the pattern and the temporary vector of `exec_setone_idle`, by slots and in closed form. -/
theorem setoneSendsOneSlotOrNone : Obligations.SetoneSendsOneSlotOrNone := by
  intro s ledIndex color hidle hclk
  exact ⟨_, _, packVector_setoneWrite ledIndex color, setoneWrite_slot ledIndex color,
    exec_setone_idle ledIndex color hidle hclk⟩

/-! ## What the LEDs show -/

/-- With a packed vector in the receiver LED `k + 1` shows the code of slot `k` (R63). -/
theorem ledColour_of_packVector {t : State} {v : Slots} (h : t.ledrx = packVector v) (k : Fin 8) :
    ledColour t k = colourOf (slotCode v[k]) := by
  rw [ledColour, h, patternSlot_packVector]

/-- A colour's code, stored in a slot, is shown as the colour (R41). -/
theorem colourOf_slotCode_code (c : Colour) : colourOf (slotCode (BitVec.ofInt 8 c.code.toNat)) = c := by
  cases c <;> decide

/-- Settles O26: the receiver holds the packed vector; of SETONE's vector only slot `n` is not 0. -/
theorem ledsShowTheVectorSent : Obligations.LedsShowTheVectorSent := by
  refine ⟨fun s hidle hclk => ⟨_, exec_setall_idle hidle hclk, fun k => ledColour_of_packVector rfl k⟩,
    fun s n c hidle hclk => ⟨_, exec_setone_idle n.val c.code.toNat hidle hclk, fun k => ?_⟩⟩
  have hcode : c.code.toNat < 4 := c.code.isLt
  rw [ledColour_of_packVector rfl, setoneWrite_slot]
  by_cases hk : k = n
  · subst hk
    rw [if_pos ⟨by omega, rfl, by omega, by omega⟩, if_pos rfl, colourOf_slotCode_code]
  · have hne : ¬(0 ≤ (n.val : Int) ∧ (n.val : Int) = k.val ∧ 0 ≤ (c.code.toNat : Int) ∧ (c.code.toNat : Int) < 4) := by
      omega
    rw [if_neg hne, if_neg hk]
    decide

/-! ## The sampling edge -/

/-- Over a command's first list the receiver's edge is not seen, when CLK is 0 at its start (R62 (b)). -/
theorem runLed_ledMicros_edge (i : Instr) {s : State} (h : s.clk = false) (e : Edge) :
    runLed (ledMicros i) { s with params := { s.params with rxEdge := e } } =
      { runLed (ledMicros i) s with params := { s.params with rxEdge := e } } := by
  cases i with
  | encode => rw [ledMicros, runLed_encode, runLed_encode]
  | transmit => rw [ledMicros, runLed_transmit h, runLed_transmit (by exact h)]
  | setall => rw [ledMicros, runLed_setall h, runLed_setall (by exact h)]
  | setone a b => rw [ledMicros, runLed_setone a b h, runLed_setone a b (by exact h)]
  | resetv => rw [ledMicros, runLed_resetv, runLed_resetv]
  | advance => rw [ledMicros, runLed_advance, runLed_advance]
  | capture => rw [ledMicros, runLed_progressInit h, runLed_progressInit (by exact h)]
  | playback _ => rw [ledMicros, runLed_progressInit h, runLed_progressInit (by exact h)]

/-- Settles O28: on a busy block, and in each case of the issue, the result does not depend on the edge. -/
theorem samplingEdgeIsUnobservable : Obligations.SamplingEdgeIsUnobservable := by
  intro i s e hclk
  set s' : State := { s with params := { s.params with rxEdge := e } } with hs'
  cases hb : s.busy with
  | true => exact ⟨s, s', exec_busy i hb, exec_busy i hb, rfl⟩
  | false =>
    have hb' : s'.busy = false := hb
    cases hs : i.streaming with
    | false =>
      refine ⟨_, _, exec_led_not_busy hs hb, exec_led_not_busy hs hb', ?_⟩
      rw [hs', runLed_ledMicros_edge i hclk e]
      obtain ⟨-, -, -, -, hparams, -⟩ := runLed_frame (ledMicros i) s
      simp only [State.setErr, State.setSeq, hparams]
    | true =>
      rw [exec_stream hs, exec_stream hs]
      cases hl : lenOk s.len.toNat s.params.sbDepth with
      | true => exact ⟨_, _, issueStream_accepted i hb hl, issueStream_accepted i hb' hl, rfl⟩
      | false => exact ⟨_, _, issueStream_rejected i hb hl, issueStream_rejected i hb' hl, rfl⟩

/-! ## One glitch-free frame -/

/-- Each command that drives the link makes the calls of one frame and leaves DATA at its last bit (R59 to R61). -/
theorem exec_link_frame {s t : State} {i : Instr} (h : s.isIdle) (hclk : s.clk = false)
    (hi : i = .transmit ∨ i = .setall ∨ ∃ a b, i = .setone a b) (he : exec i s = .next t) :
    ∃ p, t.history = s.history ++ frameEvents p ∧ t.clk = false ∧ t.data = p.getLsbD 0 := by
  rcases hi with rfl | rfl | ⟨a, b, rfl⟩
  · rw [exec_transmit_idle h hclk] at he
    cases he
    exact ⟨_, history_append rfl, hclk, rfl⟩
  · rw [exec_setall_idle h hclk] at he
    cases he
    exact ⟨_, history_append rfl, hclk, (packVector_getLsbD_zero s.cv).symm⟩
  · rw [exec_setone_idle a b h hclk] at he
    cases he
    exact ⟨_, history_append rfl, hclk, rfl⟩

/-- Settles O29: the calls are those of a frame, whose pins, pulses and data are known from CLK 0. -/
theorem everyLinkCommandIsAGlitchFreeFrame : Obligations.EveryLinkCommandIsAGlitchFreeFrame := by
  intro s t i hidle hclk hi he
  obtain ⟨p, hhist, hclk', hdata⟩ := exec_link_frame hidle hclk hi he
  obtain ⟨-, hrise, -, -⟩ := frameEvents_counts p
  refine ⟨hclk', frameEvents p, hhist, isPinCall_frameEvents p, ?_⟩
  rw [hclk, sampledData_frameEvents]
  exact ⟨glitchFree_frameEvents p s.data, by rw [pinsAfter_frameEvents, hclk', hdata], hrise, by simp, by simp⟩

/-! ## The frame of an issue -/

/-- Settles O44: an LED command is its list, and a streaming command writes the error bits and SEQ only. -/
theorem commandsLeaveTheRestAlone : Obligations.CommandsLeaveTheRestAlone := by
  intro s t i h he
  cases hs : i.streaming with
  | true =>
    have hne : i ≠ .resetv ∧ i ≠ .advance := by
      constructor <;> rintro rfl <;> cases hs
    rcases exec_not_busy i h.not_busy with ⟨hs', -⟩ | ⟨-, -, hx⟩ | ⟨-, -, hx⟩
    · rw [hs] at hs'; cases hs'
    all_goals
      rw [hx] at he
      cases he
      exact ⟨rfl, fun _ => rfl, rfl, rfl, rfl, rfl, fun _ _ => rfl, fun _ => rfl, fun _ => rfl, rfl,
        fun _ => ⟨rfl, rfl, rfl, rfl⟩, nofun⟩
  | false =>
    rw [exec_led_idle hs h] at he
    cases he
    obtain ⟨hchan, hsb, hdraws, htv⟩ := runLed_outside (ledMicros i) s
    obtain ⟨-, hlen, -, -, hparams, hinputs⟩ := runLed_frame (ledMicros i) s
    refine ⟨hlen, fun j => by rw [State.setSeq_sb, State.setErr_sb, hsb], hchan, hparams, hinputs, hdraws,
      fun hr ha => runLed_ledMicros_cv hs hr ha s, ?sr, fun hone => runLed_ledMicros_hid hs hone s, htv, ?pins,
      fun _ => rfl⟩
    case sr =>
      rintro (rfl | rfl | hs')
      · rw [ledMicros, runLed_resetv]; rfl
      · rw [ledMicros, runLed_advance]; rfl
      · cases hs'
    case pins =>
      rintro (rfl | rfl | rfl | hs')
      · rw [ledMicros, runLed_encode]; exact ⟨rfl, rfl, rfl, rfl⟩
      · rw [ledMicros, runLed_resetv]; exact ⟨rfl, rfl, rfl, rfl⟩
      · rw [ledMicros, runLed_advance]; exact ⟨rfl, rfl, rfl, rfl⟩
      · cases hs'

end Sys2Proof.Machine
end

section
/-! PROOFS. A turn of SEQ at each micro-operation: its effect, what it leaves alone, and the channel's ready flags
(spec/10_state.md R14, R24, R30). -/

namespace Sys2Proof.Machine

open Sys2Proof

/-! ## The accesses to SB -/

/-- When a load of MA goes through, and what it does (R29). -/
theorem micro_loadMa_next {s t : State} {j : Nat} :
    micro (.loadMa j) s = .next t ↔ j < s.params.sbDepth ∧
      t = ((s.sbTouch j).setHid { s.hid with ma := s.sbValue j }).emit (.memRead j (s.sbValue j)) :=
  seqLoad_next (f := fun h v => { h with ma := v })

/-- When a load of MB goes through, and what it does (R29). -/
theorem micro_loadMb_next {s t : State} {j : Nat} :
    micro (.loadMb j) s = .next t ↔ j < s.params.sbDepth ∧
      t = ((s.sbTouch j).setHid { s.hid with mb := s.sbValue j }).emit (.memRead j (s.sbValue j)) :=
  seqLoad_next (f := fun h v => { h with mb := v })

/-! ## The ready flags -/

/-- CHAN's ready flags set to any values, nothing else touched. -/
def State.setReady (s : State) (a b : Bool) : State :=
  { s with chan := { s.chan with rxReady := a, txReady := b } }

/-- No micro-operation's effect reads the ready flags (R24). -/
theorem micro_setReady {m : Micro} {s t : State} (a b : Bool) (h : micro m s = .next t) :
    micro m (s.setReady a b) = .next (t.setReady a b) := by
  have htake (f : Hidden → Sample → Hidden) : rxTake f (s.setReady a b) = (rxTake f s).setReady a b := by
    cases hn : s.chan.rxNext <;> (simp only [rxTake, State.setReady, hn]; rfl)
  have htouch (j : Nat) : (s.setReady a b).sbTouch j = (s.sbTouch j).setReady a b := by
    cases hg : Memory.get s.sb j with
    | none => simp only [State.sbTouch, State.setReady, hg]; rfl
    | some v => simp only [State.sbTouch, State.setReady, hg]
  cases m with
  | led l => cases h; cases l <;> rfl
  | rxTakeA => cases h; exact congrArg _ (htake _)
  | rxTakeB => cases h; exact congrArg _ (htake _)
  | storeA i =>
    obtain ⟨hi, rfl⟩ := seqStore_next.1 h
    exact seqStore_next.2 ⟨hi, rfl⟩
  | loadMa j =>
    obtain ⟨hj, rfl⟩ := micro_loadMa_next.1 h
    exact micro_loadMa_next.2 ⟨hj, by rw [htouch]; rfl⟩
  | loadMb j =>
    obtain ⟨hj, rfl⟩ := micro_loadMb_next.1 h
    exact micro_loadMb_next.2 ⟨hj, by rw [htouch]; rfl⟩
  | _ => cases h; rfl

/-- Settles O40: a micro-operation that is no wait is enabled whatever the flags are, and its effect does not read
them. -/
theorem onlyWaitsReadTheReadyFlags : Obligations.OnlyWaitsReadTheReadyFlags := by
  intro s a b hrx htx t h
  rcases seqStep_cases h with ⟨hop, rfl⟩ | ⟨i, m, hop, hn, htaken⟩
  · exact seqStep_not_busy (s := t.setReady a b) (by simp [State.busy, State.setReady, hop])
  · have henabled := Micro.enabled_of_not_wait (m := m) (fun e => hrx (e ▸ hn)) (fun e => htx (e ▸ hn))
    rcases htaken with ⟨he, -⟩ | ⟨-, u, hu, rfl⟩
    · rw [henabled s] at he; cases he
    · exact seqStep_micro (s := s.setReady a b) hop hn (henabled _) (micro_setReady a b hu)

/-! ## What a micro-operation leaves alone -/

/-- CV, SR, the pins and the receiver change only at LEDU's micro-operations that name them (R30). -/
theorem micro_ledu_frame {m : Micro} {s t : State} (h : micro m s = .next t) :
    ((∀ k, m ≠ .led (.cvClear k)) → m ≠ .led .cvAdvance → t.cv = s.cv) ∧
    (m ≠ .led .srClear → (∀ k, m ≠ .led (.packCv k)) → (∀ k, m ≠ .led (.packTv k)) → m ≠ .led .srShift →
      t.sr = s.sr) ∧
    ((∀ a, m ≠ .led (.clkSet a)) → t.clk = s.clk ∧ t.ledrx = s.ledrx) ∧
    ((∀ a, m ≠ .led (.dataSet a)) → m ≠ .led .dataSetSr → t.data = s.data) := by
  cases m with
  | led l => cases h; cases l <;> simp [ledMicro, dataSet, clkSet]
  | rxTakeA => cases h; simp [rxTake_spec]
  | rxTakeB => cases h; simp [rxTake_spec]
  | storeA i => obtain ⟨-, rfl⟩ := seqStore_next.1 h; simp
  | loadMa j => obtain ⟨-, rfl⟩ := micro_loadMa_next.1 h; rcases s.sbTouch_cases j with e | e <;> simp [e]
  | loadMb j => obtain ⟨-, rfl⟩ := micro_loadMb_next.1 h; rcases s.sbTouch_cases j with e | e <;> simp [e]
  | _ => cases h; simp [txPut]

/-- Each hidden register changes only at the micro-operation that loads it (R30). -/
theorem micro_hidden_frame {m : Micro} {s t : State} (h : micro m s = .next t) :
    ((∀ k, m ≠ .led (.tvClear k)) → (∀ a b, m ≠ .led (.tvSet a b)) → t.hid.tv = s.hid.tv) ∧
    (m ≠ .rxTakeA → t.hid.rxa = s.hid.rxa) ∧ (m ≠ .rxTakeB → t.hid.rxb = s.hid.rxb) ∧
    ((∀ j, m ≠ .loadMa j) → t.hid.ma = s.hid.ma) ∧ ((∀ j, m ≠ .loadMb j) → t.hid.mb = s.hid.mb) ∧
    (m ≠ .mixMp → t.hid.mp = s.hid.mp) ∧ (m ≠ .mixMq → t.hid.mq = s.hid.mq) ∧ (m ≠ .mixMy → t.hid.my = s.hid.my) := by
  cases m with
  | led l => cases h; cases l <;> simp [ledMicro, dataSet, clkSet]
  | rxTakeA => cases h; simp [rxTake_spec]
  | rxTakeB => cases h; simp [rxTake_spec]
  | storeA i => obtain ⟨-, rfl⟩ := seqStore_next.1 h; simp
  | loadMa j => obtain ⟨-, rfl⟩ := micro_loadMa_next.1 h; simp
  | loadMb j => obtain ⟨-, rfl⟩ := micro_loadMb_next.1 h; simp
  | _ => cases h; simp [txPut]

/-- CHAN changes only at a take, which leaves its ready flags, and free values are drawn at takes and loads only
(log 6, log 10). -/
theorem micro_chan_frame {m : Micro} {s t : State} (h : micro m s = .next t) :
    t.chan.rxReady = s.chan.rxReady ∧ t.chan.txReady = s.chan.txReady ∧
    (m ≠ .rxTakeA → m ≠ .rxTakeB →
      t.chan = s.chan ∧ ((∀ j, m ≠ .loadMa j) → (∀ j, m ≠ .loadMb j) → t.draws = s.draws)) := by
  cases m with
  | led l => cases h; cases l <;> simp [ledMicro, dataSet, clkSet]
  | rxTakeA => cases h; simp [rxTake_spec]
  | rxTakeB => cases h; simp [rxTake_spec]
  | storeA i => obtain ⟨-, rfl⟩ := seqStore_next.1 h; simp
  | loadMa j => obtain ⟨-, rfl⟩ := micro_loadMa_next.1 h; rcases s.sbTouch_cases j with e | e <;> simp [e]
  | loadMb j => obtain ⟨-, rfl⟩ := micro_loadMb_next.1 h; rcases s.sbTouch_cases j with e | e <;> simp [e]
  | _ => cases h; simp [txPut]

/-- The micro-operations without an entry in the history (log 11). -/
theorem microEvents_eq_nil {m : Micro} (s : State) (ha : m ≠ .rxTakeA) (hb : m ≠ .rxTakeB) (hma : ∀ j, m ≠ .loadMa j)
    (hmb : ∀ j, m ≠ .loadMb j) (hst : ∀ i, m ≠ .storeA i) (htx : ∀ v, m ≠ .txPut v) (hclk : ∀ a, m ≠ .led (.clkSet a))
    (hdata : ∀ a, m ≠ .led (.dataSet a)) (hsr : m ≠ .led .dataSetSr) : microEvents m s = [] := by
  unfold microEvents; split <;> simp_all

/-- Only CAPTURE's list stores into SB (R66, R67). -/
theorem storeA_mem_block {i : Instr} {len b j : Nat} (h : Micro.storeA j ∈ block i len b) : i = .capture := by
  have htick (p : Nat) : Micro.storeA j ∉ tickIfDue (b - 1) p := fun hm => sbIndex?_ne_of_mem_tickIfDue hm j rfl
  unfold block at h
  split_ifs at h
  · simp at h
  · cases i with
    | capture => rfl
    | playback e =>
      simp only [loopBody, playbackBody, List.mem_append, htick, or_false] at h
      unfold playbackSend echoMicros at h
      split_ifs at h <;> simp at h
    | _ => simp [loopBody] at h

/-- Settles O45: each clause is what the micro-operation leaves alone; a held or idle SEQ leaves everything alone. -/
theorem sequencerTurnFrame : Obligations.SequencerTurnFrame := by
  intro s t h
  rcases seqStep_cases h with ⟨hop, rfl⟩ | ⟨i, m, hop, hn, ⟨he, rfl⟩ | ⟨-, u, hu, rfl⟩⟩
  · have hnone : t.nextMicro = none := by simp [State.nextMicro, hop]
    simp [hnone]
  · have hwait (j : Nat) : m ≠ .storeA j := by rintro rfl; cases he
    simp [hn, hwait]
  · obtain ⟨-, hlen, hcfg, hill, hparams, hinputs⟩ := micro_frame hu
    obtain ⟨hcv, hsr, hclk, hdata⟩ := micro_ledu_frame hu
    obtain ⟨htv, hrxa, hrxb, hma, hmb, hmp, hmq, hmy⟩ := micro_hidden_frame hu
    obtain ⟨hrx, htx, hchan⟩ := micro_chan_frame hu
    obtain ⟨hstore, hother⟩ := micro_sb hu
    obtain ⟨hhist, -⟩ := micro_history hu
    simp only [hn, ne_eq, Option.some.injEq]
    refine ⟨hlen, hcfg, hill, hparams, hinputs, hrx, htx, ?stored, ?kept, ?noCapture, hcv, hsr, hclk, hdata, htv, hrxa,
      hrxb, hma, hmb, hmp, hmq, hmy, ?chan, microEvents m s, microEvents_length m s, hhist⟩
    case stored =>
      rintro j rfl
      rw [State.setSeq_sb, hstore j rfl]
      exact ⟨Memory.get_put_same _ _ _, fun l hl => Memory.get_put_other _ _ hl⟩
    case kept => intro hno j; rw [State.setSeq_sb, hother hno]
    case noCapture =>
      intro hne
      refine hother fun j hj => hne ?_
      have hmem := State.nextMicro_mem hop hn
      rw [hj] at hmem
      rw [hop, storeA_mem_block hmem]
    case chan =>
      intro ha hb
      obtain ⟨hsame, hdraws⟩ := hchan ha hb
      refine ⟨hsame, fun hma hmb => ⟨hdraws hma hmb, fun hst hput hclk hdata hsr => ?_⟩⟩
      rw [State.setSeq_history, hhist, microEvents_eq_nil s ha hb hma hmb hst hput hclk hdata hsr, List.append_nil]

end Sys2Proof.Machine
end

section
/-! PROOFS. The whole next state at each micro-operation (spec/40_led_vector.md R54 to R56, spec/41_led_link.md R58 to
R61, spec/42_stream.md R66, R67, spec/43_echo_mixer.md R70). -/

namespace Sys2Proof.Machine

open Sys2Proof

section
variable {s : State} {i : Instr}

/-- A turn of SEQ at a micro-operation of LEDU. -/
theorem seqStep_led {l : LedMicro} (hop : s.seq.op = some i) (hn : s.nextMicro = some (.led l)) :
    seqStep s = .next ((ledMicro l s).setSeq (Seq.advance i s.seq)) := seqStep_micro hop hn rfl rfl

/-- A take that finds a value in CHAN's oracle (R24). -/
theorem rxTake_listed (f : Hidden → Sample → Hidden) {x : Sample} {r : List Sample} (h : s.chan.rxNext = x :: r) :
    rxTake f s = { s with
      hid := f s.hid s.chan.rxData, chan := { s.chan with rxData := x, rxNext := r }
      events := .rxTake s.chan.rxData :: s.events } := by
  simp only [rxTake, h]; rfl

/-- A take after which CHAN's oracle lists no value (log 10). -/
theorem rxTake_unlisted (f : Hidden → Sample → Hidden) (h : s.chan.rxNext = []) :
    rxTake f s = { s with
      hid := f s.hid s.chan.rxData, chan := { s.chan with rxData := s.drawnSample }
      events := .rxTake s.chan.rxData :: s.events, draws := s.draws + 1 } := by
  simp only [rxTake, h]; rfl

/-- A load of a written word (R29). -/
theorem seqLoad_written {j : Nat} {v : Sample} (f : Hidden → Sample → Hidden) (hj : j < s.params.sbDepth)
    (hv : Memory.get s.sb j = some v) :
    seqLoad s j f = .next { s with hid := f s.hid v, events := .memRead j v :: s.events } := by
  rw [seqLoad, if_pos hj, State.sbValue_written hv, State.sbTouch_written hv]; rfl

/-- A load of an unwritten word draws its value (R29). -/
theorem seqLoad_unwritten {j : Nat} (f : Hidden → Sample → Hidden) (hj : j < s.params.sbDepth)
    (hv : Memory.get s.sb j = none) :
    seqLoad s j f = .next { s with
      hid := f s.hid s.drawnSample, events := .memRead j s.drawnSample :: s.events, draws := s.draws + 1 } := by
  rw [seqLoad, if_pos hj]
  simp only [State.sbTouch, State.sbValue, hv]
  rfl

/-- A load of MA from a written word (R67). -/
theorem micro_loadMa_written {j : Nat} {v : Sample} (hj : j < s.params.sbDepth) (hv : Memory.get s.sb j = some v) :
    micro (.loadMa j) s = .next { s with hid := { s.hid with ma := v }, events := .memRead j v :: s.events } :=
  seqLoad_written (fun h v => { h with ma := v }) hj hv

/-- A load of MB from a written word (R67). -/
theorem micro_loadMb_written {j : Nat} {v : Sample} (hj : j < s.params.sbDepth) (hv : Memory.get s.sb j = some v) :
    micro (.loadMb j) s = .next { s with hid := { s.hid with mb := v }, events := .memRead j v :: s.events } :=
  seqLoad_written (fun h v => { h with mb := v }) hj hv

/-- A shift by one place is a doubling in 16 bits (R59). -/
theorem shiftLeft_one_arith (p : Pattern) : p <<< 1 = BitVec.ofNat 16 (2 * p.toNat) := by
  apply BitVec.eq_of_toNat_eq
  rw [BitVec.toNat_shiftLeft, BitVec.toNat_ofNat, Nat.shiftLeft_eq, Nat.mul_comm]

/-- The receiver at `ClkSet(a)`: DATA is shifted in on its sampling edge and on no other (R23). -/
theorem ledrxAfterClk_arith (s : State) (a : Bool) :
    s.ledrxAfterClk a =
      if (s.params.rxEdge = .assert ∧ s.clk = false ∧ a = true) ∨
          (s.params.rxEdge = .release ∧ s.clk = true ∧ a = false)
        then BitVec.ofNat 16 (2 * s.ledrx.toNat + s.data.toNat) else s.ledrx := by
  rw [State.ledrxAfterClk, ledrxShift_arith]
  cases s.params.rxEdge <;> simp [samplesOn]

end

/-- Settles O60: each turn is `seqStep_micro` with the micro-operation's effect, read as arithmetic. -/
theorem microOperationsHaveTheirEffects : Obligations.MicroOperationsHaveTheirEffects := by
  refine ⟨?ledu, ?stru⟩
  case ledu =>
    rintro s i q hop rfl
    refine ⟨fun k hn => seqStep_led hop hn, fun hn => ⟨fun k hk hbelow => ?advance, fun hnone => ?full⟩,
      fun hn => seqStep_led hop hn, fun k hn => ?packCv, fun k hn => seqStep_led hop hn,
      fun ledIndex color hn => ⟨fun k hk h0 h4 => ?inside, fun hout => ?outside⟩, fun k hn => ?packTv,
      fun a hn => seqStep_led hop hn, fun hn => seqStep_led hop hn, fun a hn => ?clk, fun hn => ?shift⟩
    case advance => rw [seqStep_led hop hn, ledMicro, advanceVector_first hk hbelow]; rfl
    case full => rw [seqStep_led hop hn, ledMicro, advanceVector_none hnone]; rfl
    case packCv => rw [seqStep_led hop hn, ledMicro, packStep_arith]; rfl
    case inside => subst hk; rw [seqStep_led hop hn, ledMicro, setoneWrite_inside k h0 h4]; rfl
    case outside => rw [seqStep_led hop hn, ledMicro, setoneWrite_outside hout]; rfl
    case packTv => rw [seqStep_led hop hn, ledMicro, packStep_arith]; rfl
    case clk => rw [seqStep_led hop hn, ledMicro, clkSet, ledrxAfterClk_arith]; rfl
    case shift => rw [seqStep_led hop hn, ledMicro, shiftLeft_one_arith]; rfl
  case stru =>
    rintro s i q v hop rfl
    have hturn {m : Micro} {t : State} (hn : s.nextMicro = some m) (he : m.enabled s = true)
        (hm : micro m s = .next t) : seqStep s = .next { t with seq := Seq.advance i s.seq } :=
      seqStep_micro hop hn he hm
    refine ⟨fun hn hv => ⟨fun x r hr => ?takeA, fun hr => ⟨s.drawnSample, ?takeAFree⟩⟩,
      fun hn hv => ⟨fun x r hr => ?takeB, fun hr => ⟨s.drawnSample, ?takeBFree⟩⟩, fun j hn hj => ?store,
      fun j hn hj => ⟨fun hv => hturn hn rfl (micro_loadMa_written hj hv), fun hv => ⟨s.drawnSample, ?loadMaFree⟩⟩,
      fun j hn hj => ⟨fun hv => hturn hn rfl (micro_loadMb_written hj hv), fun hv => ⟨s.drawnSample, ?loadMbFree⟩⟩,
      fun hn => hturn hn rfl rfl, fun hn => hturn hn rfl rfl, fun hn => ?mixMy, fun hn => hturn hn rfl rfl,
      fun hn => hturn hn rfl rfl, fun hn => hturn hn rfl rfl⟩
    case takeA =>
      subst hv
      exact hturn hn rfl (congrArg Host.Outcome.next (rxTake_listed (fun h v => { h with rxa := v }) hr))
    case takeAFree =>
      subst hv
      exact hturn hn rfl (congrArg Host.Outcome.next (rxTake_unlisted (fun h v => { h with rxa := v }) hr))
    case takeB =>
      subst hv
      exact hturn hn rfl (congrArg Host.Outcome.next (rxTake_listed (fun h v => { h with rxb := v }) hr))
    case takeBFree =>
      subst hv
      exact hturn hn rfl (congrArg Host.Outcome.next (rxTake_unlisted (fun h v => { h with rxb := v }) hr))
    case store =>
      exact ⟨_, hturn hn rfl (seqStore_next.2 ⟨hj, rfl⟩), Memory.get_put_same _ _ _,
        fun l hl => Memory.get_put_other _ _ hl⟩
    case loadMaFree => exact hturn hn rfl (seqLoad_unwritten (fun h v => { h with ma := v }) hj hv)
    case loadMbFree => exact hturn hn rfl (seqLoad_unwritten (fun h v => { h with mb := v }) hj hv)
    case mixMy => rw [← mixStage3_eq]; exact hturn hn rfl rfl

end Sys2Proof.Machine
end

section
/-! PROOFS. The position of SEQ in its list, and LED commands performed one micro-operation a step
(spec/10_state.md R14; spec/40_led_vector.md R53; spec/41_led_link.md R63). -/

namespace Sys2Proof.Machine

open Sys2Proof

/-! ## The position -/

/-- The three ways the position moves on: within the block, to the next block, or to the end of the list (R14). -/
theorem Seq.advance_cases (i : Instr) (q : Seq) :
    (q.k + 1 < (block i q.len.toNat q.blk).length ∧ Seq.advance i q = { q with k := q.k + 1 }) ∨
    (¬ q.k + 1 < (block i q.len.toNat q.blk).length ∧ q.blk + 1 < blockCount i q.len.toNat ∧
      Seq.advance i q = { q with blk := q.blk + 1, k := 0 }) ∨
    (¬ q.k + 1 < (block i q.len.toNat q.blk).length ∧ ¬ q.blk + 1 < blockCount i q.len.toNat ∧
      Seq.advance i q = Seq.idle) := by
  unfold Seq.advance
  split_ifs with hplace hblock
  · exact .inl ⟨hplace, rfl⟩
  · exact .inr (.inl ⟨hplace, hblock, rfl⟩)
  · exact .inr (.inr ⟨hplace, hblock, rfl⟩)

/-- A list up to a block and the block itself. -/
theorem flatMap_range_succ (i : Instr) (len b : Nat) :
    (List.range (b + 1)).flatMap (block i len) = (List.range b).flatMap (block i len) ++ block i len b := by
  rw [List.range_succ, List.flatMap_append, List.flatMap_singleton]

/-- The index of a block's beginning is that of the end of the block before it. -/
theorem flatPos_succ (i : Instr) (len b : Nat) :
    flatPos i len (b + 1) 0 = flatPos i len b (block i len b).length := by
  rw [flatPos, flatPos, flatMap_range_succ, List.length_append]; rfl

/-- R14's list around one of its blocks. -/
theorem microList_split {i : Instr} {len b : Nat} (h : b < blockCount i len) :
    ∃ rest, microList i len = (List.range b).flatMap (block i len) ++ (block i len b ++ rest) := by
  obtain ⟨r, hr⟩ := Nat.exists_eq_add_of_le h
  refine ⟨((List.range r).map (b + 1 + ·)).flatMap (block i len), ?_⟩
  rw [microList, hr, List.range_add, List.flatMap_append, flatMap_range_succ, List.append_assoc]

/-- The place of a block is the entry of the list at its index (R14). -/
theorem microList_getElem? {i : Instr} {len b k : Nat} {m : Micro} (h : b < blockCount i len)
    (hm : (block i len b)[k]? = some m) : (microList i len)[flatPos i len b k]? = some m := by
  have hk : k < (block i len b).length := (List.getElem?_eq_some_iff.1 hm).1
  obtain ⟨rest, hsplit⟩ := microList_split h
  rw [hsplit, flatPos, List.getElem?_append_right (Nat.le_add_right _ _), Nat.add_sub_cancel_left,
    List.getElem?_append_left hk, hm]

/-- Settles O41: the place of the block is the list's entry, and each way the position moves on adds one to the
index. -/
theorem sequencerFollowsTheList : Obligations.SequencerFollowsTheList := by
  intro s i hsound hop
  simp only [State.seqSound, hop] at hsound
  obtain ⟨-, -, hblk, hk⟩ := hsound
  obtain ⟨m, hm⟩ : ∃ m, (block i s.seq.len.toNat s.seq.blk)[s.seq.k]? = some m := ⟨_, List.getElem?_eq_getElem hk⟩
  have hn : s.nextMicro = some m := by simpa only [State.nextMicro, hop] using hm
  refine ⟨m, hn, microList_getElem? hblk hm, fun t he hstep => ?_⟩
  rcases seqStep_cases hstep with ⟨hnone, -⟩ | ⟨i', m', hop', hn', ⟨he', -⟩ | ⟨-, u, hu, rfl⟩⟩
  · rw [hop] at hnone; cases hnone
  · rw [hn] at hn'; cases hn'; rw [he] at he'; cases he'
  rw [hop] at hop'
  cases hop'
  rw [State.isIdle, State.setSeq_seq]
  rcases Seq.advance_cases i s.seq with ⟨-, hq⟩ | ⟨hend, -, hq⟩ | ⟨hend, hlast, hq⟩ <;> rw [hq]
  · exact .inr ⟨hop, rfl, rfl⟩
  · refine .inr ⟨hop, rfl, ?_⟩
    have hk' : (block i s.seq.len.toNat s.seq.blk).length = s.seq.k + 1 := by omega
    rw [flatPos_succ, hk']; rfl
  · refine .inl ⟨rfl, ?_⟩
    have hk' : (block i s.seq.len.toNat s.seq.blk).length = s.seq.k + 1 := by omega
    have hb : blockCount i s.seq.len.toNat = s.seq.blk + 1 := by omega
    rw [microList, hb, flatMap_range_succ, List.length_append, hk']; rfl

/-! ## Part of a block -/

/-- SEQ runs a part of a block that is not its end, one micro-operation a step. -/
theorem run_block_part {i : Instr} {b : Nat} {len : Word} (done ms rest : List Micro) {s t : State}
    (hb : block i len.toNat b = done ++ ms ++ rest) (hrest : rest ≠ []) (hin : s.inputs = [])
    (h : microRun ms s = some t) :
    run ms.length (s.setSeq { op := some i, blk := b, k := done.length, len := len }) =
      .next (t.setSeq { op := some i, blk := b, k := done.length + ms.length, len := len }) := by
  induction ms generalizing s done with
  | nil => cases h; rfl
  | cons m ms ih =>
    set q : Seq := { op := some i, blk := b, k := done.length, len := len } with hq
    simp only [microRun] at h
    split_ifs at h with he
    split at h
    · rename_i u hu
      have hlen : done.length + 1 < (block i len.toNat b).length := by
        have := List.length_pos_of_ne_nil hrest
        simp only [hb, List.length_append, List.length_cons]; omega
      have hn : (s.setSeq q).nextMicro = some m := by simp [State.nextMicro, hq, hb]
      have hadv : Seq.advance i q = { op := some i, blk := b, k := (done ++ [m]).length, len := len } := by
        simp [Seq.advance, hq, hlen]
      have hstep : step (s.setSeq q) = .next (u.setSeq (Seq.advance i q)) := by
        rw [step_seq (by exact hin), seqStep_micro rfl hn ((enabled_setSeq m s q).trans he) (micro_setSeq q hu)]
        rfl
      obtain ⟨-, -, -, -, -, hinputs⟩ := micro_frame hu
      rw [List.length_cons, run_succ hstep, hadv, ih (done ++ [m]) (by simp [hb]) (hinputs.trans hin) h]
      simp only [List.length_append, List.length_singleton]
      rw [Nat.add_assoc, Nat.add_comm 1]
    · cases h
    · cases h

/-! ## LED commands, stepped -/

/-- An LED command's list is one block. -/
theorem blockCount_led {i : Instr} (hs : i.streaming = false) (len : Nat) : blockCount i len = 1 := by
  cases i with
  | capture => cases hs
  | playback e => cases hs
  | _ => rfl

/-- A stepped LED command, all its micro-operations taken. -/
theorem run_accept_led {i : Instr} (hs : i.streaming = false) {s : State} (hin : s.inputs = []) :
    run (ledMicros i).length (accept i s) =
      .next ((runLed (ledMicros i) (clearErrors s)).setSeq Seq.idle) := by
  have hblock : block i s.len.toNat 0 = (ledMicros i).map .led := rfl
  have hrun := run_whole_block (i := i) (b := 0) (len := s.len) (s := clearErrors s)
    (List.ne_nil_of_length_pos (block_length_pos (by simp [blockCount]))) hin (microRun_led _ _)
  rw [hblock, List.length_map, Seq.afterBlock, blockCount_led hs, if_neg (by decide)] at hrun
  exact hrun

/-- A stepped LED command, the first micro-operations of its list taken but not the last. -/
theorem run_accept_led_part {i : Instr} {a b : List LedMicro} (hlist : ledMicros i = a ++ b) (hb : b ≠ []) {s : State}
    (hin : s.inputs = []) :
    run a.length (accept i s) =
      .next ((runLed a (clearErrors s)).setSeq { op := some i, blk := 0, k := a.length, len := s.len }) := by
  have hblock : block i s.len.toNat 0 = [] ++ a.map .led ++ b.map .led := by
    rw [List.nil_append, ← List.map_append, ← hlist]; rfl
  have hrun := run_block_part (i := i) (len := s.len) (s := clearErrors s) [] (a.map .led) (b.map .led) hblock
    (by simpa using hb) hin (microRun_led a _)
  rw [List.length_map, List.length_nil, Nat.zero_add] at hrun
  exact hrun

/-- Settles O42: both forms run the same list of micro-operations, and LEDU does not read the error bits. -/
theorem steppedLedCommandEqualsItsBigStep : Obligations.SteppedLedCommandEqualsItsBigStep := by
  intro s i hidle hin hs
  refine ⟨_, _, issueStepped_led_not_busy hs hidle.not_busy, run_accept_led hs hin, ?_⟩
  rw [exec_led_idle hs hidle, clearErrors, runLed_setErr]

/-! ## The receiver during a frame -/

/-- The list of TRANSMIT up to clear pulse `n`, and the rest (R59). -/
theorem transmitMicros_at_clearPulse {n : Nat} (h : n < 16) :
    ∃ rest, rest ≠ [] ∧ transmitMicros =
      .dataSet false :: (List.replicate (n + 1) pulseMicros).flatten ++ rest := by
  refine ⟨(List.replicate (15 - n) pulseMicros).flatten ++ (List.replicate 16 dataBitMicros).flatten, ?_, ?_⟩
  · simp [dataBitMicros]
  · rw [transmitMicros, clearMicros, Config.clearPulses, Config.dataPulses,
      show 16 = (n + 1) + (15 - n) by omega, List.replicate_add, List.flatten_append]
    simp

/-- The list of TRANSMIT up to data pulse `m`, and the rest (R59). -/
theorem transmitMicros_at_dataPulse {m : Nat} (h : m < 16) :
    ∃ rest, rest ≠ [] ∧ transmitMicros = clearMicros ++ (List.replicate m dataBitMicros).flatten ++ rest := by
  refine ⟨(List.replicate (16 - m) dataBitMicros).flatten, ?_, ?_⟩
  · simp [dataBitMicros]; omega
  · rw [transmitMicros, Config.dataPulses, List.append_assoc, ← List.flatten_append, ← List.replicate_add,
      Nat.add_sub_cancel' h.le]

/-- Settles O27: the moments are ends of parts of TRANSMIT's list, over which the receiver's content is known. -/
theorem receiverShowsThePartialPictures : Obligations.ReceiverShowsThePartialPictures := by
  intro s hidle hclk hin
  have hclk' : (clearErrors s).clk = false := hclk
  have hwhole := run_accept_led (i := .transmit) rfl hin
  rw [ledMicros, runLed_transmit hclk'] at hwhole
  refine ⟨_, issueStepped_led_not_busy rfl hidle.not_busy, fun n hn => ?clear, fun m _ hm => ?data, _, hwhole, rfl,
    fun k => rfl⟩
  case clear =>
    obtain ⟨rest, hne, hlist⟩ := transmitMicros_at_clearPulse hn
    have hrun := run_accept_led_part (i := .transmit) hlist hne hin
    have hlen : (LedMicro.dataSet false :: (List.replicate (n + 1) pulseMicros).flatten).length = 1 + 2 * (n + 1) := by
      simp [pulseMicros]; omega
    rw [hlen, runLed_cons, runLed_pulses (by exact hclk) rfl] at hrun
    exact ⟨_, hrun, rfl⟩
  case data =>
    obtain rfl | hm := hm.eq_or_lt
    · exact ⟨_, hwhole, (BitVec.ushiftRight_zero _).symm⟩
    · obtain ⟨rest, hne, hlist⟩ := transmitMicros_at_dataPulse hm
      have hrun := run_accept_led_part (i := .transmit) hlist hne hin
      have hlen : (clearMicros ++ (List.replicate m dataBitMicros).flatten).length = 33 + 4 * m := by
        simp [clearMicros, dataBitMicros, pulseMicros, Config.clearPulses]; omega
      rw [hlen, runLed_append, runLed_clear hclk', runLed_dataBits (by exact hclk) m hm.le] at hrun
      exact ⟨_, hrun, by simp [clearErrors]⟩

end Sys2Proof.Machine
end

section
/-! PROOFS. The progress picture along a streaming command, and the run of a list by a condition on the states between
its blocks (spec/42_stream.md R65, R66, R67). -/

namespace Sys2Proof.Machine

open Sys2Proof

/-! ## A run by a condition between the blocks -/

/-- The state before each block of a list, where every block goes through. -/
def blockStates (i : Instr) (len : Nat) (s : State) : Nat → State
  | 0 => s
  | b + 1 => (microRun (block i len b) (blockStates i len s b)).getD (blockStates i len s b)

/-- A condition on the states between the blocks, which every block goes through with and keeps, holds at the end of
the list (R14). -/
theorem run_microList_of_condition {i : Instr} {len : Word} {s : State} (P : Nat → State → Prop) (hstart : P 0 s)
    (hin : s.inputs = [])
    (hblock : ∀ b u, b < blockCount i len.toNat → P b u →
      ∃ v, microRun (block i len.toNat b) u = some v ∧ P (b + 1) v) :
    ∃ t, run (microList i len.toNat).length (s.setSeq { op := some i, blk := 0, k := 0, len := len }) =
        .next (t.setSeq Seq.idle) ∧ P (blockCount i len.toNat) t := by
  set f := blockStates i len.toNat s
  have hnext (b : Nat) (hb : b < blockCount i len.toNat) (hp : P b (f b)) :
      microRun (block i len.toNat b) (f b) = some (f (b + 1)) ∧ P (b + 1) (f (b + 1)) := by
    obtain ⟨v, hv, hpv⟩ := hblock b (f b) hb hp
    have hf : f (b + 1) = v := by
      change (microRun (block i len.toNat b) (f b)).getD (f b) = v
      rw [hv]; rfl
    rw [hf]
    exact ⟨hv, hpv⟩
  have hall (b : Nat) (hb : b ≤ blockCount i len.toNat) : P b (f b) ∧ (f b).inputs = [] := by
    induction b with
    | zero => exact ⟨hstart, hin⟩
    | succ b ih =>
      obtain ⟨hp, hempty⟩ := ih (by omega)
      obtain ⟨hrun, hp'⟩ := hnext b hb hp
      obtain ⟨-, -, -, -, -, hinputs⟩ := microRun_frame hrun
      exact ⟨hp', hinputs.trans hempty⟩
  exact ⟨f (blockCount i len.toNat),
    run_microList f (fun b hb => (hall b hb.le).2) (fun b hb => (hnext b hb (hall b hb.le).1).1), (hall _ le_rfl).1⟩

/-! ## The picture -/

/-- The link and the vector as the `m`-th progress picture leaves them (R65). -/
structure State.Shows (u : State) (m : Nat) : Prop where
  cv : u.cv = progressVector m
  sr : u.sr = 0
  clk : u.clk = false
  data : u.data = (progressPattern m).getLsbD 0
  ledrx : u.ledrx = progressPattern m

/-- The picture reads CV, SR, the pins and the receiver only. -/
theorem State.Shows.congr {u v : State} {m : Nat} (h : u.Shows m) (hcv : v.cv = u.cv) (hsr : v.sr = u.sr)
    (hclk : v.clk = u.clk) (hdata : v.data = u.data) (hledrx : v.ledrx = u.ledrx) : v.Shows m :=
  ⟨hcv.trans h.cv, hsr.trans h.sr, hclk.trans h.clk, hdata.trans h.data, hledrx.trans h.ledrx⟩

/-- `ProgressInit()` shows the picture 0 (R65). -/
theorem shows_progressInit {s : State} (h : s.clk = false) : (runLed progressInit s).Shows 0 := by
  rw [runLed_progressInit h]
  exact ⟨progressVector_zero.symm, rfl, h, rfl, rfl⟩

/-- `ProgressTick()` shows the next picture, by one frame (R65). -/
theorem shows_progressTick {u : State} {m : Nat} (h : u.Shows m) (hm : m < 8) :
    (runLed progressTick u).Shows (m + 1) ∧
      (runLed progressTick u).history = u.history ++ frameEvents (progressPattern (m + 1)) := by
  have hcv : advanceVector u.cv = progressVector (m + 1) := by
    rw [h.cv, advanceVector_progressVector hm.le, Nat.min_eq_left hm]
  have hpack : packVector (advanceVector u.cv) = progressPattern (m + 1) := by
    rw [hcv, packVector_progressVector hm]
  rw [runLed_progressTick h.clk, hpack]
  exact ⟨⟨hcv, rfl, h.clk, rfl, rfl⟩, history_append rfl⟩

/-- How many ticks of period `p` are due in the iterations below `n` (R66, R67). -/
def ticksBefore (p n : Nat) : Nat := (n + p - 1) / p

/-- At an iteration with a tick the ticks before it are `n / p`, and there is one more after it. -/
theorem ticksBefore_due {p n : Nat} (hp : 0 < p) (h : n % p = 0) :
    ticksBefore p n = n / p ∧ ticksBefore p (n + 1) = n / p + 1 := by
  have hn := Nat.div_add_mod n p
  unfold ticksBefore
  rw [Nat.div_eq_iff hp, show n + 1 + p - 1 = n + p by omega, Nat.add_div_right n hp]
  refine ⟨?_, rfl⟩
  rw [Nat.mul_comm]
  omega

/-- An iteration without a tick leaves the count. -/
theorem ticksBefore_not_due {p n : Nat} (hp : 0 < p) (h : n % p ≠ 0) : ticksBefore p (n + 1) = ticksBefore p n := by
  have hn := Nat.div_add_mod n p
  have hlt := Nat.mod_lt n hp
  unfold ticksBefore
  rw [show n + 1 + p - 1 = n + p by omega, Nat.add_div_right n hp, eq_comm, Nat.div_eq_iff hp, Nat.succ_mul,
    Nat.mul_comm]
  omega

/-- A whole loop of eight periods has eight ticks. -/
theorem ticksBefore_whole {p : Nat} (hp : 0 < p) : ticksBefore p (8 * p) = 8 := by
  rw [(ticksBefore_due hp (Nat.mul_mod_left 8 p)).1, Nat.mul_div_cancel _ hp]

/-- The tick of iteration `n`, when one is due: the next picture by one frame, and nothing else but TV (R65). -/
theorem microRun_tickIfDue {u : State} {p n : Nat} (hp : 0 < p) (hn : n < 8 * p) (h : u.Shows (ticksBefore p n)) :
    ∃ v, microRun (tickIfDue n p) u = some v ∧ v.Shows (ticksBefore p (n + 1)) ∧
      v.history = u.history ++ tickEvents n p ∧ v.chan = u.chan ∧ v.sb = u.sb ∧ v.draws = u.draws := by
  unfold tickIfDue tickEvents
  split_ifs with hdue
  · obtain ⟨hbefore, hafter⟩ := ticksBefore_due hp hdue
    rw [hbefore] at h
    obtain ⟨hshows, hhist⟩ := shows_progressTick h (Nat.div_lt_of_lt_mul (by rwa [Nat.mul_comm]))
    obtain ⟨hchan, hsb, hdraws, -⟩ := runLed_outside progressTick u
    exact ⟨_, microRun_led _ _, hafter ▸ hshows, hhist, hchan, hsb, hdraws⟩
  · exact ⟨u, rfl, (ticksBefore_not_due hp hdue).symm ▸ h, (List.append_nil _).symm, rfl, rfl, rfl⟩

/-- What the last picture leaves (R69). -/
theorem State.Shows.final {u : State} (h : u.Shows 8) :
    u.cv = allOn ∧ u.sr = 0 ∧ u.clk = false ∧ u.data = true ∧ u.ledrx = 0x5555 :=
  ⟨h.cv.trans (by decide), h.sr, h.clk, h.data.trans (by decide), h.ledrx.trans (by decide)⟩

/-- Block 0 of a streaming command: the picture 0 by one frame, the channel, SB and the free values untouched (R65). -/
theorem microRun_progressInit {i : Instr} (hi : i.streaming = true) (len : Nat) {s : State} (h : s.clk = false) :
    ∃ v, microRun (block i len 0) s = some v ∧ v.Shows 0 ∧ v.history = s.history ++ frameEvents 0 ∧ v.chan = s.chan ∧
      v.sb = s.sb ∧ v.draws = s.draws := by
  have hblock : block i len 0 = progressInit.map .led := by
    cases i with
    | capture => rfl
    | playback e => rfl
    | _ => cases hi
  obtain ⟨hchan, hsb, hdraws, -⟩ := runLed_outside progressInit s
  have hhist : (runLed progressInit s).history = s.history ++ frameEvents 0 := by
    rw [runLed_progressInit h]; exact history_append rfl
  exact ⟨_, by rw [hblock, microRun_led], shows_progressInit h, hhist, hchan, hsb, hdraws⟩

end Sys2Proof.Machine
end

section
/-! PROOFS. CAPTURE from issue to completion (spec/42_stream.md R66, R69). -/

namespace Sys2Proof.Machine

open Sys2Proof

/-! ## What CHAN hands over -/

/-- CHAN and the count of free values after one take (R24, log 10). -/
def chanNext (c : Chan × Nat) : Chan × Nat :=
  match c.1.rxNext with
  | x :: r => ({ c.1 with rxData := x, rxNext := r }, c.2)
  | [] => ({ c.1 with rxData := (Config.draw c.2).setWidth 16 }, c.2 + 1)

/-- The value of the `n`-th take from a state on, when nothing else draws. -/
def takenValue (s : State) (n : Nat) : Sample := (chanNext^[n] (s.chan, s.draws)).1.rxData

/-- A take moves CHAN on by one value. -/
theorem rxTake_chanNext (f : Hidden → Sample → Hidden) (s : State) :
    ((rxTake f s).chan, (rxTake f s).draws) = chanNext (s.chan, s.draws) := by
  cases h : s.chan.rxNext with
  | nil => rw [rxTake_unlisted f h]; simp only [chanNext, h]; rfl
  | cons x r => rw [rxTake_listed f h]; simp only [chanNext, h]

/-- No take changes a ready flag (log 10). -/
theorem chanNext_rxReady (c : Chan × Nat) : (chanNext c).1.rxReady = c.1.rxReady := by
  unfold chanNext; split <;> rfl

/-- Where CHAN lists a value, that is the value taken (R24). -/
theorem takenValue_listed {c : Chan × Nat} {n : Nat} {v : Sample} (h : (c.1.rxData :: c.1.rxNext)[n]? = some v) :
    (chanNext^[n] c).1.rxData = v := by
  induction n generalizing c with
  | zero => simpa using h
  | succ n ih =>
    rw [List.getElem?_cons_succ] at h
    rw [Function.iterate_succ_apply]
    refine ih ?_
    cases hr : c.1.rxNext with
    | nil => simp [hr] at h
    | cons x r => simpa only [chanNext, hr] using h

/-! ## One iteration -/

/-- The pair of takes and the store of an iteration, with a channel that is ready (R66). -/
theorem microRun_capturePair {u : State} {n : Nat} (hready : u.chan.rxReady = true) (hn : n < u.params.sbDepth) :
    ∃ w, microRun [.rxWait, .rxTakeA, .rxWait, .rxTakeB, .storeA n] u = some w ∧
      w.sb = Memory.put u.sb n (takenValue u 0) ∧ (w.chan, w.draws) = chanNext^[2] (u.chan, u.draws) ∧
      w.history = u.history ++ [.rxTake (takenValue u 0), .rxTake (takenValue u 1), .memWrite n (takenValue u 0)] ∧
      w.cv = u.cv ∧ w.sr = u.sr ∧ w.clk = u.clk ∧ w.data = u.data ∧ w.ledrx = u.ledrx := by
  set a := rxTake (fun h v => { h with rxa := v }) u with ha
  set b := rxTake (fun h v => { h with rxb := v }) a with hb
  obtain ⟨ahid, ahist, asb, acv, asr, aclk, adata, aledrx, aready, -⟩ := rxTake_spec (fun h v => { h with rxa := v }) u
  obtain ⟨bhid, bhist, bsb, bcv, bsr, bclk, bdata, bledrx, -⟩ := rxTake_spec (fun h v => { h with rxb := v }) a
  rw [← ha] at ahid ahist asb acv asr aclk adata aledrx aready
  rw [← hb] at bhid bhist bsb bcv bsr bclk bdata bledrx
  have achan : (a.chan, a.draws) = chanNext (u.chan, u.draws) := rxTake_chanNext _ u
  have bchan : (b.chan, b.draws) = chanNext (a.chan, a.draws) := rxTake_chanNext _ a
  obtain ⟨-, -, -, -, aparams, -⟩ := micro_frame (m := .rxTakeA) (s := u) (t := a) rfl
  obtain ⟨-, -, -, -, bparams, -⟩ := micro_frame (m := .rxTakeB) (s := a) (t := b) rfl
  have second : a.chan.rxData = takenValue u 1 := congrArg (fun c => c.1.rxData) achan
  have stored : b.hid.rxa = takenValue u 0 := by rw [bhid, ahid]; rfl
  have hstore : micro (.storeA n) b =
      .next ((b.setSb (Memory.put b.sb n b.hid.rxa)).emit (.memWrite n b.hid.rxa)) :=
    seqStore_next.2 ⟨by rwa [bparams, aparams], rfl⟩
  refine ⟨(b.setSb (Memory.put b.sb n b.hid.rxa)).emit (.memWrite n b.hid.rxa), ?run, ?sb, ?chan, ?hist, ?_⟩
  case run =>
    rw [microRun_cons (m := .rxWait) (by exact hready) rfl, microRun_cons (t := a) rfl rfl,
      microRun_cons (m := .rxWait) (s := a) (by exact aready.trans hready) rfl,
      microRun_cons (t := b) rfl rfl, microRun_cons (m := .storeA n) (s := b) rfl hstore]
    rfl
  case sb => rw [State.emit_sb, State.setSb_sb, stored, bsb, asb]
  case chan => rw [State.emit_chan, State.setSb_chan, State.emit_draws, State.setSb_draws, bchan, achan]; rfl
  case hist =>
    rw [State.emit_history, State.setSb_history, bhist, ahist, second, stored]
    simp [takenValue]
  exact ⟨bcv.trans acv, bsr.trans asr, bclk.trans aclk, bdata.trans adata, bledrx.trans aledrx⟩

/-! ## The loop -/

/-- The state `u` before iteration `n` of a CAPTURE issued in `s` (R66). -/
structure CaptureAt (s : State) (n : Nat) (u : State) : Prop where
  params : u.params = s.params
  len : u.len = s.len
  noError : u.cfgErr = false ∧ u.illCmd = false
  chan : (u.chan, u.draws) = chanNext^[2 * n] (s.chan, s.draws)
  shows : u.Shows (ticksBefore (s.len.toNat / 8) n)
  stored : ∀ i, i < n → Memory.get u.sb i = some (takenValue s (2 * i))
  kept : ∀ j, n ≤ j → Memory.get u.sb j = Memory.get s.sb j
  history : u.history = s.history ++ (frameEvents 0 ++ (List.range n).flatMap fun i =>
    [.rxTake (takenValue s (2 * i)), .rxTake (takenValue s (2 * i + 1)), .memWrite i (takenValue s (2 * i))] ++
      tickEvents i (s.len.toNat / 8))

/-- The value of a take counted from a later iteration. -/
theorem CaptureAt.takenValue_eq {s u : State} {n : Nat} (h : CaptureAt s n u) (k : Nat) :
    takenValue u k = takenValue s (2 * n + k) := by
  rw [takenValue, takenValue, h.chan, Nat.add_comm, Function.iterate_add_apply]

/-- One iteration of CAPTURE's loop (R66). -/
theorem CaptureAt.next {s u : State} {n : Nat} (h : CaptureAt s n u) (hready : s.chan.rxReady = true)
    (hlen : lenOk s.len.toNat s.params.sbDepth = true) (hn : n < s.len.toNat) :
    ∃ v, microRun (captureBody s.len.toNat n) u = some v ∧ CaptureAt s (n + 1) v := by
  obtain ⟨hmin, hmul, hdepth⟩ := (lenOk_iff _ _).1 hlen
  have hready' : u.chan.rxReady = true := by
    have hkeep (k : Nat) : (chanNext^[k] (s.chan, s.draws)).1.rxReady = s.chan.rxReady := by
      induction k with
      | zero => rfl
      | succ k ih => rw [Function.iterate_succ_apply', chanNext_rxReady, ih]
    have hchan := congrArg (fun c => c.1.rxReady) h.chan
    exact (hchan.trans (hkeep _)).trans hready
  obtain ⟨w, hw, wsb, wchan, whist, wcv, wsr, wclk, wdata, wledrx⟩ :=
    microRun_capturePair hready' (n := n) (by rw [h.params]; omega)
  have wshows := h.shows.congr wcv wsr wclk wdata wledrx
  obtain ⟨v, hv, vshows, vhist, vchan, vsb, vdraws⟩ :=
    microRun_tickIfDue (n := n) (by omega) (by omega) wshows
  have hrun : microRun (captureBody s.len.toNat n) u = some v := by
    rw [captureBody, microRun_append, hw]; exact hv
  obtain ⟨-, vlen, vcfg, vill, vparams, -⟩ := microRun_frame hrun
  have htake0 := h.takenValue_eq 0
  have htake1 := h.takenValue_eq 1
  rw [Nat.add_zero] at htake0
  refine ⟨v, hrun, vparams.trans h.params, vlen.trans h.len, ⟨vcfg.trans h.noError.1, vill.trans h.noError.2⟩, ?chan,
    vshows, fun i hi => ?stored, fun j hj => ?kept, ?history⟩
  case chan => rw [vchan, vdraws, wchan, h.chan, ← Function.iterate_add_apply, Nat.add_comm]; rfl
  case stored =>
    rw [vsb, wsb, Memory.get_put, htake0]
    split_ifs with hin
    · rw [hin]
    · exact h.stored i (by omega)
  case kept => rw [vsb, wsb, Memory.get_put_other _ _ (by omega), h.kept j (by omega)]
  case history =>
    rw [vhist, whist, htake0, htake1, h.history, List.range_succ, List.flatMap_append, List.flatMap_singleton]
    simp only [List.append_assoc]

/-- The condition between the blocks of CAPTURE: the accepted state, then the state before each iteration. -/
def CaptureBetween (s : State) : Nat → State → Prop
  | 0, u => u = clearErrors s
  | n + 1, u => CaptureAt s n u

/-- Every block of CAPTURE goes through and keeps the condition (R66). -/
theorem CaptureBetween.next {s u : State} {b : Nat} (hclk : s.clk = false) (hready : s.chan.rxReady = true)
    (hlen : lenOk s.len.toNat s.params.sbDepth = true) (hb : b < blockCount .capture s.len.toNat)
    (h : CaptureBetween s b u) :
    ∃ v, microRun (block .capture s.len.toNat b) u = some v ∧ CaptureBetween s (b + 1) v := by
  cases b with
  | zero =>
    cases h
    obtain ⟨v, hv, hshows, hhist, hchan, hsb, hdraws⟩ :=
      microRun_progressInit (i := .capture) rfl s.len.toNat (s := clearErrors s) hclk
    obtain ⟨-, hvlen, hcfg, hill, hparams, -⟩ := microRun_frame hv
    obtain ⟨hmin, -, -⟩ := (lenOk_iff _ _).1 hlen
    have hzero : ticksBefore (s.len.toNat / 8) 0 = 0 := by
      rw [(ticksBefore_due (by omega) (Nat.zero_mod _)).1, Nat.zero_div]
    exact ⟨v, hv, hparams, hvlen, ⟨hcfg, hill⟩, by rw [hchan, hdraws]; rfl, hzero.symm ▸ hshows, nofun,
      fun j _ => by rw [hsb]; rfl, by rw [hhist]; simp [clearErrors]⟩
  | succ n =>
    simp only [blockCount, loopCount] at hb
    exact CaptureAt.next h hready hlen (by omega)

/-- Settles O37: the list goes through block by block, and the state before the iteration after the last is as R69
says. -/
theorem captureStoresTheFirstOfEachPair : Obligations.CaptureStoresTheFirstOfEachPair := by
  intro s hidle hclk hin hready hlen
  obtain ⟨hmin, hmul, -⟩ := (lenOk_iff _ _).1 hlen
  obtain ⟨t, hrun, hend⟩ := run_microList_of_condition (i := .capture) (len := s.len) (s := clearErrors s)
    (CaptureBetween s) rfl hin fun b u hb h => h.next hclk hready hlen hb
  have hend : CaptureAt s s.len.toNat t := by
    rw [blockCount, Nat.add_comm] at hend; exact hend
  have hwhole : ticksBefore (s.len.toNat / 8) s.len.toNat = 8 := by
    have hticks := ticksBefore_whole (p := s.len.toNat / 8) (by omega)
    rwa [show 8 * (s.len.toNat / 8) = s.len.toNat by omega] at hticks
  have hshows := hend.shows
  rw [hwhole] at hshows
  obtain ⟨hcv, hsr, hclk', hdata, hledrx⟩ := hshows.final
  exact ⟨accept .capture s, t.setSeq Seq.idle, takenValue s, issueStream_accepted .capture hidle.not_busy hlen, hrun,
    fun n v hv => takenValue_listed hv, hend.stored, hend.kept, hend.history, rfl, hcv, hsr, hclk', hdata, hledrx,
    hend.len, statusWord_eq_zero rfl hend.noError.1 hend.noError.2⟩

end Sys2Proof.Machine
end

section
/-! PROOFS. PLAYBACK from issue to completion (spec/42_stream.md R67, R69). -/

namespace Sys2Proof.Machine

open Sys2Proof

/-! ## The samples handed over -/

theorem txSamples_append (a b : List Event) : txSamples (a ++ b) = txSamples a ++ txSamples b := by
  induction a with
  | nil => rfl
  | cons e a ih => cases e <;> simp [txSamples, ih]

theorem txSamples_flatMap (f : Nat → List Event) (l : List Nat) :
    txSamples (l.flatMap f) = l.flatMap fun i => txSamples (f i) := by
  induction l with
  | nil => rfl
  | cons i l ih => rw [List.flatMap_cons, txSamples_append, ih, List.flatMap_cons]

/-- Pin-driver calls hand over no sample. -/
theorem txSamples_of_pinCalls {l : List Event} (h : l.all Event.isPinCall = true) : txSamples l = [] := by
  induction l with
  | nil => rfl
  | cons e l ih =>
    rw [List.all_cons, Bool.and_eq_true] at h
    obtain ⟨he, hl⟩ := h
    cases e with
    | dataSet a => exact ih hl
    | clkSet a => exact ih hl
    | _ => cases he

/-- A tick hands over no sample. -/
theorem txSamples_tickEvents (n p : Nat) : txSamples (tickEvents n p) = [] := by
  unfold tickEvents
  split_ifs
  · exact txSamples_of_pinCalls (isPinCall_frameEvents _)
  · rfl

/-- A read of SB hands over no sample. -/
theorem txSamples_playbackReads (e : Bool) (len : Nat) (buf : Nat → Sample) (n : Nat) :
    txSamples (playbackReads e len buf n) = [] := by
  unfold playbackReads; split_ifs <;> rfl

/-- A completed PLAYBACK hands over one sample a frame (R67). -/
theorem txSamples_playbackEvents (e : Bool) (len : Nat) (buf : Nat → Sample) :
    txSamples (playbackEvents e len buf) = (List.range (2 * len)).map (playbackSample e len buf) := by
  rw [playbackEvents, txSamples_append, txSamples_of_pinCalls (isPinCall_frameEvents 0), List.nil_append,
    txSamples_flatMap]
  simp only [txSamples_append, txSamples_playbackReads, txSamples_tickEvents, txSamples, List.nil_append,
    List.append_nil]
  exact List.flatMap_pure_eq_map _ _

/-! ## One frame -/

/-- Up to `TxPut`, an iteration over a written buffer reads its words and hands over its frame's sample; beside the
history only hidden registers change (R67, R70). -/
theorem microRun_playbackSend {u : State} {e : Bool} {len n : Nat} {buf : Nat → Sample}
    (hdepth : len ≤ u.params.sbDepth) (hbuf : ∀ j, j < len → Memory.get u.sb j = some (buf j)) (hn : n < 2 * len) :
    ∃ h, microRun (playbackSend e len n) u = some { u with
      hid := h
      events := (playbackReads e len buf n ++ [Event.txPut (playbackSample e len buf n)]).reverse ++ u.events } := by
  have hword : n / 2 < len := by omega
  unfold playbackSend playbackReads playbackSample
  split_ifs with hodd hecho
  · exact ⟨u.hid, rfl⟩
  · have htap : delayTap (n / 2) len < len := lt_of_le_of_lt (Nat.sub_le _ _) hword
    let b := buf (delayTap (n / 2) len)
    refine ⟨{ u.hid with
      ma := buf (n / 2), mb := b, mp := mixStage1 b, mq := mixStage2 (mixStage1 b)
      my := mixSample (buf (n / 2)) b }, ?_⟩
    rw [microRun_cons rfl (micro_loadMa_written (hword.trans_le hdepth) (hbuf _ hword)), echoMicros, List.cons_append,
      microRun_cons rfl (micro_loadMb_written (by exact htap.trans_le hdepth) (by exact hbuf _ htap))]
    rfl
  · refine ⟨{ u.hid with ma := buf (n / 2) }, ?_⟩
    rw [microRun_cons rfl (micro_loadMa_written (hword.trans_le hdepth) (hbuf _ hword))]
    rfl

/-! ## The loop -/

/-- The state `u` before iteration `n` of a PLAYBACK issued in `s`, with the words `buf` in its buffer (R67). -/
structure PlaybackAt (s : State) (e : Bool) (buf : Nat → Sample) (n : Nat) (u : State) : Prop where
  params : u.params = s.params
  len : u.len = s.len
  noError : u.cfgErr = false ∧ u.illCmd = false
  chan : u.chan = s.chan
  shows : u.Shows (ticksBefore (2 * s.len.toNat / 8) n)
  sb : u.sb = s.sb
  history : u.history = s.history ++ (frameEvents 0 ++ (List.range n).flatMap fun i =>
    playbackReads e s.len.toNat buf i ++ [.txPut (playbackSample e s.len.toNat buf i)] ++
      tickEvents i (2 * s.len.toNat / 8))

/-- The condition between the blocks of PLAYBACK: the accepted state, then the state before each iteration. -/
def PlaybackBetween (s : State) (e : Bool) (buf : Nat → Sample) : Nat → State → Prop
  | 0, u => u = clearErrors s
  | n + 1, u => PlaybackAt s e buf n u

section
variable {s : State} {e : Bool} {buf : Nat → Sample} (hready : s.chan.txReady = true)
  (hlen : lenOk s.len.toNat s.params.sbDepth = true)
  (hbuf : ∀ j, j < s.len.toNat → Memory.get s.sb j = some (buf j))
include hready hlen hbuf

/-- One iteration of PLAYBACK's loop (R67). -/
theorem PlaybackAt.next {u : State} {n : Nat} (h : PlaybackAt s e buf n u) (hn : n < 2 * s.len.toNat) :
    ∃ v, microRun (playbackBody e s.len.toNat n) u = some v ∧ PlaybackAt s e buf (n + 1) v := by
  obtain ⟨hmin, hmul, hdepth⟩ := (lenOk_iff _ _).1 hlen
  obtain ⟨hid, hw⟩ := microRun_playbackSend (u := u) (e := e) (buf := buf) (by rw [h.params]; exact hdepth)
    (by rw [h.sb]; exact hbuf) hn
  set w : State := { u with
    hid := hid
    events :=
      (playbackReads e s.len.toNat buf n ++ [Event.txPut (playbackSample e s.len.toNat buf n)]).reverse ++ u.events }
  have whist : w.history =
      u.history ++ (playbackReads e s.len.toNat buf n ++ [.txPut (playbackSample e s.len.toNat buf n)]) :=
    history_append rfl
  obtain ⟨v, hv, vshows, vhist, vchan, vsb, -⟩ :=
    microRun_tickIfDue (u := w) (n := n) (p := 2 * s.len.toNat / 8) (by omega) (by omega)
      (h.shows.congr rfl rfl rfl rfl rfl)
  have hwait : microRun [.txWait] v = some v := by
    have henabled : Micro.enabled .txWait v = true := by
      rw [Micro.enabled, vchan]
      exact (congrArg Chan.txReady h.chan).trans hready
    rw [microRun_cons henabled rfl]
    rfl
  have hrun : microRun (playbackBody e s.len.toNat n) u = some v := by
    rw [playbackBody, microRun_append, microRun_append, hw]
    exact (congrArg (Option.bind · _) hv).trans hwait
  obtain ⟨-, vlen, vcfg, vill, vparams, -⟩ := microRun_frame hrun
  refine ⟨v, hrun, vparams.trans h.params, vlen.trans h.len, ⟨vcfg.trans h.noError.1, vill.trans h.noError.2⟩,
    vchan.trans h.chan, vshows, vsb.trans h.sb, ?_⟩
  rw [vhist, whist, h.history, List.range_succ, List.flatMap_append, List.flatMap_singleton]
  simp only [List.append_assoc]

/-- Every block of PLAYBACK goes through and keeps the condition (R67). -/
theorem PlaybackBetween.next {u : State} {b : Nat} (hclk : s.clk = false)
    (hb : b < blockCount (.playback e) s.len.toNat) (h : PlaybackBetween s e buf b u) :
    ∃ v, microRun (block (.playback e) s.len.toNat b) u = some v ∧ PlaybackBetween s e buf (b + 1) v := by
  cases b with
  | zero =>
    cases h
    obtain ⟨v, hv, hshows, hhist, hchan, hsb, -⟩ :=
      microRun_progressInit (i := .playback e) rfl s.len.toNat (s := clearErrors s) hclk
    obtain ⟨-, hvlen, hcfg, hill, hparams, -⟩ := microRun_frame hv
    obtain ⟨hmin, -, -⟩ := (lenOk_iff _ _).1 hlen
    have hzero : ticksBefore (2 * s.len.toNat / 8) 0 = 0 := by
      rw [(ticksBefore_due (by omega) (Nat.zero_mod _)).1, Nat.zero_div]
    exact ⟨v, hv, hparams, hvlen, ⟨hcfg, hill⟩, hchan, hzero.symm ▸ hshows, hsb, by rw [hhist]; simp [clearErrors]⟩
  | succ n =>
    simp only [blockCount, loopCount, Config.slotsPerSample] at hb
    exact PlaybackAt.next hready hlen hbuf h (by omega)

end

/-- Settles O38: the list goes through block by block, and the state before the iteration after the last is as R69
says. -/
theorem playbackSendsTheBuffer : Obligations.PlaybackSendsTheBuffer := by
  intro s e buf hidle hclk hin hready hlen hbuf
  obtain ⟨hmin, hmul, -⟩ := (lenOk_iff _ _).1 hlen
  obtain ⟨t, hrun, hend⟩ := run_microList_of_condition (i := .playback e) (len := s.len) (s := clearErrors s)
    (PlaybackBetween s e buf) rfl hin fun b u hb h => h.next hready hlen hbuf hclk hb
  have hend : PlaybackAt s e buf (2 * s.len.toNat) t := by
    rw [blockCount, Nat.add_comm] at hend; exact hend
  have hwhole : ticksBefore (2 * s.len.toNat / 8) (2 * s.len.toNat) = 8 := by
    have hticks := ticksBefore_whole (p := 2 * s.len.toNat / 8) (by omega)
    rwa [show 8 * (2 * s.len.toNat / 8) = 2 * s.len.toNat by omega] at hticks
  have hshows := hend.shows
  rw [hwhole] at hshows
  obtain ⟨hcv, hsr, hclk', hdata, hledrx⟩ := hshows.final
  have hhist : t.history = s.history ++ playbackEvents e s.len.toNat buf := hend.history
  exact ⟨accept (.playback e) s, t.setSeq Seq.idle, issueStream_accepted (.playback e) hidle.not_busy hlen, hrun,
    by rw [State.setSeq_history, hhist, txSamples_append, txSamples_playbackEvents], hhist, hend.sb, rfl, hcv, hsr,
    hclk', hdata, hledrx, hend.len, statusWord_eq_zero rfl hend.noError.1 hend.noError.2⟩

end Sys2Proof.Machine
end
